-- ==== Sys2Proof/Word.lean ====
section
/-! DEFINITION. The widths of the block (rule R6) as word types, and the records of what the target CPU
presents on its bus (rules R174, R185). -/

namespace Sys2Proof

/-- One readable register (`REGW = 8`), the status byte, one byte of a command stream. -/
abbrev Byte := BitVec 8
/-- A target address (`ADDRW = 16`). -/
abbrev Addr := BitVec 16
/-- The 6-bit mode flag set of a breakpoint entry, `MODE6` (R89). -/
abbrev Mode6 := BitVec 6
/-- The 4-bit trigger code, `TRIG4` (R90). -/
abbrev Trig4 := BitVec 4
/-- The 4-bit compressed mode, `CMODE4` (R91). -/
abbrev CMode4 := BitVec 4
/-- The 4-bit register selector, `SEL4` (R95). -/
abbrev Sel4 := BitVec 4
/-- The 5-bit command word, `CMD5` (R81). -/
abbrev Cmd5 := BitVec 5
/-- One serialized breakpoint entry, `BPWORD26` (R87). -/
abbrev BpWord := BitVec 26
/-- The breakpoint bank, eight slots of 26 bits (R24). -/
abbrev BankWord := BitVec 208

/-- The kind of a target bus cycle: exactly one of the three (R174, decision D14). -/
inductive AccessKind where
  /-- an instruction fetch -/
  | fetch
  /-- a memory read -/
  | read
  /-- a memory write -/
  | write
  deriving DecidableEq, Repr, Inhabited

/-- A target bus cycle as BANK sees it: kind, 16-bit address, and the levels of T0 and T1 in the same
cycle (R174, R190). -/
structure BusCycle where
  kind : AccessKind
  addr : Addr
  t0   : Bool
  t1   : Bool
  deriving DecidableEq, Repr, Inhabited

/-- The kind of a cycle that follows an instruction's FETCH (R185). -/
inductive DataKind where
  | read
  | write
  deriving DecidableEq, Repr, Inhabited

/-- A READ or WRITE cycle of an instruction (R185). -/
structure DataCycle where
  kind : DataKind
  addr : Addr
  t0   : Bool
  t1   : Bool
  deriving DecidableEq, Repr, Inhabited

/-- One target instruction: one FETCH cycle, then finitely many READ and WRITE cycles (R185). -/
structure TargetInstr where
  addr : Addr
  t0   : Bool
  t1   : Bool
  data : List DataCycle
  deriving DecidableEq, Repr, Inhabited

end Sys2Proof
end

