-- ==== Sys2Proof/Config.lean ====
section
/-! DEFINITION. What an implementation of the block fixes and the spec leaves OPEN (rule R6: `FIFO_DEPTH`,
`AUTO_HALT`), and the free values behind every `any value` of the spec. Each is an opaque constant without
a body: no proof can see a value of it, so a claim holds for every value (log entries 1 to 4).
The parameters that a run has to evaluate (`CMD_CODE`, `MUX_OFFSET`, the status bit positions) are a value of
`Binding` instead, which State holds and no step writes; the spec's default stands in Machine/Binding.lean
(log entries 5 to 7). -/

namespace Sys2Proof

/-- The ten command names of the document (R82). -/
inductive CmdName where
  | ssEnable | bpEnable | loadBp | cpuReset | step | watchAck | fifoReset | loadMem | rdMem | wrMem
  deriving DecidableEq, Repr

/-- `CMD_CODE`, a parameter: an injective map from command name to 4-bit operation number (R6, R82, D2). -/
structure CmdMap where
  ssEnable  : BitVec 4
  bpEnable  : BitVec 4
  loadBp    : BitVec 4
  cpuReset  : BitVec 4
  step      : BitVec 4
  watchAck  : BitVec 4
  fifoReset : BitVec 4
  loadMem   : BitVec 4
  rdMem     : BitVec 4
  wrMem     : BitVec 4
  injective :
    [ssEnable, bpEnable, loadBp, cpuReset, step, watchAck, fifoReset, loadMem, rdMem, wrMem].Nodup
  deriving DecidableEq, Repr

/-- `MUX_OFFSET`, a parameter: an injective map from register name to selector value, in which the high byte of
a 16-bit register sits one above its low byte (R6, R61, R95, D7). The values it names nothing at are the
extension's. -/
structure MuxMap where
  iaLo    : Sel4
  hitIaLo : Sel4
  hitTaLo : Sel4
  hitMode : Sel4
  data    : Sel4
  /-- each high byte has a selector value of its own -/
  highs     : iaLo ≠ 15 ∧ hitIaLo ≠ 15 ∧ hitTaLo ≠ 15
  injective : [iaLo, iaLo + 1, hitIaLo, hitIaLo + 1, hitTaLo, hitTaLo + 1, hitMode, data].Nodup
  deriving DecidableEq, Repr

/-- `STATUS_INTERRUPTED_BIT` and `STATUS_ACTIVE_BIT`, parameters: distinct, each in 0..7 (R6, R94, D8). -/
structure StatusBits where
  interrupted : Fin 8
  active      : Fin 8
  distinct    : interrupted ≠ active
  deriving DecidableEq, Repr

/-- The numeric binding of the three ports, which the document leaves to the platform (R6, R63, U4). -/
structure Binding where
  cmd    : CmdMap
  mux    : MuxMap
  status : StatusBits
  deriving DecidableEq, Repr

namespace Config

/-- `FIFO_DEPTH` less one: any natural number, since the depth is at least 1 (R6, D18; log entry 1). -/
opaque fifoDepthLessOne : Nat

/-- `FIFO_DEPTH`: the capacity of the pending-event queue, at least 1 (R6, R26). -/
def fifoDepth : Nat := fifoDepthLessOne + 1

/-- `AUTO_HALT`: whether the bank itself halts the target on a breakpoint event (R6, R182, D23;
log entry 2). -/
opaque autoHalt : Bool

/-- A fresh byte for every `any value` a read returns: the unnamed status bits (R94), `HIT_MODE[7:4]`
(R93), the hit registers with nothing pending (R31), `DATA` and the extension registers (R32).
Applied to the draw counter of State (log entry 3). -/
opaque freeByte : Nat → Byte

/-- The target instruction the environment chooses where State names none (R185, R189, U30).
Applied to the draw counter of State (log entry 4). -/
opaque freeInstr : Nat → TargetInstr

/-- Which failure `setTrigger` reports when both `NotFound` and `InvalidTrigger` apply (R269, U24):
true for `InvalidTrigger`. Applied to the draw counter of State (log entry 3). -/
opaque freeChoice : Nat → Bool

end Config

end Sys2Proof
end

