-- ==== Sys2Proof/Syntax.lean ====
section
/-! DEFINITION. The hardware commands: one constructor for each of the twelve rows of spec/opcode_table.json
(rules R82, R103), which partition the 32 values of the 5-bit command word. -/

namespace Sys2Proof

/-- A command word, decoded: the command's name and its parameter bit `P` (R81). A reserved word keeps its
operation number `OP` as well, since its row covers more than one. -/
inductive Instr where
  /-- SS_ENABLE, `0000p`: single-step enable (p = 1) or disable (R108). -/
  | ssEnable (p : Bool)
  /-- BP_ENABLE, `0001p`: breakpoint-comparator enable (p = 1) or disable (R109). -/
  | bpEnable (p : Bool)
  /-- LOAD_BP, `0010b`: shift the bit b into the bank (R110). -/
  | loadBp (b : Bool)
  /-- CPU_RESET, `0011p`: target reset assert (p = 1) or deassert (R111). -/
  | cpuReset (p : Bool)
  /-- STEP, `0100p`: single-step pulse; p is ignored (R112, R116). -/
  | step (p : Bool)
  /-- WATCH_ACK, `0101p`: watch-event acknowledge; p is ignored (R113, R116). -/
  | watchAck (p : Bool)
  /-- FIFO_RESET, `0110p`: event store reset; p is ignored (R114, R116). -/
  | fifoReset (p : Bool)
  /-- LOAD_MEM, `0111p`: memory load of the extension (R117). -/
  | loadMem (p : Bool)
  /-- RD_MEM, `1000p`: memory read of the extension (R117). -/
  | rdMem (p : Bool)
  /-- WR_MEM, `1001p`: memory write of the extension (R117). -/
  | wrMem (p : Bool)
  /-- RESERVED_A_B, `101rp`: operation numbers 0xA and 0xB (R85, R115). -/
  | reservedAB (op : BitVec 4) (p : Bool)
  /-- RESERVED_C_F, `11rrp`: operation numbers 0xC to 0xF (R85, R115). -/
  | reservedCF (op : BitVec 4) (p : Bool)
  deriving DecidableEq, Repr

end Sys2Proof
end

