-- ==== Sys2Proof/WellFormed.lean ====
section
/-! DEFINITION. Which terms of Instr stand for a command word under a command map: a reserved row holds only
operation numbers that name no command, each row its own (rules R85, R103). Every other field is as wide as its
type. -/

namespace Sys2Proof

/-- The operation numbers of the ten commands. -/
def CmdMap.codes (m : CmdMap) : List (BitVec 4) :=
  [m.ssEnable, m.bpEnable, m.loadBp, m.cpuReset, m.step, m.watchAck, m.fifoReset, m.loadMem, m.rdMem, m.wrMem]

/-- The operation number lies in the pattern `101r` of the row RESERVED_A_B (R103). -/
def inRowAB (op : BitVec 4) : Bool := op.extractLsb' 1 3 == 0b101#3

/-- A reserved row's operation number is no command's and lies in that row. Under the default map they are 0xA and
0xB, and 0xC to 0xF (R85). -/
def Instr.wf (m : CmdMap) : Instr → Bool
  | .ssEnable _ => true
  | .bpEnable _ => true
  | .loadBp _ => true
  | .cpuReset _ => true
  | .step _ => true
  | .watchAck _ => true
  | .fifoReset _ => true
  | .loadMem _ => true
  | .rdMem _ => true
  | .wrMem _ => true
  | .reservedAB op _ => !m.codes.contains op && inRowAB op
  | .reservedCF op _ => !m.codes.contains op && !inRowAB op

end Sys2Proof
end

