-- ==== Sys2Proof/Decode.lean ====
section
/-! DEFINITION. The command word: the default map `CMD_CODE` (rule R82), the decoder of a 5-bit word under any
command map, the decoder of a byte stream (total on any bytes, rejecting by name), the encoder, and the host's
entry point `decodeTableWord`, which uses the default map as spec/opcode_table.json does. -/

namespace Sys2Proof

/-- The default of `CMD_CODE` (R82). DESIGN CHOICE: the document gives no numbers (D2, log entry 5). -/
def specCmdMap : CmdMap where
  ssEnable := 0x0
  bpEnable := 0x1
  loadBp := 0x2
  cpuReset := 0x3
  step := 0x4
  watchAck := 0x5
  fifoReset := 0x6
  loadMem := 0x7
  rdMem := 0x8
  wrMem := 0x9
  injective := by decide

/-- The operation number of a command. -/
def CmdMap.code (m : CmdMap) : CmdName → BitVec 4
  | .ssEnable => m.ssEnable
  | .bpEnable => m.bpEnable
  | .loadBp => m.loadBp
  | .cpuReset => m.cpuReset
  | .step => m.step
  | .watchAck => m.watchAck
  | .fifoReset => m.fifoReset
  | .loadMem => m.loadMem
  | .rdMem => m.rdMem
  | .wrMem => m.wrMem

/-- `OP`, the operation number of a command word: `CMD[4:1]` (R81). -/
def opField (w : Cmd5) : BitVec 4 := w.extractLsb' 1 4

/-- `P`, the parameter bit of a command word: `CMD[0]` (R81). -/
def pField (w : Cmd5) : Bool := w.getLsbD 0

/-- The `code` argument of `writeCommand` for a named command: `{OP, 0}` (R81). -/
def codeOf (m : CmdMap) (n : CmdName) : Cmd5 := m.code n ++ 0b0#1

/-- The word written for a code and a parameter: `code | param` (R81, R106). -/
def commandWord (code : Cmd5) (param : Bool) : Cmd5 := code ||| (BitVec.ofBool param).setWidth 5

/-- The instruction of a 5-bit command word under a command map; total (R82, R103). A word that names no command
is reserved, under any map (R85). -/
def decodeWith (m : CmdMap) (w : Cmd5) : Instr :=
  let op := opField w
  let p := pField w
  if op = m.ssEnable then .ssEnable p
  else if op = m.bpEnable then .bpEnable p
  else if op = m.loadBp then .loadBp p
  else if op = m.cpuReset then .cpuReset p
  else if op = m.step then .step p
  else if op = m.watchAck then .watchAck p
  else if op = m.fifoReset then .fifoReset p
  else if op = m.loadMem then .loadMem p
  else if op = m.rdMem then .rdMem p
  else if op = m.wrMem then .wrMem p
  else if inRowAB op then .reservedAB op p
  else .reservedCF op p

/-- Decoding under the default map, whose rows partition the 32 words as spec/opcode_table.json has them
(R82, R103). -/
def decodeBits (w : Cmd5) : Instr := decodeWith specCmdMap w

/-- Why a byte stream is no command stream. -/
inductive DecodeError where
  /-- there is no byte to decode -/
  | noByte
  /-- a bit above the five of the command port is set: the format is one 5-bit word (R100) -/
  | notACommandWord (b : Byte)
  deriving DecidableEq, Repr

/-- Decode the first command of a stream that holds one command word per byte, in the byte's low five bits,
and give the rest of the stream. -/
def decode (m : CmdMap) : List Byte → Except DecodeError (Instr × List Byte)
  | [] => .error .noByte
  | b :: rest =>
    if b.extractLsb' 5 3 = 0#3 then .ok (decodeWith m (b.setWidth 5), rest)
    else .error (.notACommandWord b)

/-- The command word of an instruction under a command map (R82); a reserved instruction keeps its own operation number. -/
def encode (m : CmdMap) : Instr → Cmd5
  | .ssEnable p => commandWord (codeOf m .ssEnable) p
  | .bpEnable p => commandWord (codeOf m .bpEnable) p
  | .loadBp b => commandWord (codeOf m .loadBp) b
  | .cpuReset p => commandWord (codeOf m .cpuReset) p
  | .step p => commandWord (codeOf m .step) p
  | .watchAck p => commandWord (codeOf m .watchAck) p
  | .fifoReset p => commandWord (codeOf m .fifoReset) p
  | .loadMem p => commandWord (codeOf m .loadMem) p
  | .rdMem p => commandWord (codeOf m .rdMem) p
  | .wrMem p => commandWord (codeOf m .wrMem) p
  | .reservedAB op p => commandWord (op ++ 0b0#1) p
  | .reservedCF op p => commandWord (op ++ 0b0#1) p

/-- The byte that carries an instruction's word in a command stream. -/
def encodeByte (m : CmdMap) (i : Instr) : Byte := (encode m i).setWidth 8

/-- The bytes that hold the low `nbits` bits of w, at least one, the first byte the least significant. -/
def tableBytes (nbits w : Nat) : List Byte :=
  (List.range (max 1 ((nbits + 7) / 8))).map fun k => BitVec.ofNat 8 ((w % 2 ^ nbits) / 2 ^ (8 * k))

/-- The host's entry point: the instruction the decoder reads from a word of spec/opcode_table.json. A
command is one byte long here, so any further byte must be zero. -/
def decodeTableWord (nbits w : Nat) : Option Instr :=
  match decode specCmdMap (tableBytes nbits w) with
  | .ok (i, rest) => if rest.all (· == 0#8) then some i else none
  | .error _ => none

end Sys2Proof
end

