-- ==== Sys2Proof/Machine/Binding.lean ====
section
/-! DEFINITION. The spec's default for each numeric parameter of the ports (rules R6, R82, R94, R95). -/

namespace Sys2Proof.Machine

/-- The default of `MUX_OFFSET` (R95). DESIGN CHOICE: the document gives no numbers, only that a high byte sits one
above its low byte (D7, log entry 6). -/
def specMuxMap : MuxMap where
  iaLo := 0
  hitIaLo := 2
  hitTaLo := 4
  hitMode := 6
  data := 7
  highs := by decide
  injective := by decide

/-- The defaults of `STATUS_INTERRUPTED_BIT` and `STATUS_ACTIVE_BIT` (R94). DESIGN CHOICE (D8, log entry 7). -/
def specStatusBits : StatusBits where
  interrupted := 0
  active := 1
  distinct := by decide

/-- The binding the machine has right after reset: the spec's default for every parameter. DESIGN CHOICE
(log entries 5 to 7). -/
def specBinding : Binding := { cmd := specCmdMap, mux := specMuxMap, status := specStatusBits }

end Sys2Proof.Machine
end

