-- ==== Sys2Proof/Machine/State.lean ====
section
/-! DEFINITION. The state of the block and its surroundings as plain data (rules R13 to R45), the state at
power-on, and the ways a step could stop. INVENTORY.md lists every field with its rule and its reset value. -/

namespace Sys2Proof.Machine

/-- Why a step could stop with a fault. There is no constructor: "No command raises an error, faults, or is
acknowledged" (R118), and every failure is a result returned to the DRIVER (R265). -/
inductive Fault where
  deriving DecidableEq, Repr

/-- Why a step could be refused. The spec's own `refuse` is the sticky mark REFUSED of State (R35), not an
outcome of a step (log entry 8). -/
inductive Refusal where
  /-- raised by an arm of `exec` that has no meaning yet; no arm raises it; safe -/
  | notModelled (mnemonic : String)
  deriving DecidableEq, Repr

/-- A captured hit (R26): hit instruction address, hit target address, compressed mode. -/
structure Event where
  hitIa : Addr
  hitTa : Addr
  cmode : CMode4
  deriving DecidableEq, Repr

/-- An entry of the BreakpointStore (R40, R241). -/
structure Entry where
  address : Addr
  mode    : Mode6
  trigger : Trig4
  deriving DecidableEq, Repr

/-- `EC_STATE` (R36). -/
inductive EcState where
  | stepping
  | armed
  | stopped
  deriving DecidableEq, Repr

/-- The engine's position in the operation in progress: the rows of R223, and the rows of the start-up
sequence (R302) and of `reset` (R304). The indices of A_BIT(s,b) are the counters SLOT_CNT and BIT_CNT. -/
inductive Phase where
  | idle
  | sPulse | sRdLo | sRdHi
  | cPrestep | aDisable | aBit | aEnable | cRelease
  | pWait | pStatus
  | hIaLo | hIaHi | hTaLo | hTaHi | hMode | hAck
  | xSs | xBp | xRdLo | xRdHi
  /-- the five commands of `startup()` -/
  | uSs | uBp | uFifo | uRstOn | uRstOff
  /-- the two commands of `reset()` -/
  | rRstOn | rRstOff
  deriving DecidableEq, Repr

/-- Who may own the bus (R39, R66): the engine, or another requester. -/
inductive Requester where
  | engine
  | other (id : Nat)
  deriving DecidableEq, Repr

/-- The failures and informational results of the taxonomy (R266). -/
inductive Failure where
  | storeFull | notFound | invalidTrigger | notStepping | alreadySet | notSet
  deriving DecidableEq, Repr

/-- What the logging collaborator is handed. The first two are the engine's reports (R203); the others are
the DRIVER's messages, whose text is not specified (R247, R265). -/
inductive Report where
  /-- the current instruction address -/
  | traceAddr (ia : Addr)
  /-- the decoded modes and the addresses of a hit -/
  | hitReport (modes : Mode6) (hitIa : Addr) (hitTa : Option Addr)
  /-- the modes affected by a set operation, and the address (log entry 28) -/
  | modesSet (modes : Mode6) (addr : Addr)
  /-- a failure or an informational result -/
  | message (f : Failure)
  deriving DecidableEq, Repr

/-- What an operation returns to its caller. -/
inductive Result where
  | done
  /-- a failure or an informational result, by its name (R266) -/
  | named (f : Failure)
  /-- a `read8` -/
  | byte (b : Byte)
  /-- a `read16` -/
  | word (w : Addr)
  /-- a `ReadStatus` -/
  | status (interrupted active : Bool)
  | index (i : Option Nat)
  | valid (b : Bool)
  | listing (l : List (Nat × Entry))
  /-- the request is not accepted now and has to be made again (R66, R68) -/
  | notGranted
  deriving DecidableEq, Repr

/-- What ENV may do at any time (R73). -/
inductive EnvAct where
  | intr (level : Bool)
  | triggers (t0 t1 : Bool)
  | rxPending (level : Bool)
  /-- choose one more instruction that the target will run (R185) -/
  | targetInstr (i : TargetInstr)
  deriving DecidableEq, Repr

/-- An operation the DRIVER calls (R5, R206, R209, R304, R244 to R252). Numbers that the document does not
bound, and codes that may be out of range, are naturals. -/
inductive DriverOp where
  | step (count traceEvery : Nat)
  | continueExecution
  | reset
  | setBreakpoint (address : Addr) (modeBits : Mode6) (trigger : Option Nat)
  | clearMode (address : Addr) (modeBits : Mode6)
  | setTrigger (index code : Nat)
  /-- `setTrigger(findByAddress(addr), code)`, the command `trigger addr code` (R102) -/
  | triggerAt (address : Addr) (code : Nat)
  | findByAddress (address : Addr)
  | indexValid (index : Nat)
  | list
  deriving DecidableEq, Repr

/-- The external command surface (R102), its optional arguments given. -/
inductive ExternalCmd where
  | reset
  | step (count traceEvery : Nat)
  | breakpointSet (kind : AccessKind) (addr : Addr) (trigger : Option Nat)
  | watchSet (kind : AccessKind) (addr : Addr) (trigger : Option Nat)
  | breakpointClear (kind : AccessKind) (addr : Addr)
  | watchClear (kind : AccessKind) (addr : Addr)
  | list
  | trigger (addr : Addr) (code : Nat)
  | continue
  deriving DecidableEq, Repr

/-- What a requester other than the engine may ask of the bus (R51, R66). A `read16` is two moves, since
other agents may act between its two sub-reads (R58). -/
inductive MasterOp where
  | acquire
  | release
  | command (w : Cmd5)
  | read8 (sel : Sel4)
  | read16 (sel : Sel4)
  | read16High
  | status
  deriving DecidableEq, Repr

/-- One move of one agent (R5). -/
inductive Move where
  /-- ENGINE performs its phase's row -/
  | engine
  /-- TARGET presents its next bus cycle, if it may advance -/
  | target
  | env (a : EnvAct)
  | driver (op : DriverOp)
  | external (c : ExternalCmd)
  | master (id : Nat) (op : MasterOp)
  deriving DecidableEq, Repr

/-- The lines between ENGINE and BANK (R17 to R19). -/
structure Port where
  cmd    : Cmd5
  strobe : Bool
  muxsel : Sel4
  deriving DecidableEq, Repr

/-- BANK's registers (R18, R21 to R26, R30). -/
structure Bank where
  strobeSeen : Bool
  ssEn       : Bool
  bpEn       : Bool
  cpuRst     : Bool
  bpsr       : BankWord
  evq        : List Event
  ia         : Addr
  deriving DecidableEq, Repr

/-- ENGINE's registers (R36 to R39) and the operands of the operation in progress. -/
structure Engine where
  ecState    : EcState
  phase      : Phase
  shreg      : BpWord
  bitCnt     : Nat
  slotCnt    : Nat
  stepIdx    : Nat
  /-- operand `count` of the `step` in progress (R206) -/
  stepCount  : Nat
  /-- operand `traceEvery` of the `step` in progress (R206) -/
  traceEvery : Nat
  /-- ST_SAMPLE, the flag `interrupted` -/
  stIntr     : Bool
  /-- ST_SAMPLE, the flag `active` -/
  stAct      : Bool
  rIa        : Addr
  rTa        : Addr
  rMode      : Byte
  rLo        : Byte
  busOwner   : Option Requester
  /-- the selector of a requester's `read16` whose high byte is still to be read (R58, R133; log entry 20) -/
  halfRead   : Option Sel4
  /-- `startup()` has completed (R302: "run once by the engine before it accepts any DRIVER request") -/
  started    : Bool
  deriving DecidableEq, Repr

/-- The environment's inputs (R28, R33, R34). -/
structure Env where
  intr      : Bool
  t0        : Bool
  t1        : Bool
  rxPending : Bool
  deriving DecidableEq, Repr

/-- The TARGET agent (R185 to R189): the instructions the environment has chosen for it, and the cycles the
instruction in progress still owes. -/
structure Target where
  script : List TargetInstr
  owed   : List DataCycle
  deriving DecidableEq, Repr

/-- The model-only sticky marks (R35). -/
structure Marks where
  overflow : Bool
  refused  : Bool
  deriving DecidableEq, Repr

/-- What leaves the block: reports to the logging collaborator, results to callers; oldest first. -/
structure Out where
  reports : List Report
  results : List Result
  deriving DecidableEq, Repr

/-- The whole state (R13). `draws` and `schedule` are the model's own: how many free values have been
drawn, and which agents move next (log entries 3 and 9). -/
structure State where
  /-- the numeric parameters of the ports (R6), which no step writes (log entries 5 to 7) -/
  binding  : Binding
  port     : Port
  bank     : Bank
  engine   : Engine
  /-- STORE, the DRIVER's BreakpointStore (R40) -/
  store    : List Entry
  env      : Env
  target   : Target
  marks    : Marks
  out      : Out
  draws    : Nat
  schedule : List Move
  deriving DecidableEq, Repr

/-- The state at power-on: EC_STATE, PHASE, BUS_OWNER, STORE and "no command is pending" as R36, R37, R39,
R40 and R43 give them. Every other element is unspecified at power-on (R43) and holds zero here: DESIGN
CHOICE, log entry 10 (for OVERFLOW and REFUSED log entry 27); no statement rests on it. The numeric parameters of the
ports have the spec's defaults. -/
def State.reset : State where
  binding := specBinding
  port := { cmd := 0, strobe := false, muxsel := 0 }
  bank := { strobeSeen := false, ssEn := false, bpEn := false, cpuRst := false, bpsr := 0, evq := [], ia := 0 }
  engine :=
    { ecState := .stepping, phase := .idle, shreg := 0, bitCnt := 0, slotCnt := 0, stepIdx := 0, stepCount := 0,
      traceEvery := 0, stIntr := false, stAct := false, rIa := 0, rTa := 0, rMode := 0, rLo := 0,
      busOwner := none, halfRead := none, started := false }
  store := []
  env := { intr := false, t0 := false, t1 := false, rxPending := false }
  target := { script := [], owed := [] }
  marks := { overflow := false, refused := false }
  out := { reports := [], results := [] }
  draws := 0
  schedule := []

def State.setPort (s : State) (p : Port) : State := { s with port := p }
def State.setBank (s : State) (b : Bank) : State := { s with bank := b }
def State.setEngine (s : State) (e : Engine) : State := { s with engine := e }
def State.setStore (s : State) (st : List Entry) : State := { s with store := st }
def State.setEnv (s : State) (e : Env) : State := { s with env := e }
def State.setTarget (s : State) (t : Target) : State := { s with target := t }
def State.setMarks (s : State) (m : Marks) : State := { s with marks := m }
def State.setOut (s : State) (o : Out) : State := { s with out := o }
def State.setDraws (s : State) (n : Nat) : State := { s with draws := n }
def State.setSchedule (s : State) (l : List Move) : State := { s with schedule := l }

end Sys2Proof.Machine
end

