-- ==== Sys2Proof/Machine/Operands.lean ====
section
/-! DEFINITION. The formats and what they decode to: the 26-bit breakpoint word, the access-kind masks, the
compressed mode, and the register selector with the value the read multiplexer presents
(rules R52, R87 to R96, R137 to R139, R151, R175, R204, R205). -/

namespace Sys2Proof.Machine

/-- `serialize`: `((trigger << 6 | mode) << 16) | address` in 26 bits (R88, R151). -/
def serialize (e : Entry) : BpWord :=
  (((e.trigger.setWidth 26 <<< 6) ||| e.mode.setWidth 26) <<< 16) ||| e.address.setWidth 26

/-- `serialize` of unbounded field values: each is masked to its width (R152, D41). -/
def serializeNat (address mode trigger : Nat) : BpWord :=
  serialize { address := BitVec.ofNat 16 address, mode := BitVec.ofNat 6 mode, trigger := BitVec.ofNat 4 trigger }

/-- The address field of a breakpoint word, `w[15:0]` (R25, R87). -/
def wordAddr (w : BpWord) : Addr := w.extractLsb' 0 16
/-- The mode field of a breakpoint word, `w[21:16]` (R25, R87). -/
def wordMode (w : BpWord) : Mode6 := w.extractLsb' 16 6
/-- The trigger field of a breakpoint word, `w[25:22]` (R25, R87). -/
def wordTrig (w : BpWord) : Trig4 := w.extractLsb' 22 4

/-- The entry a breakpoint word carries (R88, R160). -/
def unpack (w : BpWord) : Entry := { address := wordAddr w, mode := wordMode w, trigger := wordTrig w }

/-- The word pushed for slot k of an arm: the serialized k-th entry, or the empty slot's zero word
(R98, R155, R223). -/
def slotWord (store : List Entry) (k : Nat) : BpWord :=
  match store[k]? with
  | some e => serialize e
  | none => 0

/-- The breakpoint bit of an access kind in `MODE6` (R89; the order in a group is D11, log entry 11). -/
def breakpointBit : AccessKind → Mode6
  | .fetch => 0b000001#6
  | .read => 0b000010#6
  | .write => 0b000100#6

/-- The watch bit of an access kind in `MODE6`: the breakpoint bit three places up (R89). -/
def watchBit (k : AccessKind) : Mode6 := breakpointBit k <<< 3

/-- `KindMask`: the breakpoint bit and the watch bit of one access kind (R175). -/
def kindMask (k : AccessKind) : Mode6 := breakpointBit k ||| watchBit k

/-- Expansion of a compressed mode to `MODE6`; total (R92). -/
def expandCmode (c : CMode4) : Mode6 :=
  if c.getLsbD 3 then (c.extractLsb' 0 3).setWidth 6 <<< 3 else (c.extractLsb' 0 3).setWidth 6

/-- Compression of a folded hit to `CMODE4`: the breakpoint bits win over the watch bits (R178). -/
def compress (hit6 : Mode6) : CMode4 :=
  if hit6.extractLsb' 0 3 ≠ 0#3 then 0b0#1 ++ hit6.extractLsb' 0 3 else 0b1#1 ++ hit6.extractLsb' 3 3

/-- What the discriminator makes of the `HIT_MODE` byte (R204). -/
structure Decoded where
  watch : Bool
  kind  : BitVec 3
  mode6 : Mode6
  deriving DecidableEq, Repr

/-- `hitDecode`: bits 7:4 are ignored, bit 3 flags a watch, the low three bits are the kind (R204). -/
def hitDecode (m : Byte) : Decoded :=
  let c : CMode4 := m.extractLsb' 0 4
  { watch := c.getLsbD 3, kind := c.extractLsb' 0 3, mode6 := expandCmode c }

/-- Whether the accessed data address is part of a report: "for read/write kinds" (R205). -/
def reportsData (mode6 : Mode6) : Bool := mode6 &&& 0b110110#6 != 0#6

/-- The names of the six mode bits (R205). -/
inductive ModeName where
  | instructionBreakpoint | readBreakpoint | writeBreakpoint | instructionWatch | readWatch | writeWatch
  deriving DecidableEq, Repr

/-- The names of the set bits of a mode, bit 0 first (R205). -/
def modeNames (m : Mode6) : List ModeName :=
  (if m.getLsbD 0 then [.instructionBreakpoint] else []) ++ (if m.getLsbD 1 then [.readBreakpoint] else []) ++
  (if m.getLsbD 2 then [.writeBreakpoint] else []) ++ (if m.getLsbD 3 then [.instructionWatch] else []) ++
  (if m.getLsbD 4 then [.readWatch] else []) ++ (if m.getLsbD 5 then [.writeWatch] else [])

/-- The registers behind the selector that the core reads (R15). -/
inductive RegName where
  | iaLo | iaHi | hitIaLo | hitIaHi | hitTaLo | hitTaHi | hitMode | data
  deriving DecidableEq, Repr

/-- `MUX_OFFSET`, the selector value of a register (R95): a high byte sits one above its low byte. -/
def muxOffset (m : MuxMap) : RegName → Sel4
  | .iaLo => m.iaLo
  | .iaHi => m.iaLo + 1
  | .hitIaLo => m.hitIaLo
  | .hitIaHi => m.hitIaLo + 1
  | .hitTaLo => m.hitTaLo
  | .hitTaHi => m.hitTaLo + 1
  | .hitMode => m.hitMode
  | .data => m.data

/-- `REG[sel]`, the byte the read multiplexer presents (R20, R52, R95, R137 to R139); `fresh` stands for
every `any value` of the presented byte: the hit registers with nothing pending (R31), the high nibble of
`HIT_MODE` (R93), `DATA` and the extension registers (R32). -/
def regValue (m : MuxMap) (fresh : Byte) (sel : Sel4) (b : Bank) : Byte :=
  if sel = muxOffset m .iaLo then b.ia.extractLsb' 0 8
  else if sel = muxOffset m .iaHi then b.ia.extractLsb' 8 8
  else
    match b.evq with
    | [] => fresh
    | e :: _ =>
      if sel = muxOffset m .hitIaLo then e.hitIa.extractLsb' 0 8
      else if sel = muxOffset m .hitIaHi then e.hitIa.extractLsb' 8 8
      else if sel = muxOffset m .hitTaLo then e.hitTa.extractLsb' 0 8
      else if sel = muxOffset m .hitTaHi then e.hitTa.extractLsb' 8 8
      else if sel = muxOffset m .hitMode then fresh.extractLsb' 4 4 ++ e.cmode
      else fresh

end Sys2Proof.Machine
end

