-- ==== Sys2Proof/Machine/Comparator.lean ====
section
/-! DEFINITION. The trigger table, the slots of the bank, and the rule by which a slot asserts on a target bus
cycle (rules R24, R25, R154, R171, R176, R177). -/

namespace Sys2Proof.Machine

/-- `evaluate`, the trigger table row by row (R171). -/
def evaluate (code : Trig4) (t0 t1 : Bool) : Bool :=
  match code.toNat with
  | 0 => false
  | 1 => !t0 && !t1
  | 2 => t0 && !t1
  | 3 => !t1
  | 4 => !t0 && t1
  | 5 => !t0
  | 6 => t0 != t1
  | 7 => !t0 || !t1
  | 8 => t0 && t1
  | 9 => t0 == t1
  | 10 => t0
  | 11 => t0 || !t1
  | 12 => t1
  | 13 => !t0 || t1
  | 14 => t0 || t1
  | _ => true

/-- Slot k of the bank, `BPSR[26k+25 : 26k]` (R24). -/
def slot (bpsr : BankWord) (k : Nat) : BpWord := bpsr.extractLsb' (26 * k) 26

/-- One LOAD_BP on the bank: `{b, BPSR[207:1]}` (R110). -/
def shiftIn (b : Bool) (bpsr : BankWord) : BankWord := BitVec.ofBool b ++ bpsr.extractLsb' 1 207

/-- The mode bits a slot contributes to a cycle: those of the cycle's kind if address and trigger match,
else none (R176). -/
def slotHit (w : BpWord) (c : BusCycle) : Mode6 :=
  if wordAddr w = c.addr ∧ evaluate (wordTrig w) c.t0 c.t1 = true then wordMode w &&& kindMask c.kind else 0

/-- A slot asserts when the bits it contributes are not all zero (R176). -/
def slotAsserts (w : BpWord) (c : BusCycle) : Bool := slotHit w c != 0

/-- `hit6`, the fold of the eight slots (R177). -/
def hit6 (bpsr : BankWord) (c : BusCycle) : Mode6 :=
  [0, 1, 2, 3, 4, 5, 6, 7].foldl (fun acc k => acc ||| slotHit (slot bpsr k) c) 0

end Sys2Proof.Machine
end

