-- ==== Sys2Proof/Machine/Flags.lean ====
section
/-! DEFINITION. The two status flags and the status byte (rules R27 to R29, R41, R94, R136, R183). The block
has no arithmetic condition codes (R41). -/

namespace Sys2Proof.Machine

/-- `ACTIVE`: an event is pending (R27, R183). -/
def Bank.active (b : Bank) : Bool := !b.evq.isEmpty

/-- `INTERRUPTED`: the level of INTR at the sample, not latched (R28, D38). -/
def Env.interrupted (e : Env) : Bool := e.intr

/-- Byte b with bit n set to v. -/
def putBit (b : Byte) (n : Fin 8) (v : Bool) : Byte :=
  (b &&& ~~~((1#8) <<< n.val)) ||| ((BitVec.ofBool v).setWidth 8 <<< n.val)

/-- `STATUS`, the byte a status-port read returns: the two flags in their places, every other bit an
`any value` taken from `fresh` (R29, R94). -/
def statusByte (fresh : Byte) (s : State) : Byte :=
  putBit (putBit fresh s.binding.status.interrupted s.env.interrupted) s.binding.status.active s.bank.active

end Sys2Proof.Machine
end

