-- ==== Sys2Proof/Machine/Ops.lean ====
section
/-! DEFINITION. The shared operations: free values, marks and outputs; capturing a hit (this hardware's
"trap entry", rule R276) and acknowledging one (its "return", R278); the bank's step for one target bus
cycle; the TARGET's moves; the reads of the register file and of the status port. -/

namespace Sys2Proof.Machine

/-- The next free byte (log entry 3). -/
def State.fresh (s : State) : Byte := Config.freeByte s.draws

/-- One more free value has been drawn. -/
def State.drawn (s : State) : State := s.setDraws (s.draws + 1)

/-- Set the sticky mark REFUSED (R35). -/
def State.markRefused (s : State) : State := s.setMarks { s.marks with refused := true }

/-- Set the sticky mark OVERFLOW (R35). -/
def State.markOverflow (s : State) : State := s.setMarks { s.marks with overflow := true }

/-- `emit`: hand a report to the logging collaborator (R8, R203). -/
def State.emit (r : Report) (s : State) : State := s.setOut { s.out with reports := s.out.reports ++ [r] }

/-- Return a result to the caller. -/
def State.answer (r : Result) (s : State) : State := s.setOut { s.out with results := s.out.results ++ [r] }

/-- `raise`: return a named failure to the DRIVER and report it; nothing else changes (R8, R265). -/
def State.raise (f : Failure) (s : State) : State := (s.emit (.message f)).answer (.named f)

/-! ## The event store -/

/-- Append an event to a queue of the given depth; a full queue loses it and sets OVERFLOW (R181). -/
def queueEvent (depth : Nat) (e : Event) (s : State) : State :=
  if s.bank.evq.length < depth then s.setBank { s.bank with evq := s.bank.evq ++ [e] } else s.markOverflow

/-- BANK asks the target to halt: `SS_EN <- 1` (R182). -/
def haltTarget (s : State) : State := s.setBank { s.bank with ssEn := true }

/-- TAKING A HIT, the one entry operation: queue the event, or lose it and set OVERFLOW when the store is
full (R179, R181); a breakpoint halts the target when `autoHalt`, whether or not its event found room
(R182). Nothing else is saved and control goes nowhere (R276). -/
def captureHitWith (depth : Nat) (autoHalt : Bool) (ta : Addr) (cmode : CMode4) (s : State) : State :=
  let t := queueEvent depth { hitIa := s.bank.ia, hitTa := ta, cmode := cmode } s
  if !cmode.getLsbD 3 && autoHalt then haltTarget t else t

/-- RETURN from a hit: remove the head event, whatever it is; nothing when there is none (R113, R278). -/
def popEvent (s : State) : State := s.setBank { s.bank with evq := s.bank.evq.tail }

/-- Empty the event store (R109, R114). -/
def clearEvents (s : State) : State := s.setBank { s.bank with evq := [] }

/-! ## One target bus cycle -/

/-- The IA update of a cycle: a FETCH copies its address, whatever BP_EN and SS_EN are (R180). -/
def trackIa (kind : AccessKind) (addr : Addr) (s : State) : State :=
  if kind = .fetch then s.setBank { s.bank with ia := addr } else s

/-- `BankCycle` (R192) at a given queue depth and halting mode; BANK samples the trigger inputs once, at the
cycle (R190). -/
def bankCycleWith (depth : Nat) (autoHalt : Bool) (kind : AccessKind) (addr : Addr) (s : State) : State :=
  let s := trackIa kind addr s
  let hits := hit6 s.bank.bpsr { kind := kind, addr := addr, t0 := s.env.t0, t1 := s.env.t1 }
  if s.bank.bpEn && hits != 0 then captureHitWith depth autoHalt addr (compress hits) s else s

/-- `BankCycle` at this machine's FIFO_DEPTH and AUTO_HALT (R192). -/
def bankCycle (kind : AccessKind) (addr : Addr) (s : State) : State :=
  bankCycleWith Config.fifoDepth Config.autoHalt kind addr s

/-- ENV's trigger inputs stand at the cycle's levels while TARGET presents it, and BANK processes it
(R174, R190). -/
def present (c : BusCycle) (s : State) : State :=
  bankCycle c.kind c.addr (s.setEnv { s.env with t0 := c.t0, t1 := c.t1 })

/-- The bus cycle of a data access (R185). -/
def dataCycle (d : DataCycle) : BusCycle where
  kind := match d.kind with
    | .read => .read
    | .write => .write
  addr := d.addr
  t0 := d.t0
  t1 := d.t1

/-- The FETCH cycle of an instruction (R185). -/
def fetchCycle (i : TargetInstr) : BusCycle := { kind := .fetch, addr := i.addr, t0 := i.t0, t1 := i.t1 }

/-- Present several data cycles in order. -/
def presentData (l : List DataCycle) (s : State) : State := l.foldl (fun s d => present (dataCycle d) s) s

/-! ## The TARGET agent -/

/-- The instruction the target runs next: the environment's choice where State names one, else a free one
(R185, log entry 4). -/
def nextInstr (s : State) : TargetInstr :=
  match s.target.script with
  | i :: _ => i
  | [] => Config.freeInstr s.draws

/-- The state once the next instruction has been taken. -/
def takeInstr (s : State) : State :=
  match s.target.script with
  | _ :: rest => s.setTarget { s.target with script := rest }
  | [] => s.drawn

/-- TARGET presents the cycles the instruction in progress still owes (R188). -/
def finishInstr (s : State) : State := presentData s.target.owed (s.setTarget { s.target with owed := [] })

/-- TARGET begins its next instruction: its FETCH cycle is presented, its data cycles are owed (R185). -/
def beginInstr (s : State) : State :=
  let i := nextInstr s
  let s := takeInstr s
  present (fetchCycle i) (s.setTarget { s.target with owed := i.data })

/-- TARGET runs one whole instruction, FETCH first; what an earlier one still owes comes before it
(R112, R187, R188; log entry 12). -/
def runInstr (s : State) : State := finishInstr (beginInstr (finishInstr s))

/-- TARGET may advance freely: no reset, no single-step mode (R186). -/
def freeRunning (s : State) : Bool := !s.bank.cpuRst && !s.bank.ssEn

/-- The target has been halted inside an instruction and still owes cycles, which it presents before the next
bus operation (R186, R188). -/
def haltPending (s : State) : Bool := !s.bank.cpuRst && s.bank.ssEn && !s.target.owed.isEmpty

/-- One cycle of TARGET's: the next one owed, or in free run the FETCH of a new instruction; none while the
target is in reset, nor between two steps (R186, R189). -/
def targetMove (s : State) : State :=
  if s.bank.cpuRst then s
  else
    match s.target.owed with
    | d :: rest => present (dataCycle d) (s.setTarget { s.target with owed := rest })
    | [] => if s.bank.ssEn then s else beginInstr s

/-! ## The read side of the bus -/

/-- The selector value of a register, under this machine's binding (R95). -/
def offset (r : RegName) (s : State) : Sel4 := muxOffset s.binding.mux r

/-- The byte `read8 sel` returns (R131). -/
def readValue (sel : Sel4) (s : State) : Byte := regValue s.binding.mux s.fresh sel s.bank

/-- The state after `read8 sel`: the selector is written and stays (R131, R132, R140). -/
def selected (sel : Sel4) (s : State) : State := (s.setPort { s.port with muxsel := sel }).drawn

/-- The low sub-read of a `read16`: `R_LO <- read8(off)` (R133). -/
def readLow (sel : Sel4) (s : State) : State :=
  (selected sel s).setEngine { s.engine with rLo := readValue sel s }

/-- The word a `read16` returns once its high sub-read at `sel` is made: `{hi, R_LO}` (R52, R133). -/
def readWord (sel : Sel4) (s : State) : Addr := readValue sel s ++ s.engine.rLo

/-- `ReadStatus`: one sample of the status port; both flags go to ST_SAMPLE, every other bit is discarded,
MUXSEL is not touched (R59, R136). -/
def readStatus (s : State) : State :=
  let b := statusByte s.fresh s
  s.drawn.setEngine { s.engine with stIntr := b.getLsbD s.binding.status.interrupted, stAct := b.getLsbD s.binding.status.active }

end Sys2Proof.Machine
end

