-- ==== Sys2Proof/Machine/BankLoad.lean ====
section
/-! DEFINITION. The meaning of LOAD_BP, the one command that writes the breakpoint bank (rule R110). -/

namespace Sys2Proof.Machine

/-- LOAD_BP(b): `BPSR <- {b, BPSR[207:1]}`, whatever BP_EN is (R110, R71). -/
def execLoadBp (b : Bool) (s : State) : Host.Outcome State Fault Refusal :=
  .next (s.setBank { s.bank with bpsr := shiftIn b s.bank.bpsr })

end Sys2Proof.Machine
end

