-- ==== Sys2Proof/Machine/Control.lean ====
section
/-! DEFINITION. The meanings of the commands that control the target and the comparators: SS_ENABLE,
BP_ENABLE, CPU_RESET, STEP (rules R108, R109, R111, R112). -/

namespace Sys2Proof.Machine

/-- SS_ENABLE(p): `SS_EN <- p` (R108). The target's halt follows from SS_EN (R186, R188). -/
def execSsEnable (p : Bool) (s : State) : Host.Outcome State Fault Refusal :=
  .next (s.setBank { s.bank with ssEn := p })

/-- BP_ENABLE(p): `BP_EN <- p`, and p = 0 empties the event store (R109). -/
def execBpEnable (p : Bool) (s : State) : Host.Outcome State Fault Refusal :=
  let s := s.setBank { s.bank with bpEn := p }
  .next (if p then s else clearEvents s)

/-- TARGET drops the instruction in progress when its reset is asserted or leaves it, since it then starts a
new instruction (R189). -/
def abortInstr (s : State) : State := s.setTarget { s.target with owed := [] }

/-- CPU_RESET(p): `CPU_RST <- p`, and nothing else in the block (R111, R45). -/
def execCpuReset (p : Bool) (s : State) : Host.Outcome State Fault Refusal :=
  let s := if p || s.bank.cpuRst then abortInstr s else s
  .next (s.setBank { s.bank with cpuRst := p })

/-- STEP: in single-step mode and out of reset the target runs exactly one instruction; otherwise no effect
(R112). The parameter bit is ignored (R116). -/
def execStep (_p : Bool) (s : State) : Host.Outcome State Fault Refusal :=
  .next (if s.bank.ssEn && !s.bank.cpuRst then runInstr s else s)

end Sys2Proof.Machine
end

