-- ==== Sys2Proof/Machine/Events.lean ====
section
/-! DEFINITION. The meanings of the commands on the event store: WATCH_ACK and FIFO_RESET (rules R113, R114). -/

namespace Sys2Proof.Machine

/-- WATCH_ACK: remove the head event, watch or breakpoint; nothing on an empty store (R113). The parameter
bit is ignored (R116). -/
def execWatchAck (_p : Bool) (s : State) : Host.Outcome State Fault Refusal := .next (popEvent s)

/-- FIFO_RESET: `EVQ <- []` (R114). The parameter bit is ignored (R116). -/
def execFifoReset (_p : Bool) (s : State) : Host.Outcome State Fault Refusal := .next (clearEvents s)

end Sys2Proof.Machine
end

