-- ==== Sys2Proof/Machine/Extension.lean ====
section
/-! DEFINITION. The meanings of the words the spec gives no semantics: the extension's memory commands
(rule R117) and the reserved operation numbers (rule R115). What the spec says of each is that a model asked
to execute one sets the sticky mark REFUSED (R35); the rest of the state is left as it is, and no statement
rests on that (log entry 8). -/

namespace Sys2Proof.Machine

/-- LOAD_MEM: REFUSED is set (R117). -/
def execLoadMem (_p : Bool) (s : State) : Host.Outcome State Fault Refusal := .next s.markRefused

/-- RD_MEM: REFUSED is set (R117). -/
def execRdMem (_p : Bool) (s : State) : Host.Outcome State Fault Refusal := .next s.markRefused

/-- WR_MEM: REFUSED is set (R117). -/
def execWrMem (_p : Bool) (s : State) : Host.Outcome State Fault Refusal := .next s.markRefused

/-- Operation numbers 0xA and 0xB: REFUSED is set (R115). -/
def execReservedAB (_op : BitVec 4) (_p : Bool) (s : State) : Host.Outcome State Fault Refusal :=
  .next s.markRefused

/-- Operation numbers 0xC to 0xF: REFUSED is set (R115). -/
def execReservedCF (_op : BitVec 4) (_p : Bool) (s : State) : Host.Outcome State Fault Refusal :=
  .next s.markRefused

end Sys2Proof.Machine
end

