-- ==== Sys2Proof/Machine/Dispatch.lean ====
section
/-! DEFINITION. What BANK does with a command, one arm per row of spec/opcode_table.json. -/

namespace Sys2Proof.Machine

def exec (i : Instr) (s : State) : Host.Outcome State Fault Refusal :=
  match i with
  | .ssEnable p => Sys2Proof.Machine.execSsEnable p s
  | .bpEnable p => Sys2Proof.Machine.execBpEnable p s
  | .loadBp b => Sys2Proof.Machine.execLoadBp b s
  | .cpuReset p => Sys2Proof.Machine.execCpuReset p s
  | .step p => Sys2Proof.Machine.execStep p s
  | .watchAck p => Sys2Proof.Machine.execWatchAck p s
  | .fifoReset p => Sys2Proof.Machine.execFifoReset p s
  | .loadMem p => Sys2Proof.Machine.execLoadMem p s
  | .rdMem p => Sys2Proof.Machine.execRdMem p s
  | .wrMem p => Sys2Proof.Machine.execWrMem p s
  | .reservedAB op p => Sys2Proof.Machine.execReservedAB op p s
  | .reservedCF op p => Sys2Proof.Machine.execReservedCF op p s

end Sys2Proof.Machine
end

