-- ==== Sys2Proof/Machine/Engine.lean ====
section
/-! DEFINITION. The command port (rules R106, R107) and the ENGINE as a sequencer: one definition per group of
rows of the phase table (R223), each row one step and at most one bus operation; `startup()` (R302), `reset()`
(R304), `step` (R206), `continueExecution` with the arming protocol (R155, R209 to R219). -/

namespace Sys2Proof.Machine

/-- `BankStrobe`: BANK copies the strobe level and executes the word on the command port (R107). -/
def bankStrobe (s : State) : Host.Outcome State Fault Refusal :=
  exec (decodeWith s.binding.cmd s.port.cmd) (s.setBank { s.bank with strobeSeen := s.port.strobe })

/-- Write a command word: the field is rewritten, the strobe toggles once, and BANK executes the word before
any other agent acts (R57, R84, R106; the fused form R107 allows). -/
def writeWord (w : Cmd5) (s : State) : Host.Outcome State Fault Refusal :=
  bankStrobe (s.setPort { s.port with cmd := w, strobe := !s.port.strobe })

/-- `writeCommand(code, param)` (R106). -/
def writeCommand (code : Cmd5) (param : Bool) (s : State) : Host.Outcome State Fault Refusal :=
  writeWord (commandWord code param) s

/-- `writeCommand(code(n), param)`, the form in which the operations are written (R106). -/
def writeNamed (n : CmdName) (param : Bool) (s : State) : Host.Outcome State Fault Refusal :=
  writeCommand (codeOf s.binding.cmd n) param s

/-- `PHASE <- p`; reaching IDLE ends the operation and releases the bus (R206, R219, R302, R304). -/
def State.goto (p : Phase) (s : State) : State :=
  s.setEngine { s.engine with phase := p, busOwner := if p = .idle then none else s.engine.busOwner }

/-- `EC_STATE <- e`. -/
def State.enter (e : EcState) (s : State) : State := s.setEngine { s.engine with ecState := e }

/-- The engine takes the bus for an operation whose first row is p (R66, R67). -/
def State.begin (p : Phase) (s : State) : State :=
  s.setEngine { s.engine with phase := p, busOwner := some .engine }

/-! ## startup and reset -/

/-- An idle engine that has not run `startup()` takes the bus for it as soon as it is free (R302); otherwise
it waits for the DRIVER (R223). -/
def rowIdle (s : State) : State :=
  if s.engine.started || s.engine.busOwner.isSome then s else s.begin .uSs

/-- The last row of `startup()`: CPU_RESET(0); the store is empty and the engine accepts requests (R302).
The marks are left as they are: R44 says OVERFLOW = 0 here, but an event may have been lost before (R181, R301)
and no rule clears a mark (R35). DESIGN CHOICE, log entry 27. -/
def rowStarted (s : State) : Host.Outcome State Fault Refusal :=
  writeNamed .cpuReset false
    (((s.setStore []).setEngine { s.engine with started := true, ecState := .stepping }).goto .idle)

/-! ## step -/

/-- `report_after` (R207). -/
def reportAfter (count traceEvery i : Nat) : Bool :=
  i == count || (decide (0 < traceEvery) && i % traceEvery == 0)

/-- Where `step` goes on after its pulse number i, once any report is made (R223). -/
def afterPulse (count i : Nat) : Phase := if i < count then .sPulse else .idle

/-- S_PULSE: one STEP, counted (R206, R223). -/
def rowPulse (s : State) : Host.Outcome State Fault Refusal :=
  let e := s.engine
  let i := e.stepIdx + 1
  writeNamed .step false
    ((s.setEngine { e with stepIdx := i }).goto
      (if reportAfter e.stepCount e.traceEvery i then .sRdLo else afterPulse e.stepCount i))

/-- S_RD_HI and X_RD_HI: the high sub-read of IA, and the report (R206, R219). -/
def traceIa (s : State) : State :=
  (selected (offset .iaHi s) s).emit (.traceAddr (readWord (offset .iaHi s) s))

/-! ## arm -/

/-- `push` loads the word of slot k into SHREG and clears BIT_CNT (R153, R155). -/
def loadWord (k : Nat) (s : State) : State :=
  s.setEngine { s.engine with shreg := slotWord s.store k, bitCnt := 0, slotCnt := k }

/-- The engine side of one bit of a push: SHREG moves down, BIT_CNT counts, and after bit 25 SLOT_CNT counts
and the next word is loaded, or the comparators are enabled again (R153, R155, R223). -/
def countBit (s : State) : State :=
  let s := s.setEngine { s.engine with shreg := s.engine.shreg >>> 1, bitCnt := s.engine.bitCnt + 1 }
  if s.engine.bitCnt < 26 then s
  else if s.engine.slotCnt + 1 < 8 then loadWord (s.engine.slotCnt + 1) s
  else (s.setEngine { s.engine with slotCnt := s.engine.slotCnt + 1 }).goto .aEnable

/-- A_BIT: LOAD_BP with SHREG's low bit (R153, R223). -/
def rowBit (s : State) : Host.Outcome State Fault Refusal :=
  writeNamed .loadBp (s.engine.shreg.getLsbD 0) (countBit s)

/-! ## The poll loop -/

/-- The interrupt and input test of an iteration: the flag of this iteration's sample, and RX_PENDING now
(R217, R224). -/
def wantsExit (s : State) : Bool := s.engine.stIntr || s.env.rxPending

/-- Where an iteration that leaves no breakpoint goes on (R212). -/
def pollOn (s : State) : Phase := if wantsExit s then .xSs else .pWait

/-- P_STATUS: one sample; the hit first, then the interrupt and input test (R212, R223). -/
def rowStatus (s : State) : State :=
  let s := readStatus s
  s.goto (if s.engine.stAct then .hIaLo else pollOn s)

/-- H_IA_HI: `R_IA` is complete (R213). -/
def latchIa (s : State) : State :=
  (selected (offset .hitIaHi s) s).setEngine { s.engine with rIa := readWord (offset .hitIaHi s) s }

/-- H_TA_HI: `R_TA` is complete (R213). -/
def latchTa (s : State) : State :=
  (selected (offset .hitTaHi s) s).setEngine { s.engine with rTa := readWord (offset .hitTaHi s) s }

/-- The report of a decoded hit; the data address only for read/write kinds (R205, R214). -/
def hitReport (d : Decoded) (e : Engine) : Report :=
  .hitReport d.mode6 e.rIa (if reportsData d.mode6 then some e.rTa else none)

/-- H_MODE: read, decode, report; a watch is acknowledged, a breakpoint leaves the loop (R213 to R216). -/
def rowMode (s : State) : State :=
  let m := readValue (offset .hitMode s) s
  let d := hitDecode m
  (((selected (offset .hitMode s) s).setEngine { s.engine with rMode := m }).emit (hitReport d s.engine)).goto
    (if d.watch then .hAck else .xSs)

/-! ## The shutdown path -/

/-- The debounce: one pending input byte is consumed and thrown away (R218). -/
def discardInput (s : State) : State := s.setEnv { s.env with rxPending := false }

/-- ENGINE performs its phase's row (R223). -/
def engineRow (s : State) : Host.Outcome State Fault Refusal :=
  match s.engine.phase with
  | .idle => .next (rowIdle s)
  | .uSs => writeNamed .ssEnable true (s.goto .uBp)
  | .uBp => writeNamed .bpEnable false (s.goto .uFifo)
  | .uFifo => writeNamed .fifoReset false (s.goto .uRstOn)
  | .uRstOn => writeNamed .cpuReset true (s.goto .uRstOff)
  | .uRstOff => rowStarted s
  | .rRstOn => writeNamed .cpuReset true (s.goto .rRstOff)
  | .rRstOff => writeNamed .cpuReset false (s.goto .idle)
  | .sPulse => rowPulse s
  | .sRdLo => .next ((readLow (offset .iaLo s) s).goto .sRdHi)
  | .sRdHi => .next ((traceIa s).goto (afterPulse s.engine.stepCount s.engine.stepIdx))
  | .cPrestep => writeNamed .step false (s.goto .aDisable)
  | .aDisable => writeNamed .bpEnable false ((loadWord 0 s).goto .aBit)
  | .aBit => rowBit s
  | .aEnable => writeNamed .bpEnable true (s.goto .cRelease)
  | .cRelease => writeNamed .ssEnable false ((s.enter .armed).goto .pWait)
  | .pWait => .next (s.goto .pStatus)
  | .pStatus => .next (rowStatus s)
  | .hIaLo => .next ((readLow (offset .hitIaLo s) s).goto .hIaHi)
  | .hIaHi => .next ((latchIa s).goto .hTaLo)
  | .hTaLo => .next ((readLow (offset .hitTaLo s) s).goto .hTaHi)
  | .hTaHi => .next ((latchTa s).goto .hMode)
  | .hMode => .next (rowMode s)
  | .hAck => writeNamed .watchAck false (s.goto (pollOn s))
  | .xSs => writeNamed .ssEnable true ((discardInput (s.enter .stopped)).goto .xBp)
  | .xBp => writeNamed .bpEnable false (s.goto .xRdLo)
  | .xRdLo => .next ((readLow (offset .iaLo s) s).goto .xRdHi)
  | .xRdHi => .next (((traceIa s).enter .stepping).goto .idle)

end Sys2Proof.Machine
end

