-- ==== Sys2Proof/Machine/Store.lean ====
section
/-! DEFINITION. The BreakpointStore contract, the DRIVER's software model that `arm` consumes
(rules R240 to R252, R265 to R269). -/

namespace Sys2Proof.Machine

/-- The store's capacity (R242). -/
def storeCapacity : Nat := 8

/-- The trigger code of an entry set without one: "always true" (R246). -/
def alwaysTrue : Trig4 := 15

/-- The store invariants: strictly ascending addresses, at most 8 entries, no entry with mode 0 (R242). -/
def StoreWf (st : List Entry) : Prop :=
  st.Pairwise (fun a b => a.address.toNat < b.address.toNat) ∧ st.length ≤ storeCapacity ∧ ∀ e ∈ st, e.mode ≠ 0

/-- What a store operation answers: the store after it, what it reports, what it returns. -/
structure Reply where
  store   : List Entry
  reports : List Report
  result  : Result
  deriving DecidableEq, Repr

/-- A named failure or informational result: reported, returned, the store as it was (R265, R266). -/
def replyNamed (st : List Entry) (f : Failure) : Reply :=
  { store := st, reports := [.message f], result := .named f }

/-- The entry at an address. -/
def findEntry (st : List Entry) (a : Addr) : Option Entry := st.find? (fun e => e.address == a)

/-- `findByAddress` (R250). -/
def findByAddress (st : List Entry) (a : Addr) : Option Nat := st.findIdx? (fun e => e.address == a)

/-- `indexValid` (R250). -/
def indexValid (st : List Entry) (i : Nat) : Bool := decide (i < st.length)

/-- `list`: the entries in store order with their indices (R252). -/
def listing (st : List Entry) : List (Nat × Entry) := (List.range st.length).zip st

/-- Insert a new entry at the position that keeps addresses ascending (R246). -/
def insertEntry (e : Entry) : List Entry → List Entry
  | [] => [e]
  | x :: rest => if e.address.toNat < x.address.toNat then e :: x :: rest else x :: insertEntry e rest

/-- Replace the entry at an address by f of it. -/
def updateAt (a : Addr) (f : Entry → Entry) (st : List Entry) : List Entry :=
  st.map fun e => if e.address = a then f e else e

/-- The trigger an operation leaves: the explicit code, or the one given for none. -/
def triggerOr (explicit : Option Nat) (old : Trig4) : Trig4 :=
  match explicit with
  | some n => BitVec.ofNat 4 n
  | none => old

/-- Whether an explicit trigger is out of its range 0..15 (R248). -/
def triggerBad : Option Nat → Bool
  | some n => decide (15 < n)
  | none => false

/-- `setBreakpoint` (R244 to R248): none is the spec's `refuse` (modeBits = 0). The operand range is checked
before the store is looked at (log entry 13). The modes reported as affected (R247) are all of `modeBits`, also where
the entry had some of them: DESIGN CHOICE, log entry 28. -/
def setBreakpoint (st : List Entry) (a : Addr) (modeBits : Mode6) (explicit : Option Nat) : Option Reply :=
  if modeBits = 0 then none
  else if triggerBad explicit then some (replyNamed st .invalidTrigger)
  else
    match findEntry st a with
    | some e =>
      if e.mode &&& modeBits = modeBits then some (replyNamed st .alreadySet)
      else some
        { store := updateAt a (fun e => { e with mode := e.mode ||| modeBits, trigger := triggerOr explicit e.trigger }) st,
          reports := [.modesSet modeBits a], result := .done }
    | none =>
      if st.length < storeCapacity then some
        { store := insertEntry { address := a, mode := modeBits, trigger := triggerOr explicit alwaysTrue } st,
          reports := [.modesSet modeBits a], result := .done }
      else some (replyNamed st .storeFull)

/-- `clearMode` (R249). -/
def clearMode (st : List Entry) (a : Addr) (modeBits : Mode6) : Reply :=
  match findEntry st a with
  | none => replyNamed st .notFound
  | some e =>
    if e.mode &&& modeBits ≠ modeBits then replyNamed st .notSet
    else if e.mode &&& ~~~modeBits = 0 then
      { store := st.filter (fun e => e.address != a), reports := [], result := .done }
    else { store := updateAt a (fun e => { e with mode := e.mode &&& ~~~modeBits }) st, reports := [], result := .done }

/-- `setTrigger` (R251); where both failures apply, `choice` says which is reported (R269). -/
def setTrigger (choice : Bool) (st : List Entry) (i code : Nat) : Reply :=
  match st[i]? with
  | some e =>
    if 15 < code then replyNamed st .invalidTrigger
    else { store := st.set i { e with trigger := BitVec.ofNat 4 code }, reports := [], result := .done }
  | none => replyNamed st (if decide (15 < code) && choice then .invalidTrigger else .notFound)

/-- `setTrigger(findByAddress(addr), code)`: an address with no entry is as an invalid index (R102, R251). -/
def triggerAt (choice : Bool) (st : List Entry) (a : Addr) (code : Nat) : Reply :=
  setTrigger choice st ((findByAddress st a).getD st.length) code

end Sys2Proof.Machine
end

