-- ==== Sys2Proof/Machine/Agents.lean ====
section
/-! DEFINITION. The other agents' moves (rule R5): ENV (R73), DRIVER with the external command surface (R102,
R206 to R209, R222, R240 to R252, R304), other requesters of the bus (R66 to R68), and whose move comes next. -/

namespace Sys2Proof.Machine

/-! ## ENV -/

/-- ENV drives its inputs, at any time (R28, R33, R34, R73). -/
def envMove (a : EnvAct) (s : State) : State :=
  match a with
  | .intr level => s.setEnv { s.env with intr := level }
  | .triggers t0 t1 => s.setEnv { s.env with t0 := t0, t1 := t1 }
  | .rxPending level => s.setEnv { s.env with rxPending := level }
  | .targetInstr i => s.setTarget { s.target with script := s.target.script ++ [i] }

/-! ## DRIVER -/

/-- The engine accepts a DRIVER's call: started, in `Stepping`, no operation in progress (R240, R302, R305). -/
def acceptsCall (s : State) : Bool :=
  s.engine.started && s.engine.ecState == .stepping && s.engine.phase == .idle

/-- The engine begins an operation if it accepts the call and the bus is free; otherwise the caller has to ask
again (R66 to R68; log entry 14). -/
def beginCall (p : Phase) (s : State) : State :=
  if acceptsCall s && s.engine.busOwner.isNone then s.begin p else s.answer .notGranted

/-- `step(count, traceEvery)`: NotStepping outside `Stepping` (R208); count = 0 is refused (R208). -/
def callStep (count traceEvery : Nat) (s : State) : State :=
  if s.engine.ecState ≠ .stepping then s.raise .notStepping
  else if count = 0 then s.markRefused
  else if acceptsCall s && s.engine.busOwner.isNone then
    (s.setEngine { s.engine with stepIdx := 0, stepCount := count, traceEvery := traceEvery }).begin .sPulse
  else s.answer .notGranted

/-- `continueExecution()`: NotStepping outside `Stepping` (R222); an arm of more than 8 entries is refused
(R158). -/
def callContinue (s : State) : State :=
  if s.engine.ecState ≠ .stepping then s.raise .notStepping
  else if storeCapacity < s.store.length then s.markRefused
  else beginCall .cPrestep s

/-- `reset()`: NotStepping outside `Stepping` (R304). -/
def callReset (s : State) : State :=
  if s.engine.ecState ≠ .stepping then s.raise .notStepping else beginCall .rRstOn s

/-- Carry out a store operation's reply. -/
def applyReply (r : Reply) (s : State) : State :=
  (r.reports.foldl (fun s x => s.emit x) (s.setStore r.store)).answer r.result

/-- A store operation, accepted only where the engine accepts calls (R240, D50). -/
def callStore (r : Option Reply) (s : State) : State :=
  if acceptsCall s then
    match r with
    | some r => applyReply r s
    | none => s.markRefused
  else s.answer .notGranted

/-- The DRIVER calls an operation. -/
def driverMove (op : DriverOp) (s : State) : State :=
  match op with
  | .step count traceEvery => callStep count traceEvery s
  | .continueExecution => callContinue s
  | .reset => callReset s
  | .setBreakpoint a m t => callStore (setBreakpoint s.store a m t) s
  | .clearMode a m => callStore (some (clearMode s.store a m)) s
  | .setTrigger i code => callStore (some (setTrigger (Config.freeChoice s.draws) s.store i code)) s.drawn
  | .triggerAt a code => callStore (some (triggerAt (Config.freeChoice s.draws) s.store a code)) s.drawn
  | .findByAddress a => callStore (some { store := s.store, reports := [], result := .index (findByAddress s.store a) }) s
  | .indexValid i => callStore (some { store := s.store, reports := [], result := .valid (indexValid s.store i) }) s
  | .list => callStore (some { store := s.store, reports := [], result := .listing (listing s.store) }) s

/-- What an external command expands into (R102). -/
def expand (c : ExternalCmd) : DriverOp :=
  match c with
  | .reset => .reset
  | .step count traceEvery => .step count traceEvery
  | .breakpointSet k a t => .setBreakpoint a (breakpointBit k) t
  | .watchSet k a t => .setBreakpoint a (watchBit k) t
  | .breakpointClear k a => .clearMode a (breakpointBit k)
  | .watchClear k a => .clearMode a (watchBit k)
  | .list => .list
  | .trigger a code => .triggerAt a code
  | .continue => .continueExecution

/-! ## Other requesters -/

/-- Requester id owns the bus (R66). -/
def owns (id : Nat) (s : State) : Bool := s.engine.busOwner == some (.other id)

/-- `BUS_OWNER <- o` (R66). -/
def setOwner (o : Option Requester) (s : State) : State := s.setEngine { s.engine with busOwner := o }

/-- The first half of a requester's `read16`; at selector 15 it is refused (R133, R134). -/
def masterRead16 (sel : Sel4) (s : State) : State :=
  if sel = 15 then s.markRefused
  else
    let s := readLow sel s
    s.setEngine { s.engine with halfRead := some sel }

/-- The second half of a requester's `read16` at sel: the high sub-read, `{hi, R_LO}` (R133). -/
def finishRead16 (sel : Sel4) (s : State) : State :=
  let w := readWord (sel + 1) s
  let s := selected (sel + 1) s
  (s.setEngine { s.engine with halfRead := none }).answer (.word w)

/-- A requester's bus operation, none of its own being in progress (R51, R66); the second half of a `read16` is none.
An `acquire` by the requester that owns the bus already leaves everything as it is and gets no answer: R66 says only when
the bus is acquired. DESIGN CHOICE, log entry 29. -/
def ownerMove (op : MasterOp) (s : State) : Host.Outcome State Fault Refusal :=
  match op with
  | .acquire => .next s
  | .release => .next (setOwner none s)
  | .command w => writeWord w s
  | .read8 sel => .next ((selected sel s).answer (.byte (readValue sel s)))
  | .read16 sel => .next (masterRead16 sel s)
  | .read16High => .next (s.answer .notGranted)
  | .status => .next ((readStatus s).answer (.status (readStatus s).engine.stIntr (readStatus s).engine.stAct))

/-- The bus owner's next move. While its `read16` is in progress it can only finish it: each operation completes before
the next begins, and ownership lasts for both sub-reads (R65, R66; log entry 20). -/
def ownerNext (op : MasterOp) (s : State) : Host.Outcome State Fault Refusal :=
  match s.engine.halfRead with
  | some sel => .next (if op = .read16High then finishRead16 sel s else s.answer .notGranted)
  | none => ownerMove op s

/-- A requester's move: its operation if it owns the bus; the bus, if it asks for it while nobody owns it; else
it is not granted (R66, R68; log entry 14). -/
def masterMove (id : Nat) (op : MasterOp) (s : State) : Host.Outcome State Fault Refusal :=
  if owns id s then ownerNext op s
  else if op = .acquire ∧ s.engine.busOwner = none then .next (setOwner (some (.other id)) s)
  else .next (s.answer .notGranted)

/-! ## Whose move it is -/

/-- One agent's move, already taken off the schedule. -/
def agentMove (m : Move) (s : State) : Host.Outcome State Fault Refusal :=
  match m with
  | .engine => engineRow s
  | .target => .next (targetMove s)
  | .env a => .next (envMove a s)
  | .driver op => .next (driverMove op s)
  | .external c => .next (driverMove (expand c) s)
  | .master id op => masterMove id op s

/-- The move is a bus master's, ENGINE's or another requester's. -/
def Move.isMaster : Move → Bool
  | .engine => true
  | .master _ _ => true
  | .target => false
  | .env _ => false
  | .driver _ => false
  | .external _ => false

/-- The move that is next: the schedule's head; ENGINE when the schedule names none (log entry 9). -/
def nextMove (s : State) : Move := s.schedule.headD .engine

/-- One move. A target halted inside an instruction presents the cycles it still owes before a bus master goes
on, whose move then waits (R188). -/
def scheduledMove (s : State) : Host.Outcome State Fault Refusal :=
  if (nextMove s).isMaster && haltPending s then .next (targetMove s)
  else agentMove (nextMove s) (s.setSchedule s.schedule.tail)

/-- A command is pending on the port (R107). -/
def strobePending (s : State) : Bool := s.port.strobe != s.bank.strobeSeen

/-- One step of the whole machine: BANK executes a pending command before anything else happens (R57, R107);
otherwise one agent moves. -/
def machineStep (s : State) : Host.Outcome State Fault Refusal :=
  if strobePending s then bankStrobe s else scheduledMove s

/-- Place a command word on the port with its strobe edge still to be seen by BANK. -/
def placeWord (s : State) (nbits w : Nat) : State :=
  s.setPort { s.port with cmd := BitVec.ofNat 5 (w % 2 ^ nbits), strobe := !s.bank.strobeSeen }

end Sys2Proof.Machine
end

