-- ==== Sys2Proof/Machine/Step.lean ====
section
/-! DEFINITION. One step of the machine, and how a command word is put where the next step fetches it. The
block fetches nothing from memory (rule R16): BANK takes its command from the port at a strobe edge (R107). -/

namespace Sys2Proof.Machine

/-- One step (Machine/Agents.lean). -/
def step (s : State) : Host.Outcome State Fault Refusal := machineStep s

/-- The word stands on the command port and its strobe edge has not been seen, so the next step is BANK's
execution of it (R107). -/
def State.withFetchWord (s : State) (nbits w : Nat) : State := placeWord s nbits w

end Sys2Proof.Machine
end

