-- ==== Sys2Proof/Safety.lean ====
section
/-! DEFINITION. The terms in which claims speak of runs: several steps, several commands, the power-on and
start-up states (rules R43, R303), a run the document vouches for (R35), and the two invariants of a step. -/

namespace Sys2Proof.Machine

/-- n steps, up to the first that is no next state. -/
def runSteps : Nat → State → Host.Outcome State Fault Refusal
  | 0, s => .next s
  | n + 1, s =>
    match step s with
    | .next t => runSteps n t
    | o => o

/-- Several commands, one after another, as BANK executes them. -/
def execAll : List Instr → State → Host.Outcome State Fault Refusal
  | [], s => .next s
  | i :: rest, s =>
    match exec i s with
    | .next t => execAll rest t
    | o => o

/-- A claim about the block takes `OVERFLOW = 0` and `REFUSED = 0` as premises (R35). -/
def Vouched (s : State) : Prop := s.marks.overflow = false ∧ s.marks.refused = false

/-- A store operation's reply has been carried out: the store, the reports and the result are the reply's, and the block,
the target and the environment are as they were (R240, R247, R265). -/
structure CarriedOut (r : Reply) (s t : State) : Prop where
  store : t.store = r.store
  reports : t.out.reports = s.out.reports ++ r.reports
  results : t.out.results = s.out.results ++ [r.result]
  port : t.port = s.port
  bank : t.bank = s.bank
  engine : t.engine = s.engine
  env : t.env = s.env
  target : t.target = s.target
  marks : t.marks = s.marks

/-- Nothing stands between a bus master and its next bus operation: no command is pending and no halted target
owes cycles. -/
def BusReady (s : State) : Prop := strobePending s = false ∧ haltPending s = false

/-- The bus is ready, and ENGINE moves next. -/
def EngineTurn (s : State) : Prop := BusReady s ∧ nextMove s = .engine

/-- The bus is ready, and no agent but ENGINE has a move scheduled. -/
def Quiet (s : State) : Prop := BusReady s ∧ s.schedule = []

/-- A power-on state: everything the spec leaves unspecified is arbitrary (R43, R301). -/
structure PowerOn (s : State) : Prop where
  noCommand : strobePending s = false
  events : s.bank.evq.length ≤ Config.fifoDepth
  ecState : s.engine.ecState = .stepping
  phase : s.engine.phase = .idle
  owner : s.engine.busOwner = none
  halfRead : s.engine.halfRead = none
  started : s.engine.started = false
  bitCnt : s.engine.bitCnt ≤ 26
  slotCnt : s.engine.slotCnt ≤ 8
  store : s.store = []

/-- What R303 says of the state after `startup()`. -/
structure AfterStartup (s : State) : Prop where
  ssEn : s.bank.ssEn = true
  bpEn : s.bank.bpEn = false
  evq : s.bank.evq = []
  active : s.bank.active = false
  cpuRst : s.bank.cpuRst = false
  ecState : s.engine.ecState = .stepping
  store : s.store = []
  owner : s.engine.busOwner = none

/-- The rows of `startup()` (R302). -/
def Phase.isStartup : Phase → Bool
  | .uSs | .uBp | .uFifo | .uRstOn | .uRstOff => true
  | .idle | .sPulse | .sRdLo | .sRdHi | .cPrestep | .aDisable | .aBit | .aEnable | .cRelease | .pWait | .pStatus
  | .hIaLo | .hIaHi | .hTaLo | .hTaHi | .hMode | .hAck | .xSs | .xBp | .xRdLo | .xRdHi | .rRstOn | .rRstOff => false

/-- EC_STATE at each position of the engine: `Armed` from the release of the target to the loop's exit,
`Stopped` in the shutdown path, `Stepping` everywhere else (R201, R220, R223). -/
def Phase.ecState : Phase → EcState
  | .pWait | .pStatus | .hIaLo | .hIaHi | .hTaLo | .hTaHi | .hMode | .hAck | .xSs => .armed
  | .xBp | .xRdLo | .xRdHi => .stopped
  | .idle | .sPulse | .sRdLo | .sRdHi | .cPrestep | .aDisable | .aBit | .aEnable | .cRelease
  | .uSs | .uBp | .uFifo | .uRstOn | .uRstOff | .rRstOn | .rRstOff => .stepping

/-- What every step keeps, whatever the other agents do. -/
structure Inv (s : State) : Prop where
  /-- the event queue holds at most FIFO_DEPTH events (R26) -/
  events : s.bank.evq.length ≤ Config.fifoDepth
  /-- the store's invariants (R242) -/
  store : StoreWf s.store
  /-- EC_STATE is the one the engine's position calls for (R201, R223) -/
  ecState : s.engine.ecState = s.engine.phase.ecState
  /-- the engine owns the bus exactly while an operation is in progress (R67) -/
  owner : s.engine.busOwner = some .engine ↔ s.engine.phase ≠ .idle
  /-- before `startup()` has completed the engine runs nothing else (R302) -/
  boot : s.engine.started = false → s.engine.phase = .idle ∨ s.engine.phase.isStartup = true
  /-- the counters stay within their bounds (R37) -/
  counters : s.engine.bitCnt ≤ 26 ∧ s.engine.slotCnt ≤ 8
  /-- in A_BIT(s,b), SHREG's low bit is bit b of the word of slot s (R223) -/
  pushing : s.engine.phase = .aBit → s.engine.bitCnt < 26 ∧ s.engine.slotCnt < 8 ∧
    s.engine.shreg = slotWord s.store s.engine.slotCnt >>> s.engine.bitCnt
  /-- a pulse is only issued while fewer than `count` have been (R206) -/
  pulses : s.engine.phase = .sPulse → s.engine.stepIdx < s.engine.stepCount
  /-- a `read16` in progress is a bus owner's, and not at selector 15 (R66, R134) -/
  halfRead : ∀ sel, s.engine.halfRead = some sel → sel ≠ 15 ∧ ∃ id, s.engine.busOwner = some (.other id)

/-- The top n bits of the bank are the first n bits that an arm of this store sends (R153, R155). -/
def Sent (n : Nat) (s : State) : Prop :=
  ∀ i, i < n → s.bank.bpsr.getLsbD (208 - n + i) = (slotWord s.store (i / 26)).getLsbD (i % 26)

/-- Between the first LOAD_BP of an arm and its BP_ENABLE(1): the comparators are off, nothing is pending, and what
has been sent stands at the top of the bank (R70, R155, R159). -/
structure Arming (s : State) : Prop where
  quiet : s.engine.phase = .aBit ∨ s.engine.phase = .aEnable →
    strobePending s = false ∧ s.bank.bpEn = false ∧ s.bank.evq = []
  sending : s.engine.phase = .aBit → Sent (26 * s.engine.slotCnt + s.engine.bitCnt) s
  sent : s.engine.phase = .aEnable → Sent 208 s

/-- What the document's protocol maintains when no other requester takes the bus (R201, R220, R303). -/
structure Protocol (s : State) : Prop where
  alone : ∀ m ∈ s.schedule, ∀ id op, m ≠ .master id op
  owner : ∀ id, s.engine.busOwner ≠ some (.other id)
  seen : strobePending s = false
  ecState : s.engine.ecState = s.engine.phase.ecState
  boot : s.engine.started = !(s.engine.phase.isStartup || (s.engine.phase == .idle && !s.engine.started))
  afterSs : s.engine.phase = .uBp ∨ s.engine.phase = .uFifo ∨ s.engine.phase = .uRstOn ∨ s.engine.phase = .uRstOff →
    s.bank.ssEn = true
  afterBp : s.engine.phase = .uFifo ∨ s.engine.phase = .uRstOn ∨ s.engine.phase = .uRstOff →
    s.bank.bpEn = false ∧ s.bank.evq = []
  inReset : s.engine.phase = .uRstOff → s.bank.cpuRst = true ∧ s.target.owed = []
  /-- in `Stepping`: single-step mode, comparators off (but between the end of an arm and the release), nothing
  pending, the target between two instructions, and out of reset but inside `reset` -/
  stepping : s.engine.started = true → s.engine.ecState = .stepping →
    s.bank.ssEn = true ∧ (s.bank.bpEn = true ↔ s.engine.phase = .cRelease) ∧ s.bank.evq = [] ∧
    s.target.owed = [] ∧ (s.bank.cpuRst = true ↔ s.engine.phase = .rRstOff)
  /-- from the sight of ACTIVE to the end of the event's handling an event is pending -/
  handling : s.engine.phase ∈ [.hIaLo, .hIaHi, .hTaLo, .hTaHi, .hMode, .hAck] → s.bank.evq ≠ []
  /-- what H_ACK is about to acknowledge is a watch -/
  acking : s.engine.phase = .hAck → ∀ e ∈ s.bank.evq.head?, e.cmode.getLsbD 3 = true
  /-- in `Armed`: comparators on, and free run until a breakpoint event (pending, or lost to a full queue) under
  AUTO_HALT -/
  armed : s.engine.ecState = .armed →
    s.bank.bpEn = true ∧ s.bank.cpuRst = false ∧
    (s.bank.ssEn = true → Config.autoHalt = true ∧
      ((∃ e ∈ s.bank.evq, e.cmode.getLsbD 3 = false) ∨ s.marks.overflow = true))
  /-- in `Stopped`: single-step mode, and after BP_ENABLE(0) comparators off and nothing pending -/
  stopped : s.engine.ecState = .stopped →
    s.bank.ssEn = true ∧ s.bank.cpuRst = false ∧
    (s.engine.phase ≠ .xBp → s.bank.bpEn = false ∧ s.bank.evq = [] ∧ s.target.owed = [])

end Sys2Proof.Machine
end

