-- ==== Sys2Proof/Certificates/Slice0/Obligations.lean ====
section
/-! DEFINITION. The statements for the provers. Each docstring names the rules of the spec it rests on. A
statement about a next state says that there is one. -/

open Sys2Proof Sys2Proof.Machine

/-! ## The commands -/

/-- R108. SS_ENABLE(p) writes SS_EN and nothing else, and repeating it changes nothing; with p = 1 a target at an
instruction boundary presents nothing more, with p = 0 it goes on with its next instruction.
Whatever number the command map gives the command (R82). -/
def Obligations.SsEnableWritesSingleStepMode : Prop :=
  ∀ (p : Bool) (s : State),
    decodeWith s.binding.cmd (s.binding.cmd.code .ssEnable ++ BitVec.ofBool p) = .ssEnable p ∧
    exec (.ssEnable p) s = .next (s.setBank { s.bank with ssEn := p }) ∧
    exec (.ssEnable p) (s.setBank { s.bank with ssEn := p }) = .next (s.setBank { s.bank with ssEn := p }) ∧
    (s.target.owed = [] → s.bank.cpuRst = false →
      targetMove (s.setBank { s.bank with ssEn := true }) = s.setBank { s.bank with ssEn := true } ∧
      targetMove (s.setBank { s.bank with ssEn := false }) = beginInstr (s.setBank { s.bank with ssEn := false }))

/-- R109, R184. BP_ENABLE(p) writes BP_EN; p = 0 also empties the event store, and then no target cycle queues an
event; BP_ENABLE(1) leaves the event store as it is.
The flush is the spec's own decision D22. -/
def Obligations.BpEnableWritesComparatorEnable : Prop :=
  ∀ (p : Bool) (s : State),
    decodeWith s.binding.cmd (s.binding.cmd.code .bpEnable ++ BitVec.ofBool p) = .bpEnable p ∧
    exec (.bpEnable p) s =
      .next (s.setBank { s.bank with bpEn := p, evq := if p then s.bank.evq else [] }) ∧
    ∀ c, (present c (s.setBank { s.bank with bpEn := false, evq := [] })).bank.evq = []

/-- R110. LOAD_BP(b) shifts the bank right by one: b enters at bit 207, the old bit 0 is lost, and nothing else
of the state changes, whatever BP_EN is; 26 of them carrying a word, bit 0 first, leave it in bits 207:182.
The direction is the spec's own decision D12, the missing interlock D13. -/
def Obligations.LoadBpShiftsTheBank : Prop :=
  (∀ (b : Bool) (s : State),
    decodeWith s.binding.cmd (s.binding.cmd.code .loadBp ++ BitVec.ofBool b) = .loadBp b ∧
    ∃ v : BankWord, exec (.loadBp b) s = .next (s.setBank { s.bank with bpsr := v }) ∧
      v.getLsbD 207 = b ∧ ∀ i, i < 207 → v.getLsbD i = s.bank.bpsr.getLsbD (i + 1)) ∧
  ∀ (w : BpWord) (s : State), ∃ t,
    execAll ((List.range 26).map fun i => .loadBp (w.getLsbD i)) s = .next t ∧ t.bank.bpsr.extractLsb' 182 26 = w

/-- R154. Pushing a word (26 LOAD_BP commands, bit 0 first) into any bank puts it into slot 7 and moves every
older slot down by one, and changes nothing but the bank.
Derived by the spec from R110 (D12). -/
def Obligations.PushPutsTheWordIntoSlotSeven : Prop :=
  ∀ (w : BpWord) (s : State),
    ∃ v : BankWord,
      execAll ((List.range 26).map fun i => .loadBp (w.getLsbD i)) s = .next (s.setBank { s.bank with bpsr := v }) ∧
      slot v 7 = w ∧ ∀ k, k < 7 → slot v k = slot s.bank.bpsr (k + 1)

/-- R111, R45, R189. CPU_RESET(p) writes CPU_RST and nothing else in the block; the target drops the instruction
in progress when its reset begins or ends, and while CPU_RST = 1 it presents no cycle.
The spec's own decision D36; when the target drops its instruction is the model's reading of R189 (log entry 18). -/
def Obligations.CpuResetWritesTheResetLine : Prop :=
  ∀ (p : Bool) (s : State),
    decodeWith s.binding.cmd (s.binding.cmd.code .cpuReset ++ BitVec.ofBool p) = .cpuReset p ∧
    exec (.cpuReset p) s =
      .next ((s.setTarget { s.target with owed := if p || s.bank.cpuRst then [] else s.target.owed }).setBank
        { s.bank with cpuRst := p }) ∧
    (s.bank.cpuRst = true → targetMove s = s)

/-- R112, R180, R187. STEP in single-step mode and out of reset runs exactly one target instruction, FETCH first,
all its cycles processed by BANK in order, and leaves IA at its FETCH address; cycles still owed by an earlier
instruction come before it (the model's choice, log entry 12). In free run, or while the target is in reset, STEP
has no effect.
The spec's own decisions D24 and D25. -/
def Obligations.StepRunsOneInstruction : Prop :=
  ∀ (p : Bool) (s : State),
    decodeWith s.binding.cmd (s.binding.cmd.code .step ++ BitVec.ofBool p) = .step p ∧
    (s.bank.ssEn = true → s.bank.cpuRst = false →
      ∃ t, exec (.step p) s = .next t ∧ t.bank.ia = (nextInstr s).addr ∧ t.target.owed = [] ∧
        t = presentData (nextInstr s).data
              (present (fetchCycle (nextInstr s)) (takeInstr (presentData s.target.owed
                (s.setTarget { s.target with owed := [] }))))) ∧
    (s.bank.ssEn = false ∨ s.bank.cpuRst = true → exec (.step p) s = .next s)

/-- The frame of STEP (R112, R192). It leaves the ports, the engine, the store, the outputs, the schedule, the
mark REFUSED, INTR, RX_PENDING, and the bank's STROBE_SEEN, BP_EN, CPU_RST and BPSR as they are; SS_EN stays as
it is, pending events stay at the head of the queue and OVERFLOW is not cleared; with BP_EN = 0 the queue and
OVERFLOW do not change at all. It may change IA, T0 and T1 (the levels at the instruction's cycles), the target's
own state and the draw counter.
The spec's own decisions D24 and D25, and log entries 12 and 17. -/
def Obligations.StepFrame : Prop :=
  ∀ (p : Bool) (s : State), ∃ t, exec (.step p) s = .next t ∧
    t.port = s.port ∧ t.engine = s.engine ∧ t.store = s.store ∧ t.out = s.out ∧ t.schedule = s.schedule ∧
    t.marks.refused = s.marks.refused ∧ t.env.intr = s.env.intr ∧ t.env.rxPending = s.env.rxPending ∧
    t.bank.strobeSeen = s.bank.strobeSeen ∧ t.bank.ssEn = s.bank.ssEn ∧ t.bank.bpEn = s.bank.bpEn ∧
    t.bank.cpuRst = s.bank.cpuRst ∧ t.bank.bpsr = s.bank.bpsr ∧
    (∃ l, t.bank.evq = s.bank.evq ++ l) ∧ (s.marks.overflow = true → t.marks.overflow = true) ∧
    (s.bank.bpEn = false → t.bank.evq = s.bank.evq ∧ t.marks.overflow = s.marks.overflow)

/-- R113. WATCH_ACK removes the head event, watch or breakpoint, and changes nothing else; on an empty store it
does nothing.
The spec's own decision D20. -/
def Obligations.WatchAckRemovesTheHeadEvent : Prop :=
  ∀ (p : Bool) (s : State),
    decodeWith s.binding.cmd (s.binding.cmd.code .watchAck ++ BitVec.ofBool p) = .watchAck p ∧
    (∀ e rest, s.bank.evq = e :: rest →
      exec (.watchAck p) s = .next (s.setBank { s.bank with evq := rest }) ∧
      (s.setBank { s.bank with evq := rest }).bank.active = !rest.isEmpty) ∧
    (s.bank.evq = [] → exec (.watchAck p) s = .next s)

/-- R114. FIFO_RESET empties the event store, so ACTIVE is 0, and changes nothing else; the mark OVERFLOW stays.
The spec's own decision D21. -/
def Obligations.FifoResetEmptiesTheEventStore : Prop :=
  ∀ (p : Bool) (s : State),
    decodeWith s.binding.cmd (s.binding.cmd.code .fifoReset ++ BitVec.ofBool p) = .fifoReset p ∧
    ∃ t, exec (.fifoReset p) s = .next t ∧ t = s.setBank { s.bank with evq := [] } ∧ t.bank.active = false ∧
      t.marks.overflow = s.marks.overflow

/-- R116. BANK executes STEP, WATCH_ACK and FIFO_RESET whatever the parameter bit is, under any command map; under the
default one the words 0x09, 0x0B, 0x0D act as 0x08, 0x0A, 0x0C.
The spec's own decision D4; the numbers are D2 (log entry 5). -/
def Obligations.ParameterBitIsIgnored : Prop :=
  (∀ (m : CmdMap) (n : CmdName) (s : State), n ∈ [.step, .watchAck, .fifoReset] →
    exec (decodeWith m (m.code n ++ 1#1)) s = exec (decodeWith m (m.code n ++ 0#1)) s) ∧
  ∀ s : State,
    exec (decodeBits 0x09#5) s = exec (decodeBits 0x08#5) s ∧
    exec (decodeBits 0x0B#5) s = exec (decodeBits 0x0A#5) s ∧
    exec (decodeBits 0x0D#5) s = exec (decodeBits 0x0C#5) s ∧
    decodeBits 0x08#5 = .step false ∧ decodeBits 0x0A#5 = .watchAck false ∧ decodeBits 0x0C#5 = .fifoReset false

/-- R117. Executing LOAD_MEM, RD_MEM or WR_MEM sets REFUSED.
The spec's own decision D6; that the machine goes on is log entry 8. -/
def Obligations.MemoryCommandsSetRefused : Prop :=
  ∀ (p : Bool) (s : State),
    (∃ t, exec (.loadMem p) s = .next t ∧ t.marks.refused = true) ∧
    (∃ t, exec (.rdMem p) s = .next t ∧ t.marks.refused = true) ∧
    (∃ t, exec (.wrMem p) s = .next t ∧ t.marks.refused = true) ∧
    decodeWith s.binding.cmd (s.binding.cmd.code .loadMem ++ BitVec.ofBool p) = .loadMem p ∧
    decodeWith s.binding.cmd (s.binding.cmd.code .rdMem ++ BitVec.ofBool p) = .rdMem p ∧
    decodeWith s.binding.cmd (s.binding.cmd.code .wrMem ++ BitVec.ofBool p) = .wrMem p

/-- R115. Under any command map, executing a word whose operation number names no command sets REFUSED; under the
default map these are 0xA to 0xF, 0xA and 0xB the one reserved row, 0xC to 0xF the other (R103).
The spec's own decision D5, the numbers D2 (log entry 5); that the machine goes on is log entry 8. -/
def Obligations.ReservedWordsSetRefused : Prop :=
  ∀ (op : BitVec 4) (p : Bool) (s : State),
    (∃ t, exec (.reservedAB op p) s = .next t ∧ t.marks.refused = true) ∧
    (∃ t, exec (.reservedCF op p) s = .next t ∧ t.marks.refused = true) ∧
    (∀ m : CmdMap, m.codes.contains op = false →
      ∃ t, exec (decodeWith m (op ++ BitVec.ofBool p)) s = .next t ∧ t.marks.refused = true) ∧
    (op = 0xA ∨ op = 0xB → decodeBits (op ++ BitVec.ofBool p) = .reservedAB op p) ∧
    (0xC ≤ op.toNat → decodeBits (op ++ BitVec.ofBool p) = .reservedCF op p)

/-! ## The command port and the encoding -/

/-- R107. When a command is pending on the port, a step is BANK's execution of the word CMD holds, with STROBE_SEEN
at STROBE; exactly one execution for the edge, so none is pending after it.
The toggle is the spec's own decision D3. -/
def Obligations.PendingStrobeRunsTheDecodedWord : Prop :=
  ∀ (s : State) (i : Instr), s.port.strobe ≠ s.bank.strobeSeen → decodeWith s.binding.cmd s.port.cmd = i →
    step s = exec i (s.setBank { s.bank with strobeSeen := s.port.strobe }) ∧
    ∃ t, step s = .next t ∧ strobePending t = false

/-- R106, R57. `writeCommand` leaves `code | param` on CMD, toggles STROBE once, and BANK executes the word at once:
afterwards none is pending.
The fused form of write and execution is the one D3 allows (log entry 16). -/
def Obligations.WriteCommandRunsTheWordOnce : Prop :=
  ∀ (code : Cmd5) (param : Bool) (s : State),
    ∃ t, writeCommand code param s = .next t ∧
      t.port.cmd = code ||| (BitVec.ofBool param).setWidth 5 ∧ t.port.strobe = !s.port.strobe ∧
      t.port.muxsel = s.port.muxsel ∧ strobePending t = false ∧
      exec (decodeWith s.binding.cmd (code ||| (BitVec.ofBool param).setWidth 5))
        ((s.setPort { s.port with cmd := code ||| (BitVec.ofBool param).setWidth 5, strobe := !s.port.strobe }).setBank
          { s.bank with strobeSeen := !s.port.strobe }) = .next t

/-- R85, R113, R114, R115, R116, R117. What the engine writes: a row leaves the command port alone, or writes one word of
a core command with one strobe, the parameter 0 where the command takes none; never a reserved or an extension word;
WATCH_ACK in the row H_ACK only, and FIFO_RESET in the start-up sequence only.
The spec's own decisions D4, D5, D6, D20, D21. -/
def Obligations.EngineWritesOnlyCoreCommands : Prop :=
  ∀ s t : State, engineRow s = .next t →
    (t.port.cmd = s.port.cmd ∧ t.port.strobe = s.port.strobe) ∨
    (t.port.strobe = !s.port.strobe ∧
      ∃ (n : CmdName) (p : Bool), t.port.cmd = s.binding.cmd.code n ++ BitVec.ofBool p ∧
        n ∈ [.ssEnable, .bpEnable, .loadBp, .cpuReset, .step, .watchAck, .fifoReset] ∧
        (n ∈ [.step, .watchAck, .fifoReset] → p = false) ∧
        (n = .watchAck → s.engine.phase = .hAck) ∧ (n = .fifoReset → s.engine.phase = .uFifo))

/-- R118, R271. No command fails, and no step of the machine stops: there is always a next state.
That a refused word leaves the machine running is log entry 8. -/
def Obligations.EveryStepHasANextState : Prop :=
  (∀ (i : Instr) (s : State), ∃ t, exec i s = .next t) ∧ ∀ s : State, ∃ t, step s = .next t

/-- R82, R103. Sanity of the decoder: under the default map, one word of each of the twelve rows decodes as the table
says; and a byte with a bit above the five set (0x20) is no command word.
The numbers are the spec's default map, D2 (log entry 5); the clause on 0x20 is the model's own choice, one word per
byte (log entry 24). -/
def Obligations.CommandMapWordsDecode : Prop :=
  decodeTableWord 8 0x00 = some (.ssEnable false) ∧ decodeTableWord 8 0x03 = some (.bpEnable true) ∧
  decodeTableWord 8 0x05 = some (.loadBp true) ∧ decodeTableWord 8 0x07 = some (.cpuReset true) ∧
  decodeTableWord 8 0x08 = some (.step false) ∧ decodeTableWord 8 0x0A = some (.watchAck false) ∧
  decodeTableWord 8 0x0C = some (.fifoReset false) ∧ decodeTableWord 8 0x0E = some (.loadMem false) ∧
  decodeTableWord 8 0x11 = some (.rdMem true) ∧ decodeTableWord 8 0x12 = some (.wrMem false) ∧
  decodeTableWord 8 0x17 = some (.reservedAB 0xB true) ∧ decodeTableWord 8 0x18 = some (.reservedCF 0xC false) ∧
  decodeTableWord 8 0x20 = none

/-- R81, R82, R103. Under any command map and in any command stream, decoding the byte of a well-formed instruction
gives that instruction, with every operand at every value, and the rest of the stream.
The layout is D1; one word per byte is the model's choice (log entry 24). -/
def Obligations.DecodeOfEncodeIsTheInstruction : Prop :=
  ∀ (m : CmdMap) (i : Instr) (rest : List Byte), i.wf m = true → decode m (encodeByte m i :: rest) = .ok (i, rest)

/-- R82, R103, R100. Under any command map the instructions partition the 32 words: each word decodes to one well-formed
instruction, whose word it is; a byte with a bit above the five set is no command word.
The layout is D1; one word per byte is the model's choice (log entry 24). -/
def Obligations.EveryWordIsOneInstruction : Prop :=
  (∀ (m : CmdMap) (w : Cmd5), (decodeWith m w).wf m = true ∧ encode m (decodeWith m w) = w) ∧
  ∀ (m : CmdMap) (b : Byte) (rest : List Byte), 32 ≤ b.toNat → decode m (b :: rest) = .error (.notACommandWord b)

/-! ## The breakpoint word, the trigger table, the compressed mode -/

/-- R151, R152, R160. `serialize` places trigger, mode and address at bits 25:22, 21:16 and 15:0; unpacking gives
back the entry, serializing gives back the word, and over-wide fields are masked.
The masking is the spec's own decision D41. -/
def Obligations.SerializeIsLossless : Prop :=
  (∀ e : Entry, serialize e = e.trigger ++ e.mode ++ e.address ∧ unpack (serialize e) = e) ∧
  (∀ w : BpWord, serialize (unpack w) = w) ∧
  ∀ address mode trigger : Nat,
    serializeNat address mode trigger = serializeNat (address % 2 ^ 16) (mode % 2 ^ 6) (trigger % 2 ^ 4)

/-- R172. The closed form of the trigger table: bit `2*t1 + t0` of the code.
Derived by the spec from the table of R171. -/
def Obligations.TriggerTableClosedForm : Prop :=
  ∀ (code : Trig4) (t0 t1 : Bool), evaluate code t0 t1 = code.getLsbD (2 * t1.toNat + t0.toNat)

/-- R204. `hitDecode` is total: bit 3 is the watch flag, the low three bits are the kind, the mode is the kind, three
places up for a watch, and bits 7:4 are ignored.
That it is total is the spec's own decision D42. -/
def Obligations.HitDecodeReadsTheLowNibble : Prop :=
  ∀ (high : BitVec 4) (watch : Bool) (kind : BitVec 3),
    hitDecode (high ++ (BitVec.ofBool watch ++ kind)) =
      { watch := watch, kind := kind, mode6 := if watch then kind ++ 0#3 else 0#3 ++ kind }

/-- R178, R92. Compressing a folded hit of one access kind and expanding it again gives the breakpoint bit of the
kind if the hit had it, else its watch bit: the breakpoint wins.
The spec's own decision D17; the bit order in a mode is D11. -/
def Obligations.BreakpointWinsOverWatch : Prop :=
  ∀ (k : AccessKind) (m : Mode6), m &&& kindMask k ≠ 0 →
    expandCmode (compress (m &&& kindMask k)) = if m &&& breakpointBit k ≠ 0 then breakpointBit k else watchBit k

/-! ## The comparators and the event store -/

/-- R176, R191. A slot asserts on a cycle exactly when its address equals the cycle's, its mode has a bit of the
cycle's kind, and its trigger function holds of the cycle's T0 and T1. A slot with mode 0, a slot with trigger 0, and
so the zero slot, never assert.
The spec's own decisions D14 and D16. -/
def Obligations.SlotAssertsExactlyOnAMatch : Prop :=
  (∀ (e : Entry) (c : BusCycle),
    slotAsserts (serialize e) c = true ↔
      e.address = c.addr ∧ e.mode &&& kindMask c.kind ≠ 0 ∧ evaluate e.trigger c.t0 c.t1 = true) ∧
  ∀ (w : BpWord) (c : BusCycle), w.extractLsb' 16 6 = 0 ∨ w.extractLsb' 22 4 = 0 ∨ w = 0 → slotAsserts w c = false

/-- R177. The fold of a cycle has exactly the bits that some slot contributes, all of them bits of the cycle's kind.
The spec's own decision D17. -/
def Obligations.FoldIsTheOrOfTheSlots : Prop :=
  ∀ (bpsr : BankWord) (c : BusCycle),
    (∀ i, (hit6 bpsr c).getLsbD i = true ↔ ∃ k, k < 8 ∧ (slotHit (slot bpsr k) c).getLsbD i = true) ∧
    hit6 bpsr c &&& ~~~(kindMask c.kind) = 0

/-- R180, R184. A FETCH copies its address into IA whatever BP_EN and SS_EN are, READ and WRITE leave IA alone, and
with BP_EN = 0 that is all a cycle does, whatever the bank holds.
The spec's own decision D26. -/
def Obligations.FetchTracksTheInstructionAddress : Prop :=
  ∀ (kind : AccessKind) (addr : Addr) (s : State),
    (bankCycle kind addr s).bank.ia = (if kind = .fetch then addr else s.bank.ia) ∧
    (s.bank.bpEn = false →
      bankCycle kind addr s = s.setBank { s.bank with ia := if kind = .fetch then addr else s.bank.ia })

/-- R179, R181, R182, for every queue depth and both values of AUTO_HALT. A cycle on which some slot asserts while
BP_EN = 1 gives one event, with IA after the cycle's own update, the cycle's address and the compressed mode. If the
queue has room the event is appended and ACTIVE is 1; if not it is lost and OVERFLOW is set. A breakpoint sets SS_EN
when AUTO_HALT, room or not; a watch never touches SS_EN.
The spec's own decisions D18, D19, D23 and D26. -/
def Obligations.HitIsCapturedOnce : Prop :=
  ∀ (depth : Nat) (halt : Bool) (kind : AccessKind) (addr : Addr) (s : State),
    s.bank.bpEn = true → hit6 s.bank.bpsr { kind := kind, addr := addr, t0 := s.env.t0, t1 := s.env.t1 } ≠ 0 →
    ∃ (t : State) (e : Event), bankCycleWith depth halt kind addr s = t ∧
      e.hitIa = t.bank.ia ∧ e.hitTa = addr ∧
      e.cmode = compress (hit6 s.bank.bpsr { kind := kind, addr := addr, t0 := s.env.t0, t1 := s.env.t1 }) ∧
      (s.bank.evq.length < depth →
        t.bank.evq = s.bank.evq ++ [e] ∧ t.bank.active = true ∧ t.marks.overflow = s.marks.overflow) ∧
      (depth ≤ s.bank.evq.length → t.bank.evq = s.bank.evq ∧ t.marks.overflow = true) ∧
      t.bank.ssEn = (s.bank.ssEn || (halt && !e.cmode.getLsbD 3))

/-- The frame of a bus cycle (R192): it changes at most IA, EVQ, SS_EN and OVERFLOW; a cycle that hits no slot
changes at most IA.
The spec's own decisions D18, D19, D23 and D26. -/
def Obligations.BankCycleFrame : Prop :=
  ∀ (kind : AccessKind) (addr : Addr) (s : State),
    (∃ (ia : Addr) (evq : List Event) (ssEn overflow : Bool),
      bankCycle kind addr s =
        (s.setBank { s.bank with ia := ia, evq := evq, ssEn := ssEn }).setMarks { s.marks with overflow := overflow }) ∧
    (hit6 s.bank.bpsr { kind := kind, addr := addr, t0 := s.env.t0, t1 := s.env.t1 } = 0 →
      ∃ ia : Addr, bankCycle kind addr s = s.setBank { s.bank with ia := ia })

/-- R35, R28, R34, R218, R6. No step clears OVERFLOW or REFUSED; INTR changes only by ENV's own move, to the level ENV
drives; RX_PENDING changes only by ENV's own move or in the row X_SS, where a pending byte is consumed; and no step
writes the binding, the numeric parameters of the ports.
The marks are the spec's own (D5, D6, D10, D19); that consuming a byte clears RX_PENDING is log entry 25; that the
parameters stand in State is the model's choice (log entries 5 to 7). -/
def Obligations.StepsKeepMarksInputsAndBinding : Prop :=
  ∀ s t : State, step s = .next t →
    (s.marks.overflow = true → t.marks.overflow = true) ∧ (s.marks.refused = true → t.marks.refused = true) ∧
    (t.env.intr ≠ s.env.intr → ∃ level, nextMove s = .env (.intr level) ∧ t.env.intr = level) ∧
    (t.env.rxPending ≠ s.env.rxPending →
      (∃ level, nextMove s = .env (.rxPending level) ∧ t.env.rxPending = level) ∨
      (nextMove s = .engine ∧ s.engine.phase = .xSs ∧ s.env.rxPending = true ∧ t.env.rxPending = false)) ∧
    t.binding = s.binding

/-! ## The target -/

/-- R185, R186, R189, R192. TARGET presents nothing while its reset is asserted, nor in single-step mode once its
instruction is complete. Out of reset, in free run or halted, an instruction in progress presents its next owed cycle;
in free run at an instruction boundary the next instruction begins: BANK processes its FETCH, which puts its address into
IA, and its data cycles are owed.
The spec's own decisions D24, D36 and D47; who moves next is log entry 9. -/
def Obligations.TargetMovesOnlyWhenPermitted : Prop :=
  ∀ s : State,
    (s.bank.cpuRst = true → targetMove s = s) ∧
    (s.bank.ssEn = true → s.target.owed = [] → targetMove s = s) ∧
    (∀ d rest, s.bank.cpuRst = false → s.target.owed = d :: rest →
      targetMove s = present (dataCycle d) (s.setTarget { s.target with owed := rest })) ∧
    (s.bank.cpuRst = false → s.bank.ssEn = false → s.target.owed = [] →
      targetMove s = present (fetchCycle (nextInstr s))
        ((takeInstr s).setTarget { (takeInstr s).target with owed := (nextInstr s).data }) ∧
      (targetMove s).bank.ia = (nextInstr s).addr ∧ (targetMove s).target.owed = (nextInstr s).data)

/-- R188. A target halted inside an instruction presents its next owed cycle before a bus master's next operation;
the master's move waits.
The spec's own premise HALT_COMPLETES, D25; that the waiting move is kept is log entry 9. -/
def Obligations.HaltedTargetFinishesFirst : Prop :=
  ∀ (s : State) (d : DataCycle) (rest : List DataCycle),
    strobePending s = false → (nextMove s).isMaster = true → s.bank.ssEn = true → s.bank.cpuRst = false →
    s.target.owed = d :: rest →
    ∃ t, step s = .next t ∧ t = present (dataCycle d) (s.setTarget { s.target with owed := rest }) ∧
      t.schedule = s.schedule ∧ t.engine = s.engine

/-! ## Reads -/

/-- R136. A status read returns INTR and whether an event is pending, from one instant, whatever the other bits of
the byte are; it writes ST_SAMPLE (and takes a free byte) and nothing else.
The free byte is the model's own field `draws` (log entry 3). -/
def Obligations.StatusReadSamplesBothFlags : Prop :=
  ∀ s : State, ∃ n, readStatus s =
    (s.setEngine { s.engine with stIntr := s.env.intr, stAct := !s.bank.evq.isEmpty }).setDraws n

/-- R131, R137, R138, R93, R95. What `read8` presents, whatever selector values the binding gives the registers: the
bytes of IA; with an event pending, the bytes of the head event's addresses and, in the low nibble of HIT_MODE, its
compressed mode. A high byte sits one above its low byte. -/
def Obligations.ReadValuesOfTheRegisterFile : Prop :=
  ∀ s : State,
    readValue (offset .iaLo s) s = s.bank.ia.extractLsb' 0 8 ∧
    readValue (offset .iaLo s + 1) s = s.bank.ia.extractLsb' 8 8 ∧
    ∀ e rest, s.bank.evq = e :: rest →
      readValue (offset .hitIaLo s) s = e.hitIa.extractLsb' 0 8 ∧
      readValue (offset .hitIaLo s + 1) s = e.hitIa.extractLsb' 8 8 ∧
      readValue (offset .hitTaLo s) s = e.hitTa.extractLsb' 0 8 ∧
      readValue (offset .hitTaLo s + 1) s = e.hitTa.extractLsb' 8 8 ∧
      (readValue (offset .hitMode s) s).extractLsb' 0 4 = e.cmode

/-- R59, R66, R131, R140. A bus owner's `read8`, none of its operations in progress, returns the selected register; its
one effect on the block is that MUXSEL is the selector (and a free byte is taken).
The free byte is the model's own field `draws` (log entry 3), `halfRead` its own field for a `read16` in progress (log
entry 20). -/
def Obligations.Read8ChangesOnlyTheSelector : Prop :=
  ∀ (id : Nat) (sel : Sel4) (s : State), s.engine.busOwner = some (.other id) → s.engine.halfRead = none →
    ∃ n, masterMove id (.read8 sel) s =
      .next (((s.setPort { s.port with muxsel := sel }).setDraws n).setOut
        { s.out with results := s.out.results ++ [.byte (readValue sel s)] })

/-- R52, R133, R140. A bus owner's `read16(off)`, nothing coming between its two sub-reads, returns the byte at
`off + 1` above the byte at `off`; R_LO holds the low byte and MUXSEL is left at `off + 1`. So it returns the whole
register, wherever the binding has it: IA at IA_LO, and with an event pending its instruction address at HIT_IA_LO and
its target address at HIT_TA_LO.
The field `halfRead`, a `read16` in progress, is the model's own (log entry 20). -/
def Obligations.Read16ReturnsTheWholeRegister : Prop :=
  ∀ (id : Nat) (s : State) (sel : Sel4), s.engine.busOwner = some (.other id) → s.engine.halfRead = none → sel ≠ 15 →
    ∃ u t, masterMove id (.read16 sel) s = .next u ∧ masterMove id .read16High u = .next t ∧
      t.out.results = s.out.results ++ [.word (readValue (sel + 1) u ++ readValue sel s)] ∧
      t.engine.rLo = readValue sel s ∧ t.port.muxsel = sel + 1 ∧ t.bank = s.bank ∧
      (sel = offset .iaLo s → readValue (sel + 1) u ++ readValue sel s = s.bank.ia) ∧
      ∀ e rest, s.bank.evq = e :: rest →
        (sel = offset .hitIaLo s → readValue (sel + 1) u ++ readValue sel s = e.hitIa) ∧
        (sel = offset .hitTaLo s → readValue (sel + 1) u ++ readValue sel s = e.hitTa)

/-- R58, R135. A `read16` of IA is not atomic: a FETCH between its sub-reads pairs the old low byte with the new
high byte.
Derived by the spec from R58; the field `halfRead` is the model's own (log entry 20). -/
def Obligations.Read16OfIaCanTear : Prop :=
  ∀ (id : Nat) (s : State) (a : Addr) (t0 t1 : Bool), s.engine.busOwner = some (.other id) →
    s.engine.halfRead = none →
    ∃ u t, masterMove id (.read16 (offset .iaLo s)) s = .next u ∧
      masterMove id .read16High (present { kind := .fetch, addr := a, t0 := t0, t1 := t1 } u) = .next t ∧
      t.out.results = s.out.results ++ [.word (a.extractLsb' 8 8 ++ s.bank.ia.extractLsb' 0 8)]

/-- R24, R42. No bus operation reads a bit of the bank: two states that differ only in BPSR give the same byte at
every selector and the same status byte.
Derived by the spec from R24. -/
def Obligations.BankIsNeverReadable : Prop :=
  ∀ (s : State) (v : BankWord) (sel : Sel4),
    readValue sel (s.setBank { s.bank with bpsr := v }) = readValue sel s ∧
    statusByte s.fresh (s.setBank { s.bank with bpsr := v }) = statusByte s.fresh s

/-! ## The arbiter -/

/-- R65, R66, R67, R105, R106. A requester acquires the bus only when nobody owns it, and a requester that does not own
it does nothing to the block: only the answer that it is not granted is returned. The owner's release gives the bus up
and changes nothing else, its command is one `writeCommand` word, its status read returns both flags; and while its
`read16` is in progress it can do nothing but finish it.
The answer to a request that is not granted is the model's choice (D37, log entry 14), `halfRead` its field for a
`read16` in progress (log entry 20). -/
def Obligations.OnlyTheOwnerUsesTheBus : Prop :=
  ∀ (id : Nat) (op : MasterOp) (s : State),
    (s.engine.busOwner = none →
      masterMove id .acquire s = .next (s.setEngine { s.engine with busOwner := some (.other id) })) ∧
    (s.engine.busOwner ≠ some (.other id) → op ≠ .acquire ∨ s.engine.busOwner ≠ none →
      masterMove id op s = .next (s.setOut { s.out with results := s.out.results ++ [.notGranted] })) ∧
    (s.engine.busOwner = some (.other id) → s.engine.halfRead = none →
      masterMove id .release s = .next (s.setEngine { s.engine with busOwner := none }) ∧
      (∀ w, masterMove id (.command w) s = writeWord w s ∧
        ∃ t, masterMove id (.command w) s = .next t ∧ t.port.cmd = w ∧ t.port.strobe = !s.port.strobe) ∧
      ∃ t, masterMove id .status s = .next t ∧ t.bank = s.bank ∧ t.port = s.port ∧
        t.out.results = s.out.results ++ [.status s.env.intr (!s.bank.evq.isEmpty)]) ∧
    ∀ sel, s.engine.busOwner = some (.other id) → s.engine.halfRead = some sel → op ≠ .read16High →
      masterMove id op s = .next (s.setOut { s.out with results := s.out.results ++ [.notGranted] })

/-! ## The engine's operations -/

/-- R208, R222, R270, R304. Outside `Stepping`, `step`, `continueExecution` and `reset` fail with NotStepping: the
failure is returned and reported, and nothing else changes.
For `continueExecution` the spec's own decision D32, for `reset` D35. -/
def Obligations.CallsOutsideSteppingFail : Prop :=
  ∀ (s : State) (count traceEvery : Nat) (op : DriverOp), s.engine.ecState ≠ .stepping →
    op ∈ [.step count traceEvery, .continueExecution, .reset] →
    driverMove op s = s.setOut
      { reports := s.out.reports ++ [.message .notStepping], results := s.out.results ++ [.named .notStepping] }

/-- R207. `step(count, traceEvery)` reports after step i exactly when it is the last one or, with `traceEvery > 0`, a
`traceEvery`-th one: 1 report for `traceEvery = 0`, else `count / traceEvery`, and one more if the division leaves a
remainder.
One report where both reasons hold is the spec's own decision D31. -/
def Obligations.StepReportCount : Prop :=
  ∀ count traceEvery : Nat, 1 ≤ count →
    (∀ i, reportAfter count traceEvery i = true ↔ i = count ∨ (0 < traceEvery ∧ i % traceEvery = 0)) ∧
    ((List.range count).filter fun i => reportAfter count traceEvery (i + 1)).length =
      if traceEvery = 0 then 1 else count / traceEvery + (if count % traceEvery = 0 then 0 else 1)

/-- R206, R207, R223. `step(count, traceEvery)` called in `Stepping` on a free bus, in single-step mode and out of
reset, with no other agent moving: the target runs the next `count` instructions the environment has chosen, one CMD
STEP each, and after each step that is due a report the address of its instruction is read and reported; then the bus
is released. EC_STATE, BPSR and the store stay.
The spec's own decisions D24, D25 and D31. -/
def Obligations.StepRunsAndReports : Prop :=
  ∀ (s : State) (count traceEvery : Nat), BusReady s → s.schedule = [.driver (.step count traceEvery)] →
    acceptsCall s = true → s.engine.busOwner = none → s.bank.ssEn = true → s.bank.cpuRst = false →
    1 ≤ count → count ≤ s.target.script.length →
    ∃ t, runSteps (1 + count + 2 * ((List.range count).filter fun i => reportAfter count traceEvery (i + 1)).length) s
        = .next t ∧
      t.out.reports = s.out.reports ++
        ((List.range count).filter fun i => reportAfter count traceEvery (i + 1)).map
          (fun i => .traceAddr (s.target.script.getD i default).addr) ∧
      t.target.script = s.target.script.drop count ∧ t.engine.stepIdx = count ∧ t.engine.phase = .idle ∧
      t.engine.busOwner = none ∧ t.engine.ecState = .stepping ∧ t.bank.bpsr = s.bank.bpsr ∧ t.store = s.store

/-- R209. `continueExecution` called in `Stepping` on a free bus begins with one STEP, with the comparators still
off: one instruction runs, no event is produced, nothing is reported, and the arming protocol comes next.
The spec's own decisions D24 and D25. -/
def Obligations.ContinueBeginsWithOneStep : Prop :=
  ∀ s : State, BusReady s → s.schedule = [.driver .continueExecution] → acceptsCall s = true →
    s.engine.busOwner = none → s.bank.ssEn = true → s.bank.cpuRst = false → s.bank.bpEn = false →
    s.store.length ≤ 8 →
    ∃ t, runSteps 2 s = .next t ∧ t.bank.ia = (nextInstr s).addr ∧ t.bank.evq = s.bank.evq ∧ t.out = s.out ∧
      t.engine.phase = .aDisable ∧ t.engine.busOwner = some .engine ∧ t.engine.ecState = .stepping

/-- R134, R158, R208, R248, R269. Operands outside their range begin nothing. `step` with count 0, `continueExecution`
with more than 8 entries in the store, `setBreakpoint` with no mode bit, and a bus owner's `read16(15)` set REFUSED;
`setBreakpoint` with some mode bit and a trigger above 15 fails with InvalidTrigger, reported, the store unchanged.
The spec's own decisions D10, D39 and D44; that the machine goes on is log entry 8, which failure wins where two apply is
log entry 13, `halfRead` is the model's field (log entry 20). -/
def Obligations.OperandsOutsideTheirRangeBeginNothing : Prop :=
  ∀ s : State,
    (acceptsCall s = true → ∀ traceEvery, (driverMove (.step 0 traceEvery) s).marks.refused = true ∧
      (driverMove (.step 0 traceEvery) s).engine = s.engine) ∧
    (acceptsCall s = true → 8 < s.store.length → (driverMove .continueExecution s).marks.refused = true ∧
      (driverMove .continueExecution s).engine = s.engine) ∧
    (acceptsCall s = true → ∀ a trigger, (driverMove (.setBreakpoint a 0 trigger) s).marks.refused = true ∧
      (driverMove (.setBreakpoint a 0 trigger) s).store = s.store) ∧
    (acceptsCall s = true → ∀ a m trigger, m ≠ 0 → 15 < trigger →
      driverMove (.setBreakpoint a m (some trigger)) s = s.setOut
        { reports := s.out.reports ++ [.message .invalidTrigger]
          results := s.out.results ++ [.named .invalidTrigger] }) ∧
    ∀ id, s.engine.busOwner = some (.other id) → s.engine.halfRead = none →
      ∃ t, masterMove id (.read16 15) s = .next t ∧ t.marks.refused = true

/-- R156, R157. The arming protocol. Whatever the bank held before it, and whatever the other agents do meanwhile, every
step keeps `Arming` (from A_BIT on, the bits sent so far stand at the top of the bank), and a step that brings the
engine to C_RELEASE leaves slot k holding the serialized k-th entry, 0 in the slots above, BP_EN = 1 and EVQ empty. With
no other agent moving, C_RELEASE is exactly 210 engine rows from A_DISABLE.
The order of the slots is the spec's own decision D12, the flush D22. -/
def Obligations.ArmMirrorsTheStore : Prop :=
  (∀ s t : State, Inv s → Arming s → step s = .next t →
    Arming t ∧
    (s.engine.phase ≠ .cRelease → t.engine.phase = .cRelease →
      t.bank.bpEn = true ∧ t.bank.evq = [] ∧ t.store = s.store ∧ ∀ k, k < 8 →
        slot t.bank.bpsr k = (match s.store[k]? with | some e => serialize e | none => 0))) ∧
  ∀ s : State, Quiet s → s.engine.phase = .aDisable → s.store.length ≤ 8 →
    (∃ t, runSteps 210 s = .next t ∧ t.engine.phase = .cRelease) ∧
    ∀ n, n < 210 → ∃ u, runSteps n s = .next u ∧ u.engine.phase ≠ .cRelease

/-- R211, R106, R107, R223. C_RELEASE writes SS_ENABLE(0): free run begins, EC_STATE is `Armed`, and the poll loop's
P_WAIT comes next; STROBE toggles once and BANK has executed the word in the same step.
The toggle is the spec's own decision D3, the fused step is the form it allows (log entry 16). -/
def Obligations.ReleaseEntersArmed : Prop :=
  ∀ s : State, EngineTurn s → s.engine.phase = .cRelease →
    ∃ t, step s = .next t ∧ t.bank = { s.bank with ssEn := false, strobeSeen := !s.port.strobe } ∧
      t.engine.ecState = .armed ∧ t.engine.phase = .pWait ∧
      t.port.cmd = commandWord (codeOf s.binding.cmd .ssEnable) false ∧ t.port.strobe = !s.port.strobe

/-- R212, R217, R223. The status row of a poll iteration: both flags sampled once; an event pending is handled first;
else INTR or pending input leaves the loop; else it goes on. No report is made, and bank and ports stay.
The order of the tests is the spec's own decision D30. -/
def Obligations.PollSamplesAndDecides : Prop :=
  ∀ s : State, EngineTurn s → s.engine.phase = .pStatus →
    ∃ t, step s = .next t ∧ t.engine.stIntr = s.env.intr ∧ t.engine.stAct = !s.bank.evq.isEmpty ∧
      t.engine.phase = (if s.bank.evq ≠ [] then .hIaLo else if s.env.intr || s.env.rxPending then .xSs else .pWait) ∧
      t.out = s.out ∧ t.bank = s.bank ∧ t.port = s.port

/-- R213, R214, R216. The hit read-back: five sub-reads latch the head event's addresses and its
compressed mode, one report is made, with the target address only for read and write kinds, and a watch goes on to
the acknowledge while a breakpoint leaves the loop, its event still pending.
The order of the reads is the spec's own decision D29. -/
def Obligations.HitReadBackReportsTheHead : Prop :=
  ∀ (s : State) (e : Event) (rest : List Event), Quiet s → s.engine.phase = .hIaLo → s.bank.evq = e :: rest →
    ∃ t, runSteps 5 s = .next t ∧ t.engine.rIa = e.hitIa ∧ t.engine.rTa = e.hitTa ∧
      t.engine.rMode.extractLsb' 0 4 = e.cmode ∧
      t.out.reports = s.out.reports ++ [.hitReport (expandCmode e.cmode) e.hitIa
        (if expandCmode e.cmode &&& 0b110110#6 = 0 then none else some e.hitTa)] ∧
      t.engine.phase = (if e.cmode.getLsbD 3 then .hAck else .xSs) ∧ t.bank = s.bank ∧ t.port.muxsel = offset .hitMode s ∧
      t.port.strobe = s.port.strobe

/-- R215, R224. A watch is acknowledged: WATCH_ACK removes the event just read, SS_EN and BP_EN stay, EC_STATE stays
`Armed`, and the loop goes on, unless the iteration's sample had INTR or input is pending.
The spec's own decisions D20 and D30. -/
def Obligations.WatchIsAcknowledgedAndPollingGoesOn : Prop :=
  ∀ s : State, EngineTurn s → s.engine.phase = .hAck → s.engine.ecState = .armed →
    ∃ t, step s = .next t ∧ t.bank = { s.bank with evq := s.bank.evq.tail, strobeSeen := !s.port.strobe } ∧
      t.engine.ecState = .armed ∧
      t.engine.phase = (if s.engine.stIntr || s.env.rxPending then .xSs else .pWait) ∧ t.out = s.out

/-- R218, R219, R220. The shutdown path, from X_SS, once the halted target has finished its instruction: single-step
mode on, comparators off, no event pending, one pending input byte consumed, the current instruction address
reported, the bank's slots kept, EC_STATE `Stepping`, the bus released.
The spec's own decisions D22, D25 and D49. That RX_PENDING is 0 after the byte is consumed (R274), and stays so while no
other agent moves, is the model's choice of one pending bit (log entry 25). -/
def Obligations.ShutdownMakesTheHardwareSafe : Prop :=
  ∀ s : State, Quiet s → s.engine.phase = .xSs →
    (∃ u, step s = .next u ∧ u.engine.ecState = .stopped ∧ u.env.rxPending = false ∧ u.bank.ssEn = true) ∧
    ∃ t, runSteps (4 + if s.bank.cpuRst then 0 else s.target.owed.length) s = .next t ∧
      t.bank.ssEn = true ∧ t.bank.bpEn = false ∧ t.bank.evq = [] ∧ t.bank.active = false ∧
      t.bank.bpsr = s.bank.bpsr ∧ t.env.rxPending = false ∧
      t.out.reports = s.out.reports ++ [.traceAddr s.bank.ia] ∧
      t.engine.ecState = .stepping ∧ t.engine.phase = .idle ∧ t.engine.busOwner = none

/-- R302, R303. From any power-on state, with no other agent moving, the engine runs `startup()` and reaches the state
R303 lists; BPSR, IA and MUXSEL keep whatever they held.
The spec's own decision D34. -/
def Obligations.StartupEstablishesTheKnownState : Prop :=
  ∀ s : State, PowerOn s → s.schedule = [] →
    ∃ (n : Nat) (t : State), n ≤ 6 + s.target.owed.length ∧ runSteps n s = .next t ∧ AfterStartup t ∧
      t.engine.started = true ∧ t.engine.phase = .idle ∧
      t.bank.bpsr = s.bank.bpsr ∧ t.bank.ia = s.bank.ia ∧ t.port.muxsel = s.port.muxsel

/-- R304, R45. `reset` called in `Stepping` on a free bus asserts and then deasserts the target's reset; the store,
the bank but for that line, EC_STATE and the reports stay.
The spec's own decisions D35 and D36. -/
def Obligations.ResetPulsesTheTargetReset : Prop :=
  ∀ s : State, BusReady s → s.schedule = [.driver .reset] → acceptsCall s = true → s.engine.busOwner = none →
    (∃ u, runSteps 2 s = .next u ∧ u.bank.cpuRst = true ∧ u.port.cmd = commandWord (codeOf s.binding.cmd .cpuReset) true) ∧
    ∃ t, runSteps 3 s = .next t ∧ t.bank = { s.bank with cpuRst := false } ∧ t.port.cmd = commandWord (codeOf s.binding.cmd .cpuReset) false ∧
      t.store = s.store ∧ t.out = s.out ∧ t.engine.ecState = .stepping ∧ t.engine.phase = .idle ∧
      t.engine.busOwner = none

/-! ## The BreakpointStore -/

/-- R240, R242, R247, R265. Every store operation keeps the store strictly ascending by address, within its capacity, and
free of entries with mode 0. A failure or an informational answer leaves the store as it was and reports its name; a
`setBreakpoint` that is done reports the modes and the address. A DRIVER's call that the engine accepts carries the
operation's reply out: the store, the reports and the result are the reply's, and the block is as it was. A call that it
does not accept leaves the store alone.
Operands out of range are the spec's own decisions D39 and D40, when calls are accepted D50; the answer to a call not
accepted is log entry 14, the abstract reports log entry 21, all of the requested modes reported log entry 28. -/
def Obligations.StoreCallsCarryOutTheOperation : Prop :=
  (∀ (st : List Entry) (a : Addr) (m : Mode6) (trigger : Option Nat) (choice : Bool) (i code : Nat), StoreWf st →
    (∀ r, setBreakpoint st a m trigger = some r → StoreWf r.store) ∧ StoreWf (clearMode st a m).store ∧
    StoreWf (setTrigger choice st i code).store ∧ StoreWf (triggerAt choice st a code).store) ∧
  (∀ (st : List Entry) (a : Addr) (m : Mode6) (trigger : Option Nat) (choice : Bool) (i code : Nat) (r : Reply),
    (setBreakpoint st a m trigger = some r → r.result = .done → r.reports = [.modesSet m a]) ∧
    (setBreakpoint st a m trigger = some r ∨ r = clearMode st a m ∨ r = setTrigger choice st i code →
      r.result = .done ∨ ∃ f, r = { store := st, reports := [.message f], result := .named f })) ∧
  (∀ s : State, acceptsCall s = true →
    (∀ a m trigger r, setBreakpoint s.store a m trigger = some r →
      CarriedOut r s (driverMove (.setBreakpoint a m trigger) s)) ∧
    (∀ a m, CarriedOut (clearMode s.store a m) s (driverMove (.clearMode a m) s)) ∧
    (∀ i code, ∃ choice, CarriedOut (setTrigger choice s.store i code) s (driverMove (.setTrigger i code) s)) ∧
    (∀ a code, ∃ choice, CarriedOut (triggerAt choice s.store a code) s (driverMove (.triggerAt a code) s)) ∧
    (∀ a, CarriedOut { store := s.store, reports := [], result := .index (findByAddress s.store a) } s
      (driverMove (.findByAddress a) s)) ∧
    (∀ i, CarriedOut { store := s.store, reports := [], result := .valid (indexValid s.store i) } s
      (driverMove (.indexValid i) s)) ∧
    CarriedOut { store := s.store, reports := [], result := .listing (listing s.store) } s (driverMove .list s)) ∧
  ∀ (s : State) (op : DriverOp), acceptsCall s = false →
    (∀ count traceEvery, op ≠ .step count traceEvery) → op ≠ .continueExecution → op ≠ .reset →
    CarriedOut { store := s.store, reports := [], result := .notGranted } s (driverMove op s)

/-- R244. Setting bits at an address that has an entry never changes the entry count. If the entry has all the bits
already, nothing changes and AlreadySet is answered; otherwise the bits are ORed in and a given trigger replaces the
old one. -/
def Obligations.SetOnAnExistingAddressMerges : Prop :=
  ∀ (st : List Entry) (a : Addr) (m : Mode6) (trigger : Option Nat) (e : Entry),
    StoreWf st → findEntry st a = some e → m ≠ 0 → (∀ n, trigger = some n → n ≤ 15) →
    ∃ r, setBreakpoint st a m trigger = some r ∧ r.store.length = st.length ∧
      (e.mode &&& m = m → r.store = st ∧ r.result = .named .alreadySet) ∧
      (e.mode &&& m ≠ m → r.result = .done ∧
        findEntry r.store a = some { e with
          mode := e.mode ||| m
          trigger := match trigger with | some n => BitVec.ofNat 4 n | none => e.trigger } ∧
        ∀ b, b ≠ a → findEntry r.store b = findEntry st b)

/-- R245, R246, R267. Setting bits at a new address inserts an entry, with trigger 15 if none is given, while the store
holds fewer than 8, and the store stays ascending; with 8 it fails with StoreFull and the store is unchanged. -/
def Obligations.SetOnANewAddressInsertsOrIsFull : Prop :=
  ∀ (st : List Entry) (a : Addr) (m : Mode6) (trigger : Option Nat),
    StoreWf st → findEntry st a = none → m ≠ 0 → (∀ n, trigger = some n → n ≤ 15) →
    ∃ r, setBreakpoint st a m trigger = some r ∧
      (st.length < 8 → r.result = .done ∧ r.store.length = st.length + 1 ∧ StoreWf r.store ∧
        findEntry r.store a = some
          { address := a, mode := m, trigger := match trigger with | some n => BitVec.ofNat 4 n | none => 15 } ∧
        ∀ b, b ≠ a → findEntry r.store b = findEntry st b) ∧
      (st.length = 8 → r.result = .named .storeFull ∧ r.store = st)

/-- R249, R268. `clearMode` fails with NotFound where no entry has the address; answers NotSet, nothing changed, where
not all the bits are set; else it clears them, and removes the entry exactly when no bit is left; the others stay, in
ascending order. -/
def Obligations.ClearModeClearsOrRemoves : Prop :=
  ∀ (st : List Entry) (a : Addr) (m : Mode6), StoreWf st →
    (findEntry st a = none → (clearMode st a m).result = .named .notFound ∧ (clearMode st a m).store = st) ∧
    ∀ e, findEntry st a = some e →
      (e.mode &&& m ≠ m → (clearMode st a m).result = .named .notSet ∧ (clearMode st a m).store = st) ∧
      (e.mode &&& m = m → (clearMode st a m).result = .done ∧ StoreWf (clearMode st a m).store ∧
        findEntry (clearMode st a m).store a =
          (if e.mode &&& ~~~m = 0 then none else some { e with mode := e.mode &&& ~~~m }) ∧
        ∀ b, b ≠ a → findEntry (clearMode st a m).store b = findEntry st b)

/-- R250, R251, R252, R269, R102. `setTrigger` with a valid index and a code in 0..15 replaces that entry's trigger and nothing else; a
code above 15 fails with InvalidTrigger, an invalid index with NotFound, either of the two when both apply, and the
store is unchanged. `findByAddress` answers the index of the one entry at an address, or none; `indexValid` whether an
index is below the count; `list` the entries with their indices. Each external command is the DRIVER's call it expands
into, `trigger addr code` being `setTrigger(findByAddress(addr), code)`, an address with no entry as an invalid index.
The spec's own decision D40, the mode bits D11; which failure is reported is a free choice (log entry 3). -/
def Obligations.TriggersLookupsAndExternalCommands : Prop :=
  (∀ (choice : Bool) (st : List Entry) (i code : Nat),
    (∀ e, st[i]? = some e → code ≤ 15 →
      (setTrigger choice st i code).result = .done ∧
      (setTrigger choice st i code).store = st.set i { e with trigger := BitVec.ofNat 4 code }) ∧
    (i < st.length → 15 < code → (setTrigger choice st i code).result = .named .invalidTrigger) ∧
    (st.length ≤ i → code ≤ 15 → (setTrigger choice st i code).result = .named .notFound) ∧
    (st.length ≤ i → 15 < code →
      (setTrigger choice st i code).result = .named .notFound ∨
      (setTrigger choice st i code).result = .named .invalidTrigger) ∧
    (st.length ≤ i ∨ 15 < code → (setTrigger choice st i code).store = st) ∧
    (indexValid st i = true ↔ i < st.length) ∧ (listing st)[i]? = st[i]?.map (fun e => (i, e))) ∧
  (∀ (choice : Bool) (st : List Entry) (a : Addr) (code : Nat), StoreWf st →
    (∀ i, findByAddress st a = some i ↔ ∃ e, st[i]? = some e ∧ e.address = a) ∧
    (∀ i, findByAddress st a = some i → triggerAt choice st a code = setTrigger choice st i code) ∧
    (findByAddress st a = none → (triggerAt choice st a code).store = st ∧
      ((triggerAt choice st a code).result = .named .notFound ∨
        15 < code ∧ (triggerAt choice st a code).result = .named .invalidTrigger))) ∧
  (∀ (c : ExternalCmd) (s : State), agentMove (.external c) s = agentMove (.driver (expand c)) s) ∧
  ∀ (a : Addr) (trigger : Option Nat) (count traceEvery code : Nat) (k : AccessKind) (bp w : Mode6),
    (k, bp, w) ∈ [(AccessKind.fetch, 0x01, 0x08), (.read, 0x02, 0x10), (.write, 0x04, 0x20)] →
    expand (.breakpointSet k a trigger) = .setBreakpoint a bp trigger ∧
    expand (.watchSet k a trigger) = .setBreakpoint a w trigger ∧
    expand (.breakpointClear k a) = .clearMode a bp ∧ expand (.watchClear k a) = .clearMode a w ∧
    expand (.step count traceEvery) = .step count traceEvery ∧ expand .continue = .continueExecution ∧
    expand .reset = .reset ∧ expand .list = .list ∧ expand (.trigger a code) = .triggerAt a code

/-- R253. While the bank mirrors a well-formed store, at most one slot asserts on any bus cycle.
Derived by the spec from R242 and R157. -/
def Obligations.MirroredBankHasOneContributor : Prop :=
  ∀ (st : List Entry) (bpsr : BankWord) (c : BusCycle) (j k : Nat), StoreWf st →
    (∀ i, i < 8 → slot bpsr i = slotWord st i) → j < 8 → k < 8 →
    slotAsserts (slot bpsr j) c = true → slotAsserts (slot bpsr k) c = true → j = k

/-! ## Invariants of every step -/

/-- R26, R37, R67, R134, R201, R206, R223, R242. Every step keeps the invariant `Inv`: the event queue within its
capacity, the store well-formed, EC_STATE as the engine's position calls for, the bus owned exactly while an operation
is in progress, SHREG holding the bits still to be sent, the counters within their bounds.
Its clauses on `started` and on `halfRead` are about the model's own fields (log entries 19 and 20). -/
def Obligations.EveryStepKeepsTheInvariant : Prop :=
  ∀ s t : State, Inv s → step s = .next t → Inv t

/-- The invariant holds in every power-on state, the protocol in every power-on state in which no other requester is
scheduled, and the model's own reset state is a power-on state of which both hold (its values the document does not
give are the model's choice, log entry 10). -/
def Obligations.InvariantsHoldAtPowerOn : Prop :=
  (∀ s : State, PowerOn s → Inv s) ∧
  (∀ s : State, PowerOn s → (∀ m ∈ s.schedule, ∀ id op, m ≠ .master id op) → Protocol s) ∧
  PowerOn State.reset ∧ Inv State.reset ∧ Protocol State.reset

/-- R201, R213 to R220, R223, R302, R303, R304. Where no other requester takes the bus, EC_STATE only goes from
`Stepping` to `Armed`, from `Armed` to `Stopped` and from `Stopped` to `Stepping`, and every step keeps `Protocol`: in
`Stepping` SS_EN = 1 and BP_EN = 0 with nothing pending (but between the end of an arm and the release); in `Armed`
BP_EN = 1, and SS_EN = 0 until a breakpoint event under AUTO_HALT, which is pending or was lost with OVERFLOW set; what
H_ACK acknowledges is a watch; in `Stopped` SS_EN = 1 and then BP_EN = 0 with nothing pending; what the start-up rows
have established.
The spec's own decisions D22, D23, D33, D34, D35 and D36. The clauses on the schedule, on the cycles dropped in reset, and
on the start-up rows and `started` are about the model's own choices (log entries 9, 18 and 19). -/
def Obligations.EveryStepKeepsTheProtocol : Prop :=
  ∀ s t : State, Protocol s → step s = .next t → Protocol t ∧
    (t.engine.ecState = s.engine.ecState ∨
      (s.engine.ecState, t.engine.ecState) ∈
        [(EcState.stepping, EcState.armed), (.armed, .stopped), (.stopped, .stepping)])
end

