-- ==== Sys2Proof/Laws/State.lean ====
section
/-! SUPPORT. One lemma per field per named update of State, so that no later proof unfolds a record update, and
the collapse of two updates of one field. -/

namespace Sys2Proof.Machine

variable (s : State)

@[simp] theorem setPort_binding (p : Port) : (s.setPort p).binding = s.binding := rfl
@[simp] theorem setPort_port (p : Port) : (s.setPort p).port = p := rfl
@[simp] theorem setPort_bank (p : Port) : (s.setPort p).bank = s.bank := rfl
@[simp] theorem setPort_engine (p : Port) : (s.setPort p).engine = s.engine := rfl
@[simp] theorem setPort_store (p : Port) : (s.setPort p).store = s.store := rfl
@[simp] theorem setPort_env (p : Port) : (s.setPort p).env = s.env := rfl
@[simp] theorem setPort_target (p : Port) : (s.setPort p).target = s.target := rfl
@[simp] theorem setPort_marks (p : Port) : (s.setPort p).marks = s.marks := rfl
@[simp] theorem setPort_out (p : Port) : (s.setPort p).out = s.out := rfl
@[simp] theorem setPort_draws (p : Port) : (s.setPort p).draws = s.draws := rfl
@[simp] theorem setPort_schedule (p : Port) : (s.setPort p).schedule = s.schedule := rfl
@[simp] theorem setPort_setPort (p p' : Port) : (s.setPort p).setPort p' = s.setPort p' := rfl
@[simp] theorem setPort_self : s.setPort s.port = s := rfl

@[simp] theorem setBank_binding (b : Bank) : (s.setBank b).binding = s.binding := rfl
@[simp] theorem setBank_port (b : Bank) : (s.setBank b).port = s.port := rfl
@[simp] theorem setBank_bank (b : Bank) : (s.setBank b).bank = b := rfl
@[simp] theorem setBank_engine (b : Bank) : (s.setBank b).engine = s.engine := rfl
@[simp] theorem setBank_store (b : Bank) : (s.setBank b).store = s.store := rfl
@[simp] theorem setBank_env (b : Bank) : (s.setBank b).env = s.env := rfl
@[simp] theorem setBank_target (b : Bank) : (s.setBank b).target = s.target := rfl
@[simp] theorem setBank_marks (b : Bank) : (s.setBank b).marks = s.marks := rfl
@[simp] theorem setBank_out (b : Bank) : (s.setBank b).out = s.out := rfl
@[simp] theorem setBank_draws (b : Bank) : (s.setBank b).draws = s.draws := rfl
@[simp] theorem setBank_schedule (b : Bank) : (s.setBank b).schedule = s.schedule := rfl
@[simp] theorem setBank_setBank (b b' : Bank) : (s.setBank b).setBank b' = s.setBank b' := rfl
@[simp] theorem setBank_self : s.setBank s.bank = s := rfl

@[simp] theorem setEngine_binding (e : Engine) : (s.setEngine e).binding = s.binding := rfl
@[simp] theorem setEngine_port (e : Engine) : (s.setEngine e).port = s.port := rfl
@[simp] theorem setEngine_bank (e : Engine) : (s.setEngine e).bank = s.bank := rfl
@[simp] theorem setEngine_engine (e : Engine) : (s.setEngine e).engine = e := rfl
@[simp] theorem setEngine_store (e : Engine) : (s.setEngine e).store = s.store := rfl
@[simp] theorem setEngine_env (e : Engine) : (s.setEngine e).env = s.env := rfl
@[simp] theorem setEngine_target (e : Engine) : (s.setEngine e).target = s.target := rfl
@[simp] theorem setEngine_marks (e : Engine) : (s.setEngine e).marks = s.marks := rfl
@[simp] theorem setEngine_out (e : Engine) : (s.setEngine e).out = s.out := rfl
@[simp] theorem setEngine_draws (e : Engine) : (s.setEngine e).draws = s.draws := rfl
@[simp] theorem setEngine_schedule (e : Engine) : (s.setEngine e).schedule = s.schedule := rfl
@[simp] theorem setEngine_setEngine (e e' : Engine) : (s.setEngine e).setEngine e' = s.setEngine e' := rfl
@[simp] theorem setEngine_self : s.setEngine s.engine = s := rfl

@[simp] theorem setStore_binding (st : List Entry) : (s.setStore st).binding = s.binding := rfl
@[simp] theorem setStore_port (st : List Entry) : (s.setStore st).port = s.port := rfl
@[simp] theorem setStore_bank (st : List Entry) : (s.setStore st).bank = s.bank := rfl
@[simp] theorem setStore_engine (st : List Entry) : (s.setStore st).engine = s.engine := rfl
@[simp] theorem setStore_store (st : List Entry) : (s.setStore st).store = st := rfl
@[simp] theorem setStore_env (st : List Entry) : (s.setStore st).env = s.env := rfl
@[simp] theorem setStore_target (st : List Entry) : (s.setStore st).target = s.target := rfl
@[simp] theorem setStore_marks (st : List Entry) : (s.setStore st).marks = s.marks := rfl
@[simp] theorem setStore_out (st : List Entry) : (s.setStore st).out = s.out := rfl
@[simp] theorem setStore_draws (st : List Entry) : (s.setStore st).draws = s.draws := rfl
@[simp] theorem setStore_schedule (st : List Entry) : (s.setStore st).schedule = s.schedule := rfl
@[simp] theorem setStore_setStore (st st' : List Entry) : (s.setStore st).setStore st' = s.setStore st' := rfl
@[simp] theorem setStore_self : s.setStore s.store = s := rfl

@[simp] theorem setEnv_binding (e : Env) : (s.setEnv e).binding = s.binding := rfl
@[simp] theorem setEnv_port (e : Env) : (s.setEnv e).port = s.port := rfl
@[simp] theorem setEnv_bank (e : Env) : (s.setEnv e).bank = s.bank := rfl
@[simp] theorem setEnv_engine (e : Env) : (s.setEnv e).engine = s.engine := rfl
@[simp] theorem setEnv_store (e : Env) : (s.setEnv e).store = s.store := rfl
@[simp] theorem setEnv_env (e : Env) : (s.setEnv e).env = e := rfl
@[simp] theorem setEnv_target (e : Env) : (s.setEnv e).target = s.target := rfl
@[simp] theorem setEnv_marks (e : Env) : (s.setEnv e).marks = s.marks := rfl
@[simp] theorem setEnv_out (e : Env) : (s.setEnv e).out = s.out := rfl
@[simp] theorem setEnv_draws (e : Env) : (s.setEnv e).draws = s.draws := rfl
@[simp] theorem setEnv_schedule (e : Env) : (s.setEnv e).schedule = s.schedule := rfl
@[simp] theorem setEnv_setEnv (e e' : Env) : (s.setEnv e).setEnv e' = s.setEnv e' := rfl
@[simp] theorem setEnv_self : s.setEnv s.env = s := rfl

@[simp] theorem setTarget_binding (t : Target) : (s.setTarget t).binding = s.binding := rfl
@[simp] theorem setTarget_port (t : Target) : (s.setTarget t).port = s.port := rfl
@[simp] theorem setTarget_bank (t : Target) : (s.setTarget t).bank = s.bank := rfl
@[simp] theorem setTarget_engine (t : Target) : (s.setTarget t).engine = s.engine := rfl
@[simp] theorem setTarget_store (t : Target) : (s.setTarget t).store = s.store := rfl
@[simp] theorem setTarget_env (t : Target) : (s.setTarget t).env = s.env := rfl
@[simp] theorem setTarget_target (t : Target) : (s.setTarget t).target = t := rfl
@[simp] theorem setTarget_marks (t : Target) : (s.setTarget t).marks = s.marks := rfl
@[simp] theorem setTarget_out (t : Target) : (s.setTarget t).out = s.out := rfl
@[simp] theorem setTarget_draws (t : Target) : (s.setTarget t).draws = s.draws := rfl
@[simp] theorem setTarget_schedule (t : Target) : (s.setTarget t).schedule = s.schedule := rfl
@[simp] theorem setTarget_setTarget (t t' : Target) : (s.setTarget t).setTarget t' = s.setTarget t' := rfl
@[simp] theorem setTarget_self : s.setTarget s.target = s := rfl

@[simp] theorem setMarks_binding (m : Marks) : (s.setMarks m).binding = s.binding := rfl
@[simp] theorem setMarks_port (m : Marks) : (s.setMarks m).port = s.port := rfl
@[simp] theorem setMarks_bank (m : Marks) : (s.setMarks m).bank = s.bank := rfl
@[simp] theorem setMarks_engine (m : Marks) : (s.setMarks m).engine = s.engine := rfl
@[simp] theorem setMarks_store (m : Marks) : (s.setMarks m).store = s.store := rfl
@[simp] theorem setMarks_env (m : Marks) : (s.setMarks m).env = s.env := rfl
@[simp] theorem setMarks_target (m : Marks) : (s.setMarks m).target = s.target := rfl
@[simp] theorem setMarks_marks (m : Marks) : (s.setMarks m).marks = m := rfl
@[simp] theorem setMarks_out (m : Marks) : (s.setMarks m).out = s.out := rfl
@[simp] theorem setMarks_draws (m : Marks) : (s.setMarks m).draws = s.draws := rfl
@[simp] theorem setMarks_schedule (m : Marks) : (s.setMarks m).schedule = s.schedule := rfl
@[simp] theorem setMarks_setMarks (m m' : Marks) : (s.setMarks m).setMarks m' = s.setMarks m' := rfl
@[simp] theorem setMarks_self : s.setMarks s.marks = s := rfl

@[simp] theorem setOut_binding (o : Out) : (s.setOut o).binding = s.binding := rfl
@[simp] theorem setOut_port (o : Out) : (s.setOut o).port = s.port := rfl
@[simp] theorem setOut_bank (o : Out) : (s.setOut o).bank = s.bank := rfl
@[simp] theorem setOut_engine (o : Out) : (s.setOut o).engine = s.engine := rfl
@[simp] theorem setOut_store (o : Out) : (s.setOut o).store = s.store := rfl
@[simp] theorem setOut_env (o : Out) : (s.setOut o).env = s.env := rfl
@[simp] theorem setOut_target (o : Out) : (s.setOut o).target = s.target := rfl
@[simp] theorem setOut_marks (o : Out) : (s.setOut o).marks = s.marks := rfl
@[simp] theorem setOut_out (o : Out) : (s.setOut o).out = o := rfl
@[simp] theorem setOut_draws (o : Out) : (s.setOut o).draws = s.draws := rfl
@[simp] theorem setOut_schedule (o : Out) : (s.setOut o).schedule = s.schedule := rfl
@[simp] theorem setOut_setOut (o o' : Out) : (s.setOut o).setOut o' = s.setOut o' := rfl
@[simp] theorem setOut_self : s.setOut s.out = s := rfl

@[simp] theorem setDraws_binding (n : Nat) : (s.setDraws n).binding = s.binding := rfl
@[simp] theorem setDraws_port (n : Nat) : (s.setDraws n).port = s.port := rfl
@[simp] theorem setDraws_bank (n : Nat) : (s.setDraws n).bank = s.bank := rfl
@[simp] theorem setDraws_engine (n : Nat) : (s.setDraws n).engine = s.engine := rfl
@[simp] theorem setDraws_store (n : Nat) : (s.setDraws n).store = s.store := rfl
@[simp] theorem setDraws_env (n : Nat) : (s.setDraws n).env = s.env := rfl
@[simp] theorem setDraws_target (n : Nat) : (s.setDraws n).target = s.target := rfl
@[simp] theorem setDraws_marks (n : Nat) : (s.setDraws n).marks = s.marks := rfl
@[simp] theorem setDraws_out (n : Nat) : (s.setDraws n).out = s.out := rfl
@[simp] theorem setDraws_draws (n : Nat) : (s.setDraws n).draws = n := rfl
@[simp] theorem setDraws_schedule (n : Nat) : (s.setDraws n).schedule = s.schedule := rfl
@[simp] theorem setDraws_setDraws (n n' : Nat) : (s.setDraws n).setDraws n' = s.setDraws n' := rfl
@[simp] theorem setDraws_self : s.setDraws s.draws = s := rfl

@[simp] theorem setSchedule_binding (l : List Move) : (s.setSchedule l).binding = s.binding := rfl
@[simp] theorem setSchedule_port (l : List Move) : (s.setSchedule l).port = s.port := rfl
@[simp] theorem setSchedule_bank (l : List Move) : (s.setSchedule l).bank = s.bank := rfl
@[simp] theorem setSchedule_engine (l : List Move) : (s.setSchedule l).engine = s.engine := rfl
@[simp] theorem setSchedule_store (l : List Move) : (s.setSchedule l).store = s.store := rfl
@[simp] theorem setSchedule_env (l : List Move) : (s.setSchedule l).env = s.env := rfl
@[simp] theorem setSchedule_target (l : List Move) : (s.setSchedule l).target = s.target := rfl
@[simp] theorem setSchedule_marks (l : List Move) : (s.setSchedule l).marks = s.marks := rfl
@[simp] theorem setSchedule_out (l : List Move) : (s.setSchedule l).out = s.out := rfl
@[simp] theorem setSchedule_draws (l : List Move) : (s.setSchedule l).draws = s.draws := rfl
@[simp] theorem setSchedule_schedule (l : List Move) : (s.setSchedule l).schedule = l := rfl
@[simp] theorem setSchedule_setSchedule (l l' : List Move) : (s.setSchedule l).setSchedule l' = s.setSchedule l' := rfl
@[simp] theorem setSchedule_self : s.setSchedule s.schedule = s := rfl

/-- Two states are equal when their eleven fields are. -/
theorem state_ext {s t : State} (hbi : s.binding = t.binding) (hp : s.port = t.port) (hb : s.bank = t.bank) (he : s.engine = t.engine)
    (hs : s.store = t.store) (hv : s.env = t.env) (ht : s.target = t.target) (hm : s.marks = t.marks)
    (ho : s.out = t.out) (hd : s.draws = t.draws) (hl : s.schedule = t.schedule) : s = t := by
  cases s; cases t; simp_all

end Sys2Proof.Machine
end

