-- ==== Sys2Proof/Laws/Ops.lean ====
section
/-! SUPPORT. What each shared operation can change, said once: every operation on a bus cycle keeps all of State
but IA, EVQ, SS_EN, OVERFLOW, the trigger inputs, and (for TARGET's own moves) the target and the draw counter. -/

namespace Sys2Proof.Machine

/-- The parts that no processing of target bus cycles touches. -/
structure CycleFrame (s t : State) : Prop where
  binding : t.binding = s.binding
  port : t.port = s.port
  strobeSeen : t.bank.strobeSeen = s.bank.strobeSeen
  bpEn : t.bank.bpEn = s.bank.bpEn
  cpuRst : t.bank.cpuRst = s.bank.cpuRst
  bpsr : t.bank.bpsr = s.bank.bpsr
  engine : t.engine = s.engine
  store : t.store = s.store
  intr : t.env.intr = s.env.intr
  rxPending : t.env.rxPending = s.env.rxPending
  refused : t.marks.refused = s.marks.refused
  out : t.out = s.out
  schedule : t.schedule = s.schedule
  /-- the target's halting is only ever asked for, never undone -/
  ssEn : s.bank.ssEn = true → t.bank.ssEn = true
  /-- the mark OVERFLOW is never cleared -/
  overflow : s.marks.overflow = true → t.marks.overflow = true
  /-- queued events stay, in order, at the head of the queue -/
  evq : ∃ l, t.bank.evq = s.bank.evq ++ l

theorem CycleFrame.refl (s : State) : CycleFrame s s := by
  constructor <;> first | rfl | exact id | exact ⟨[], (List.append_nil _).symm⟩

theorem CycleFrame.trans {s t u : State} (h : CycleFrame s t) (k : CycleFrame t u) : CycleFrame s u where
  binding := k.binding.trans h.binding
  port := k.port.trans h.port
  strobeSeen := k.strobeSeen.trans h.strobeSeen
  bpEn := k.bpEn.trans h.bpEn
  cpuRst := k.cpuRst.trans h.cpuRst
  bpsr := k.bpsr.trans h.bpsr
  engine := k.engine.trans h.engine
  store := k.store.trans h.store
  intr := k.intr.trans h.intr
  rxPending := k.rxPending.trans h.rxPending
  refused := k.refused.trans h.refused
  out := k.out.trans h.out
  schedule := k.schedule.trans h.schedule
  ssEn := fun a => k.ssEn (h.ssEn a)
  overflow := fun a => k.overflow (h.overflow a)
  evq := by
    obtain ⟨l, hl⟩ := h.evq
    obtain ⟨m, hm⟩ := k.evq
    exact ⟨l ++ m, by rw [hm, hl, List.append_assoc]⟩

variable (depth : Nat) (halt : Bool) (kind : AccessKind) (addr : Addr) (s : State)

/-! ## Marks, outputs, draws -/

@[simp] theorem emit_binding (r : Report) : (s.emit r).binding = s.binding := rfl
@[simp] theorem emit_port (r : Report) : (s.emit r).port = s.port := rfl
@[simp] theorem emit_bank (r : Report) : (s.emit r).bank = s.bank := rfl
@[simp] theorem emit_engine (r : Report) : (s.emit r).engine = s.engine := rfl
@[simp] theorem emit_store (r : Report) : (s.emit r).store = s.store := rfl
@[simp] theorem emit_env (r : Report) : (s.emit r).env = s.env := rfl
@[simp] theorem emit_target (r : Report) : (s.emit r).target = s.target := rfl
@[simp] theorem emit_marks (r : Report) : (s.emit r).marks = s.marks := rfl
@[simp] theorem emit_draws (r : Report) : (s.emit r).draws = s.draws := rfl
@[simp] theorem emit_schedule (r : Report) : (s.emit r).schedule = s.schedule := rfl
@[simp] theorem emit_out (r : Report) : (s.emit r).out = { s.out with reports := s.out.reports ++ [r] } := rfl

@[simp] theorem answer_binding (r : Result) : (s.answer r).binding = s.binding := rfl
@[simp] theorem answer_port (r : Result) : (s.answer r).port = s.port := rfl
@[simp] theorem answer_bank (r : Result) : (s.answer r).bank = s.bank := rfl
@[simp] theorem answer_engine (r : Result) : (s.answer r).engine = s.engine := rfl
@[simp] theorem answer_store (r : Result) : (s.answer r).store = s.store := rfl
@[simp] theorem answer_env (r : Result) : (s.answer r).env = s.env := rfl
@[simp] theorem answer_target (r : Result) : (s.answer r).target = s.target := rfl
@[simp] theorem answer_marks (r : Result) : (s.answer r).marks = s.marks := rfl
@[simp] theorem answer_draws (r : Result) : (s.answer r).draws = s.draws := rfl
@[simp] theorem answer_schedule (r : Result) : (s.answer r).schedule = s.schedule := rfl
@[simp] theorem answer_out (r : Result) : (s.answer r).out = { s.out with results := s.out.results ++ [r] } := rfl

@[simp] theorem drawn_binding : s.drawn.binding = s.binding := rfl
@[simp] theorem drawn_port : s.drawn.port = s.port := rfl
@[simp] theorem drawn_bank : s.drawn.bank = s.bank := rfl
@[simp] theorem drawn_engine : s.drawn.engine = s.engine := rfl
@[simp] theorem drawn_store : s.drawn.store = s.store := rfl
@[simp] theorem drawn_env : s.drawn.env = s.env := rfl
@[simp] theorem drawn_target : s.drawn.target = s.target := rfl
@[simp] theorem drawn_marks : s.drawn.marks = s.marks := rfl
@[simp] theorem drawn_out : s.drawn.out = s.out := rfl
@[simp] theorem drawn_schedule : s.drawn.schedule = s.schedule := rfl
@[simp] theorem drawn_draws : s.drawn.draws = s.draws + 1 := rfl

@[simp] theorem markRefused_binding : s.markRefused.binding = s.binding := rfl
@[simp] theorem markRefused_port : s.markRefused.port = s.port := rfl
@[simp] theorem markRefused_bank : s.markRefused.bank = s.bank := rfl
@[simp] theorem markRefused_engine : s.markRefused.engine = s.engine := rfl
@[simp] theorem markRefused_store : s.markRefused.store = s.store := rfl
@[simp] theorem markRefused_env : s.markRefused.env = s.env := rfl
@[simp] theorem markRefused_target : s.markRefused.target = s.target := rfl
@[simp] theorem markRefused_out : s.markRefused.out = s.out := rfl
@[simp] theorem markRefused_draws : s.markRefused.draws = s.draws := rfl
@[simp] theorem markRefused_schedule : s.markRefused.schedule = s.schedule := rfl
@[simp] theorem markRefused_marks : s.markRefused.marks = { s.marks with refused := true } := rfl

/-! ## Capturing a hit -/

theorem queueEvent_frame (e : Event) : CycleFrame s (queueEvent depth e s) := by
  unfold queueEvent
  split <;> constructor <;> simp [State.markOverflow]

@[simp] theorem queueEvent_ia (e : Event) : (queueEvent depth e s).bank.ia = s.bank.ia := by
  unfold queueEvent; split <;> simp [State.markOverflow]
@[simp] theorem queueEvent_ssEn (e : Event) : (queueEvent depth e s).bank.ssEn = s.bank.ssEn := by
  unfold queueEvent; split <;> simp [State.markOverflow]
@[simp] theorem queueEvent_env (e : Event) : (queueEvent depth e s).env = s.env := by
  unfold queueEvent; split <;> simp [State.markOverflow]
@[simp] theorem queueEvent_target (e : Event) : (queueEvent depth e s).target = s.target := by
  unfold queueEvent; split <;> simp [State.markOverflow]
@[simp] theorem queueEvent_draws (e : Event) : (queueEvent depth e s).draws = s.draws := by
  unfold queueEvent; split <;> simp [State.markOverflow]

theorem queueEvent_evq (e : Event) :
    (queueEvent depth e s).bank.evq = if s.bank.evq.length < depth then s.bank.evq ++ [e] else s.bank.evq := by
  unfold queueEvent; split <;> simp [State.markOverflow]

theorem queueEvent_overflow (e : Event) :
    (queueEvent depth e s).marks.overflow = if s.bank.evq.length < depth then s.marks.overflow else true := by
  unfold queueEvent; split <;> simp [State.markOverflow]

theorem queueEvent_setTarget (e : Event) (x : Target) :
    queueEvent depth e (s.setTarget x) = (queueEvent depth e s).setTarget x := by
  unfold queueEvent
  by_cases h : s.bank.evq.length < depth
  · rw [if_pos (by simpa using h), if_pos h]; rfl
  · rw [if_neg (by simpa using h), if_neg h]; rfl

theorem haltTarget_frame : CycleFrame s (haltTarget s) := by constructor <;> simp [haltTarget]

theorem captureHitWith_frame (ta : Addr) (c : CMode4) : CycleFrame s (captureHitWith depth halt ta c s) := by
  unfold captureHitWith
  dsimp only
  split
  · exact (queueEvent_frame _ _ _).trans (haltTarget_frame _)
  · exact queueEvent_frame _ _ _

@[simp] theorem captureHitWith_ia (ta : Addr) (c : CMode4) :
    (captureHitWith depth halt ta c s).bank.ia = s.bank.ia := by
  unfold captureHitWith; dsimp only; split <;> simp [haltTarget]

@[simp] theorem captureHitWith_env (ta : Addr) (c : CMode4) :
    (captureHitWith depth halt ta c s).env = s.env := by
  unfold captureHitWith; dsimp only; split <;> simp [haltTarget]

@[simp] theorem captureHitWith_target (ta : Addr) (c : CMode4) :
    (captureHitWith depth halt ta c s).target = s.target := by
  unfold captureHitWith; dsimp only; split <;> simp [haltTarget]

@[simp] theorem captureHitWith_draws (ta : Addr) (c : CMode4) :
    (captureHitWith depth halt ta c s).draws = s.draws := by
  unfold captureHitWith; dsimp only; split <;> simp [haltTarget]

/-- The event queue after a hit: one event longer if there was room, else as it was. -/
theorem captureHitWith_evq (ta : Addr) (c : CMode4) :
    (captureHitWith depth halt ta c s).bank.evq =
      if s.bank.evq.length < depth then s.bank.evq ++ [{ hitIa := s.bank.ia, hitTa := ta, cmode := c }]
      else s.bank.evq := by
  rw [← queueEvent_evq]; unfold captureHitWith; dsimp only; split <;> simp [haltTarget]

/-- The mark OVERFLOW after a hit: set if there was no room. -/
theorem captureHitWith_overflow (ta : Addr) (c : CMode4) :
    (captureHitWith depth halt ta c s).marks.overflow =
      (if s.bank.evq.length < depth then s.marks.overflow else true) := by
  rw [← queueEvent_overflow depth s { hitIa := s.bank.ia, hitTa := ta, cmode := c }]
  unfold captureHitWith; dsimp only; split <;> simp [haltTarget]

/-- SS_EN after a hit: set by a breakpoint when the bank halts by itself, else as it was. -/
theorem captureHitWith_ssEn (ta : Addr) (c : CMode4) :
    (captureHitWith depth halt ta c s).bank.ssEn = ((!c.getLsbD 3 && halt) || s.bank.ssEn) := by
  unfold captureHitWith
  dsimp only
  split
  · next h => rw [h]; simp [haltTarget]
  · next h => rw [Bool.not_eq_true] at h; rw [h]; simp

theorem captureHitWith_setTarget (ta : Addr) (c : CMode4) (x : Target) :
    captureHitWith depth halt ta c (s.setTarget x) = (captureHitWith depth halt ta c s).setTarget x := by
  unfold captureHitWith
  simp only [setTarget_bank, queueEvent_setTarget]
  by_cases h : (!c.getLsbD 3 && halt) = true
  · rw [if_pos h, if_pos h]; rfl
  · rw [if_neg h, if_neg h]

/-! ## One bus cycle -/

@[simp] theorem trackIa_ia :
    (trackIa kind addr s).bank.ia = if kind = .fetch then addr else s.bank.ia := by
  unfold trackIa; split <;> simp

@[simp] theorem trackIa_evq : (trackIa kind addr s).bank.evq = s.bank.evq := by unfold trackIa; split <;> simp
@[simp] theorem trackIa_bpEn : (trackIa kind addr s).bank.bpEn = s.bank.bpEn := by unfold trackIa; split <;> simp
@[simp] theorem trackIa_bpsr : (trackIa kind addr s).bank.bpsr = s.bank.bpsr := by unfold trackIa; split <;> simp
@[simp] theorem trackIa_ssEn : (trackIa kind addr s).bank.ssEn = s.bank.ssEn := by unfold trackIa; split <;> simp
@[simp] theorem trackIa_env : (trackIa kind addr s).env = s.env := by unfold trackIa; split <;> simp
@[simp] theorem trackIa_marks : (trackIa kind addr s).marks = s.marks := by unfold trackIa; split <;> simp
@[simp] theorem trackIa_target : (trackIa kind addr s).target = s.target := by unfold trackIa; split <;> simp
@[simp] theorem trackIa_draws : (trackIa kind addr s).draws = s.draws := by unfold trackIa; split <;> simp

theorem trackIa_frame : CycleFrame s (trackIa kind addr s) := by
  unfold trackIa
  split
  · constructor <;> simp
  · exact CycleFrame.refl s

theorem bankCycleWith_frame : CycleFrame s (bankCycleWith depth halt kind addr s) := by
  unfold bankCycleWith
  dsimp only
  split
  · exact (trackIa_frame kind addr s).trans (captureHitWith_frame _ _ _ _ _)
  · exact trackIa_frame kind addr s

/-- With the comparators off, a cycle only moves IA (R184). -/
theorem bankCycleWith_disabled (h : s.bank.bpEn = false) :
    bankCycleWith depth halt kind addr s = trackIa kind addr s := by
  simp [bankCycleWith, h]

@[simp] theorem bankCycleWith_ia :
    (bankCycleWith depth halt kind addr s).bank.ia = if kind = .fetch then addr else s.bank.ia := by
  unfold bankCycleWith; dsimp only; split <;> simp

@[simp] theorem bankCycleWith_env : (bankCycleWith depth halt kind addr s).env = s.env := by
  unfold bankCycleWith; dsimp only; split <;> simp

@[simp] theorem bankCycleWith_target : (bankCycleWith depth halt kind addr s).target = s.target := by
  unfold bankCycleWith; dsimp only; split <;> simp

@[simp] theorem bankCycleWith_draws : (bankCycleWith depth halt kind addr s).draws = s.draws := by
  unfold bankCycleWith; dsimp only; split <;> simp

/-- A cycle never makes the queue longer than its capacity. -/
theorem bankCycleWith_bounded (h : s.bank.evq.length ≤ depth) :
    (bankCycleWith depth halt kind addr s).bank.evq.length ≤ depth := by
  unfold bankCycleWith
  dsimp only
  split
  · rw [captureHitWith_evq]
    split <;> simp_all
  · simpa using h

/-- Only a bank that halts by itself sets SS_EN in a cycle. -/
theorem bankCycleWith_ssEn_of_not_halt :
    (bankCycleWith depth false kind addr s).bank.ssEn = s.bank.ssEn := by
  unfold bankCycleWith
  dsimp only
  split <;> simp [captureHitWith_ssEn]

/-- If a cycle leaves SS_EN set, it was set before, or the bank halts by itself and a breakpoint event is pending or was
lost (R181, R182). -/
theorem bankCycleWith_ssEn_cases (h : (bankCycleWith depth halt kind addr s).bank.ssEn = true) :
    s.bank.ssEn = true ∨ halt = true ∧
      ((∃ e ∈ (bankCycleWith depth halt kind addr s).bank.evq, e.cmode.getLsbD 3 = false) ∨
        (bankCycleWith depth halt kind addr s).marks.overflow = true) := by
  unfold bankCycleWith at h ⊢
  dsimp only at h ⊢
  split at h
  · next hc =>
    rw [if_pos hc, captureHitWith_evq, captureHitWith_overflow]
    rw [captureHitWith_ssEn, trackIa_ssEn, Bool.or_eq_true, Bool.and_eq_true, Bool.not_eq_true'] at h
    rcases h with ⟨hb, hh⟩ | h
    · refine .inr ⟨hh, ?_⟩
      split
      · exact .inl ⟨_, List.mem_append_right _ (List.mem_singleton.2 rfl), hb⟩
      · exact .inr rfl
    · exact .inl h
  · exact .inl (by simpa using h)

/-! ## Presented cycles -/

variable (c : BusCycle) (l : List DataCycle)

theorem present_frame : CycleFrame s (present c s) := by
  have h : CycleFrame s (s.setEnv { s.env with t0 := c.t0, t1 := c.t1 }) := by constructor <;> simp
  exact h.trans (bankCycleWith_frame _ _ _ _ _)

@[simp] theorem present_ia :
    (present c s).bank.ia = if c.kind = .fetch then c.addr else s.bank.ia := by simp [present, bankCycle]

@[simp] theorem present_target : (present c s).target = s.target := by simp [present, bankCycle]
@[simp] theorem present_draws : (present c s).draws = s.draws := by simp [present, bankCycle]

theorem present_bounded (h : s.bank.evq.length ≤ Config.fifoDepth) :
    (present c s).bank.evq.length ≤ Config.fifoDepth := bankCycleWith_bounded _ _ _ _ _ h

theorem present_evq_of_disabled (h : s.bank.bpEn = false) : (present c s).bank.evq = s.bank.evq := by
  rw [present, bankCycle, bankCycleWith_disabled _ _ _ _ _ (by simpa using h)]; simp

theorem present_overflow_of_disabled (h : s.bank.bpEn = false) :
    (present c s).marks.overflow = s.marks.overflow := by
  rw [present, bankCycle, bankCycleWith_disabled _ _ _ _ _ (by simpa using h)]; simp

theorem present_ssEn_of_disabled (h : s.bank.bpEn = false) : (present c s).bank.ssEn = s.bank.ssEn := by
  rw [present, bankCycle, bankCycleWith_disabled _ _ _ _ _ (by simpa using h)]; simp

theorem present_ssEn_of_not_halt (h : Config.autoHalt = false) : (present c s).bank.ssEn = s.bank.ssEn := by
  rw [present, bankCycle, h, bankCycleWith_ssEn_of_not_halt]; simp

theorem trackIa_setTarget (x : Target) : trackIa kind addr (s.setTarget x) = (trackIa kind addr s).setTarget x := by
  unfold trackIa
  by_cases h : kind = .fetch
  · rw [if_pos h, if_pos h]; rfl
  · rw [if_neg h, if_neg h]

/-- What the target still has to run plays no part in a cycle. -/
theorem present_setTarget (x : Target) : present c (s.setTarget x) = (present c s).setTarget x := by
  rw [present, present, setTarget_env,
    show (s.setTarget x).setEnv { s.env with t0 := c.t0, t1 := c.t1 } =
      (s.setEnv { s.env with t0 := c.t0, t1 := c.t1 }).setTarget x from rfl]
  unfold bankCycle bankCycleWith
  simp only [trackIa_setTarget, captureHitWith_setTarget, setTarget_bank, setTarget_env]
  exact (apply_ite (fun u : State => u.setTarget x) _ _ _).symm

@[simp] theorem presentData_nil : presentData [] s = s := rfl

@[simp] theorem presentData_cons (d : DataCycle) :
    presentData (d :: l) s = presentData l (present (dataCycle d) s) := rfl

@[simp] theorem dataCycle_kind_ne_fetch (d : DataCycle) : (dataCycle d).kind ≠ .fetch := by
  unfold dataCycle; cases d.kind <;> simp

theorem presentData_frame : CycleFrame s (presentData l s) := by
  induction l generalizing s with
  | nil => exact CycleFrame.refl s
  | cons d l ih => exact (present_frame s _).trans (ih _)

@[simp] theorem presentData_ia : (presentData l s).bank.ia = s.bank.ia := by
  induction l generalizing s with
  | nil => rfl
  | cons d l ih => simp [ih]

@[simp] theorem presentData_target : (presentData l s).target = s.target := by
  induction l generalizing s with
  | nil => rfl
  | cons d l ih => simp [ih]

@[simp] theorem presentData_draws : (presentData l s).draws = s.draws := by
  induction l generalizing s with
  | nil => rfl
  | cons d l ih => simp [ih]

theorem presentData_bounded (h : s.bank.evq.length ≤ Config.fifoDepth) :
    (presentData l s).bank.evq.length ≤ Config.fifoDepth := by
  induction l generalizing s with
  | nil => exact h
  | cons d l ih => exact ih _ (present_bounded s _ h)

theorem presentData_evq_of_disabled (h : s.bank.bpEn = false) : (presentData l s).bank.evq = s.bank.evq := by
  induction l generalizing s with
  | nil => rfl
  | cons d l ih => rw [presentData_cons, ih _ ((present_frame s _).bpEn.trans h), present_evq_of_disabled s _ h]

theorem presentData_overflow_of_disabled (h : s.bank.bpEn = false) :
    (presentData l s).marks.overflow = s.marks.overflow := by
  induction l generalizing s with
  | nil => rfl
  | cons d l ih => rw [presentData_cons, ih _ ((present_frame s _).bpEn.trans h), present_overflow_of_disabled s _ h]

theorem presentData_setTarget (x : Target) :
    presentData l (s.setTarget x) = (presentData l s).setTarget x := by
  induction l generalizing s with
  | nil => rfl
  | cons d l ih => rw [presentData_cons, present_setTarget, ih, presentData_cons]

/-! ## TARGET's moves -/

theorem finishInstr_frame : CycleFrame s (finishInstr s) := by
  have h : CycleFrame s (s.setTarget { s.target with owed := [] }) := by constructor <;> simp
  exact h.trans (presentData_frame _ _)

@[simp] theorem finishInstr_owed : (finishInstr s).target.owed = [] := by simp [finishInstr]
@[simp] theorem finishInstr_script : (finishInstr s).target.script = s.target.script := by simp [finishInstr]
@[simp] theorem finishInstr_ia : (finishInstr s).bank.ia = s.bank.ia := by simp [finishInstr]
@[simp] theorem finishInstr_draws : (finishInstr s).draws = s.draws := by simp [finishInstr]

theorem finishInstr_of_done (h : s.target.owed = []) : finishInstr s = s := by
  unfold finishInstr
  rw [h, presentData_nil]
  cases s with
  | mk binding port bank engine store env target marks out draws schedule => cases target; simp_all [State.setTarget]

theorem takeInstr_frame : CycleFrame s (takeInstr s) := by
  unfold takeInstr
  split <;> constructor <;> simp [State.drawn]

@[simp] theorem takeInstr_bank : (takeInstr s).bank = s.bank := by
  unfold takeInstr; split <;> simp [State.drawn]

theorem beginInstr_frame : CycleFrame s (beginInstr s) := by
  have h : CycleFrame (takeInstr s)
      ((takeInstr s).setTarget { (takeInstr s).target with owed := (nextInstr s).data }) := by
    constructor <;> simp
  exact (takeInstr_frame s).trans (h.trans (present_frame _ _))

/-- A new instruction's FETCH puts its address into IA (R180, R185). -/
@[simp] theorem beginInstr_ia : (beginInstr s).bank.ia = (nextInstr s).addr := by
  simp [beginInstr, fetchCycle]

@[simp] theorem beginInstr_owed : (beginInstr s).target.owed = (nextInstr s).data := by simp [beginInstr]

theorem runInstr_frame : CycleFrame s (runInstr s) :=
  ((finishInstr_frame s).trans (beginInstr_frame _)).trans (finishInstr_frame _)

@[simp] theorem runInstr_owed : (runInstr s).target.owed = [] := by simp [runInstr]

theorem nextInstr_finishInstr : nextInstr (finishInstr s) = nextInstr s := by simp [nextInstr]

/-- A whole instruction leaves IA at its FETCH address (R112, R180). -/
@[simp] theorem runInstr_ia : (runInstr s).bank.ia = (nextInstr s).addr := by
  simp [runInstr, nextInstr_finishInstr]

theorem finishInstr_bounded (h : s.bank.evq.length ≤ Config.fifoDepth) :
    (finishInstr s).bank.evq.length ≤ Config.fifoDepth := presentData_bounded _ _ h

theorem beginInstr_bounded (h : s.bank.evq.length ≤ Config.fifoDepth) :
    (beginInstr s).bank.evq.length ≤ Config.fifoDepth := present_bounded _ _ (by simpa using h)

theorem runInstr_bounded (h : s.bank.evq.length ≤ Config.fifoDepth) :
    (runInstr s).bank.evq.length ≤ Config.fifoDepth :=
  finishInstr_bounded _ (beginInstr_bounded _ (finishInstr_bounded _ h))

theorem finishInstr_evq_of_disabled (h : s.bank.bpEn = false) : (finishInstr s).bank.evq = s.bank.evq := by
  rw [finishInstr, presentData_evq_of_disabled _ _ (by simpa using h)]; simp

theorem beginInstr_evq_of_disabled (h : s.bank.bpEn = false) : (beginInstr s).bank.evq = s.bank.evq := by
  rw [beginInstr, present_evq_of_disabled _ _ (by simpa using h)]; simp

/-- With the comparators off an instruction produces no event (R184, R209). -/
theorem runInstr_evq_of_disabled (h : s.bank.bpEn = false) : (runInstr s).bank.evq = s.bank.evq := by
  have h1 : (finishInstr s).bank.bpEn = false := (finishInstr_frame s).bpEn.trans h
  have h2 : (beginInstr (finishInstr s)).bank.bpEn = false := (beginInstr_frame _).bpEn.trans h1
  rw [runInstr, finishInstr_evq_of_disabled _ h2, beginInstr_evq_of_disabled _ h1, finishInstr_evq_of_disabled _ h]

theorem finishInstr_overflow_of_disabled (h : s.bank.bpEn = false) :
    (finishInstr s).marks.overflow = s.marks.overflow := by
  rw [finishInstr, presentData_overflow_of_disabled _ _ (by simpa using h)]; simp

@[simp] theorem takeInstr_marks : (takeInstr s).marks = s.marks := by
  unfold takeInstr; split <;> simp [State.drawn]

theorem beginInstr_overflow_of_disabled (h : s.bank.bpEn = false) :
    (beginInstr s).marks.overflow = s.marks.overflow := by
  rw [beginInstr, present_overflow_of_disabled _ _ (by simpa using h)]; simp

theorem runInstr_overflow_of_disabled (h : s.bank.bpEn = false) :
    (runInstr s).marks.overflow = s.marks.overflow := by
  have h1 : (finishInstr s).bank.bpEn = false := (finishInstr_frame s).bpEn.trans h
  have h2 : (beginInstr (finishInstr s)).bank.bpEn = false := (beginInstr_frame _).bpEn.trans h1
  rw [runInstr, finishInstr_overflow_of_disabled _ h2, beginInstr_overflow_of_disabled _ h1,
    finishInstr_overflow_of_disabled _ h]

theorem targetMove_frame : CycleFrame s (targetMove s) := by
  unfold targetMove
  split
  · exact CycleFrame.refl s
  · split
    · have h : ∀ rest, CycleFrame s (s.setTarget { s.target with owed := rest }) := by
        intro rest; constructor <;> simp
      exact (h _).trans (present_frame _ _)
    · split
      · exact CycleFrame.refl s
      · exact beginInstr_frame s

theorem present_ssEn_cases (h : (present c s).bank.ssEn = true) :
    s.bank.ssEn = true ∨ Config.autoHalt = true ∧
      ((∃ e ∈ (present c s).bank.evq, e.cmode.getLsbD 3 = false) ∨ (present c s).marks.overflow = true) :=
  bankCycleWith_ssEn_cases _ _ _ _ _ h

/-- TARGET's own moves halt it only through a breakpoint event (R182). -/
theorem targetMove_ssEn_cases (h : (targetMove s).bank.ssEn = true) :
    s.bank.ssEn = true ∨ Config.autoHalt = true ∧
      ((∃ e ∈ (targetMove s).bank.evq, e.cmode.getLsbD 3 = false) ∨ (targetMove s).marks.overflow = true) := by
  unfold targetMove at h ⊢
  split at h
  · exact .inl h
  · next hr =>
    rw [if_neg hr]
    split at h
    · exact (present_ssEn_cases _ _ h).imp_left (by simp)
    · split at h
      · exact .inl h
      · next hs =>
        rw [if_neg hs]
        exact (present_ssEn_cases _ _ h).imp_left (by simp)

theorem targetMove_bounded (h : s.bank.evq.length ≤ Config.fifoDepth) :
    (targetMove s).bank.evq.length ≤ Config.fifoDepth := by
  unfold targetMove
  split
  · exact h
  · split
    · exact present_bounded _ _ (by simpa using h)
    · split
      · exact h
      · exact beginInstr_bounded s h

/-! ## Reads -/

@[simp] theorem selected_binding (sel : Sel4) : (selected sel s).binding = s.binding := by
  simp [selected, State.drawn]
@[simp] theorem selected_bank (sel : Sel4) : (selected sel s).bank = s.bank := by simp [selected, State.drawn]
@[simp] theorem selected_engine (sel : Sel4) : (selected sel s).engine = s.engine := by simp [selected, State.drawn]
@[simp] theorem selected_store (sel : Sel4) : (selected sel s).store = s.store := by simp [selected, State.drawn]
@[simp] theorem selected_env (sel : Sel4) : (selected sel s).env = s.env := by simp [selected, State.drawn]
@[simp] theorem selected_target (sel : Sel4) : (selected sel s).target = s.target := by simp [selected, State.drawn]
@[simp] theorem selected_marks (sel : Sel4) : (selected sel s).marks = s.marks := by simp [selected, State.drawn]
@[simp] theorem selected_out (sel : Sel4) : (selected sel s).out = s.out := by simp [selected, State.drawn]
@[simp] theorem selected_schedule (sel : Sel4) : (selected sel s).schedule = s.schedule := by
  simp [selected, State.drawn]
@[simp] theorem selected_port (sel : Sel4) : (selected sel s).port = { s.port with muxsel := sel } := by
  simp [selected, State.drawn]

/-- Two registers have two selector values (R95). -/
theorem muxOffset_injective (m : MuxMap) {a b : RegName} (h : muxOffset m a = muxOffset m b) : a = b := by
  have d := m.injective
  simp only [List.nodup_cons, List.mem_cons, List.not_mem_nil, or_false, not_or] at d
  cases a <;> cases b <;> first | rfl | (simp only [muxOffset] at h; have h' := h.symm; tauto)

/-- No register whose high byte is one above it is at the last selector value, so its `read16` is none that is refused
(R95, R134). -/
theorem muxOffset_ne_last (m : MuxMap) :
    muxOffset m .iaLo ≠ 15 ∧ muxOffset m .hitIaLo ≠ 15 ∧ muxOffset m .hitTaLo ≠ 15 := m.highs

/-- The discriminator sees the head event's watch bit, whatever the high nibble of HIT_MODE is (R93, R204). -/
theorem hitDecode_append (high : BitVec 4) (c : CMode4) :
    hitDecode (high ++ c) = { watch := c.getLsbD 3, kind := c.extractLsb' 0 3, mode6 := expandCmode c } := by
  revert high c; decide

/-- What the register file presents at each named register, under any binding (R137 to R139). -/
theorem regValue_offset (m : MuxMap) (fresh : Byte) (r : RegName) (b : Bank) :
    regValue m fresh (muxOffset m r) b =
      match r, b.evq with
      | .iaLo, _ => b.ia.extractLsb' 0 8
      | .iaHi, _ => b.ia.extractLsb' 8 8
      | .data, _ => fresh
      | _, [] => fresh
      | .hitIaLo, e :: _ => e.hitIa.extractLsb' 0 8
      | .hitIaHi, e :: _ => e.hitIa.extractLsb' 8 8
      | .hitTaLo, e :: _ => e.hitTa.extractLsb' 0 8
      | .hitTaHi, e :: _ => e.hitTa.extractLsb' 8 8
      | .hitMode, e :: _ => fresh.extractLsb' 4 4 ++ e.cmode := by
  have d : ∀ a c : RegName, muxOffset m a = muxOffset m c ↔ a = c :=
    fun a c => ⟨muxOffset_injective m, fun h => by rw [h]⟩
  unfold regValue
  simp only [d]
  cases b.evq <;> cases r <;> rfl

theorem offset_iaHi : offset .iaHi s = offset .iaLo s + 1 := rfl
theorem offset_hitIaHi : offset .hitIaHi s = offset .hitIaLo s + 1 := rfl
theorem offset_hitTaHi : offset .hitTaHi s = offset .hitTaLo s + 1 := rfl

end Sys2Proof.Machine
end

