-- ==== Sys2Proof/Laws/Words.lean ====
section
/-! SUPPORT. Bit by bit: the bank's shift and slots, the breakpoint word's fields, a 16-bit register from its two
bytes, and the command words of the named commands. -/

namespace Sys2Proof.Machine

/-- One shift of the bank: every bit moves down by one, the new bit enters at 207 (R110). -/
theorem getLsbD_shiftIn (b : Bool) (v : BankWord) (i : Nat) :
    (shiftIn b v).getLsbD i = if i < 207 then v.getLsbD (i + 1) else (decide (i = 207) && b) := by
  have h : shiftIn b v = (BitVec.ofBool b ++ v.extractLsb' 1 207 : BitVec (1 + 207)) := rfl
  rw [h, BitVec.getLsbD_append]
  by_cases hi : i < 207
  · simp [hi, Nat.add_comm 1 i]
  · by_cases h2 : i = 207
    · subst h2; simp
    · simp [hi, h2]; omega

/-- A slot's bits are the bank's bits from 26k up (R24). -/
theorem getLsbD_slot (v : BankWord) (k i : Nat) :
    (slot v k).getLsbD i = (decide (i < 26) && v.getLsbD (26 * k + i)) := by
  simp [slot, BitVec.getLsbD_extractLsb']

/-- A 16-bit register is its high byte and its low byte (R52). -/
theorem high_append_low (w : Addr) : (w.extractLsb' 8 8 ++ w.extractLsb' 0 8 : BitVec (8 + 8)) = w := by
  apply BitVec.eq_of_getLsbD_eq
  intro i hi
  rw [BitVec.getLsbD_append]
  by_cases h : i < 8
  · simp [h]
  · simp [h, show i - 8 < 8 by omega, show 8 + (i - 8) = i by omega]

/-- The layout of a serialized entry (R87). -/
theorem serialize_eq_append (e : Entry) : serialize e = (e.trigger ++ e.mode ++ e.address : BitVec (4 + 6 + 16)) := by
  apply BitVec.eq_of_getLsbD_eq
  intro i hi
  rw [BitVec.getLsbD_append, BitVec.getLsbD_append]
  simp only [serialize, BitVec.getLsbD_or, BitVec.getLsbD_shiftLeft, BitVec.getLsbD_setWidth]
  by_cases h1 : i < 16
  · simp [h1, show i < 26 by omega]
  · have ha : e.address.getLsbD i = false := BitVec.getLsbD_of_ge _ _ (by omega)
    by_cases h2 : i < 22
    · simp [h1, hi, ha, show i - 16 < 6 by omega, show i - 16 < 26 by omega]
    · have hm : e.mode.getLsbD (i - 16) = false := BitVec.getLsbD_of_ge _ _ (by omega)
      simp [h1, ha, hi, hm, show ¬ (i - 16 < 6) by omega, show i - 16 < 26 by omega, show i - 16 - 6 < 26 by omega]

@[simp] theorem wordAddr_serialize (e : Entry) : wordAddr (serialize e) = e.address := by
  apply BitVec.eq_of_getLsbD_eq
  intro i hi
  rw [serialize_eq_append, wordAddr, BitVec.getLsbD_extractLsb', BitVec.getLsbD_append]
  simp [hi]

@[simp] theorem wordMode_serialize (e : Entry) : wordMode (serialize e) = e.mode := by
  apply BitVec.eq_of_getLsbD_eq
  intro i hi
  rw [serialize_eq_append, wordMode, BitVec.getLsbD_extractLsb', BitVec.getLsbD_append, BitVec.getLsbD_append]
  simp [hi]

@[simp] theorem wordTrig_serialize (e : Entry) : wordTrig (serialize e) = e.trigger := by
  apply BitVec.eq_of_getLsbD_eq
  intro i hi
  rw [serialize_eq_append, wordTrig, BitVec.getLsbD_extractLsb', BitVec.getLsbD_append, BitVec.getLsbD_append]
  simp [hi, show ¬ (22 + i < 16) by omega, show ¬ (22 + i - 16 < 6) by omega, show 22 + i - 16 - 6 = i by omega]

/-- When a slot contributes: address, mode and trigger match (R176). -/
theorem slotHit_ne_zero (w : BpWord) (c : BusCycle) :
    slotHit w c ≠ 0 ↔
      wordAddr w = c.addr ∧ wordMode w &&& kindMask c.kind ≠ 0 ∧ evaluate (wordTrig w) c.t0 c.t1 = true := by
  unfold slotHit; split <;> simp_all

/-- The bits of a fold of slots (R177). -/
theorem getLsbD_foldSlots (l : List Nat) (bpsr : BankWord) (c : BusCycle) (a : Mode6) (i : Nat) :
    (l.foldl (fun acc k => acc ||| slotHit (slot bpsr k) c) a).getLsbD i = true ↔
      a.getLsbD i = true ∨ ∃ k ∈ l, (slotHit (slot bpsr k) c).getLsbD i = true := by
  induction l generalizing a with
  | nil => simp
  | cons k l ih => simp [ih, or_assoc]

/-! ## Command words -/

@[simp] theorem opField_append (op : BitVec 4) (p : Bool) : opField (op ++ BitVec.ofBool p) = op := by
  revert op p; decide
@[simp] theorem pField_append (op : BitVec 4) (p : Bool) : pField (op ++ BitVec.ofBool p) = p := by
  revert op p; decide

/-- Every command word is its operation number and its parameter (R81). -/
theorem word_eq_append (w : Cmd5) : w = opField w ++ BitVec.ofBool (pField w) := by revert w; decide

theorem commandWord_append (op : BitVec 4) (p : Bool) : commandWord (op ++ 0b0#1) p = op ++ BitVec.ofBool p := by
  revert op p; decide

/-- `code | param` is the operation number and the parameter (R81). -/
theorem commandWord_codeOf (m : CmdMap) (n : CmdName) (p : Bool) :
    commandWord (codeOf m n) p = m.code n ++ BitVec.ofBool p := commandWord_append _ _

/-- Two commands have two numbers (R82). -/
theorem code_injective (m : CmdMap) {n n' : CmdName} (h : m.code n = m.code n') : n = n' := by
  have d := m.injective
  simp only [List.nodup_cons, List.mem_cons, List.not_mem_nil, or_false, not_or] at d
  cases n <;> cases n' <;> first | rfl | (simp only [CmdMap.code] at h; simp_all)

/-- The command of a name. -/
def instrOf (n : CmdName) (p : Bool) : Instr :=
  match n with
  | .ssEnable => .ssEnable p
  | .bpEnable => .bpEnable p
  | .loadBp => .loadBp p
  | .cpuReset => .cpuReset p
  | .step => .step p
  | .watchAck => .watchAck p
  | .fifoReset => .fifoReset p
  | .loadMem => .loadMem p
  | .rdMem => .rdMem p
  | .wrMem => .wrMem p

/-- A word written by a command's name is that command, under any map (R82). -/
theorem decode_code (m : CmdMap) (n : CmdName) (p : Bool) :
    decodeWith m (m.code n ++ BitVec.ofBool p) = instrOf n p := by
  have d : ∀ a b : CmdName, m.code a = m.code b ↔ a = b := fun a b => ⟨code_injective m, fun h => by rw [h]⟩
  have e : decodeWith m (m.code n ++ BitVec.ofBool p) =
      if m.code n = m.code .ssEnable then .ssEnable p else if m.code n = m.code .bpEnable then .bpEnable p
      else if m.code n = m.code .loadBp then .loadBp p else if m.code n = m.code .cpuReset then .cpuReset p
      else if m.code n = m.code .step then .step p else if m.code n = m.code .watchAck then .watchAck p
      else if m.code n = m.code .fifoReset then .fifoReset p else if m.code n = m.code .loadMem then .loadMem p
      else if m.code n = m.code .rdMem then .rdMem p else if m.code n = m.code .wrMem then .wrMem p
      else if inRowAB (m.code n) then .reservedAB (m.code n) p else .reservedCF (m.code n) p := by
    unfold decodeWith
    simp only [opField_append, pField_append]
    rfl
  rw [e]
  simp only [d]
  cases n <;> rfl

@[simp] theorem decode_commandWord (m : CmdMap) (n : CmdName) (p : Bool) :
    decodeWith m (commandWord (codeOf m n) p) = instrOf n p := by rw [commandWord_codeOf, decode_code]

/-- A word whose operation number is no command's is reserved, in its row (R85, R103). -/
theorem decode_reserved (m : CmdMap) (op : BitVec 4) (p : Bool) (h : m.codes.contains op = false) :
    decodeWith m (op ++ BitVec.ofBool p) = if inRowAB op then .reservedAB op p else .reservedCF op p := by
  simp only [CmdMap.codes, List.contains_eq_mem, List.mem_cons, List.not_mem_nil, or_false, decide_eq_false_iff_not,
    not_or] at h
  unfold decodeWith
  simp only [opField_append, pField_append]
  simp [h]

/-- Every operation number is some command's or none's (R82, R85). -/
theorem code_or_free (m : CmdMap) (op : BitVec 4) : (∃ n, op = m.code n) ∨ m.codes.contains op = false := by
  cases h : m.codes.contains op with
  | false => exact .inr rfl
  | true =>
    left
    simp only [CmdMap.codes, List.contains_eq_mem, List.mem_cons, List.not_mem_nil, or_false, decide_eq_true_eq] at h
    rcases h with h | h | h | h | h | h | h | h | h | h
    exacts [⟨.ssEnable, h⟩, ⟨.bpEnable, h⟩, ⟨.loadBp, h⟩, ⟨.cpuReset, h⟩, ⟨.step, h⟩, ⟨.watchAck, h⟩,
      ⟨.fifoReset, h⟩, ⟨.loadMem, h⟩, ⟨.rdMem, h⟩, ⟨.wrMem, h⟩]

end Sys2Proof.Machine
end

