-- ==== Sys2Proof/Laws/Engine.lean ====
section
/-! SUPPORT. What a command, a write on the command port and a step can change, said once. -/

namespace Sys2Proof.Machine

variable (s t : State)

/-! ## A command -/

/-- What no command touches, whichever it is. -/
structure CommandFrame (s t : State) : Prop where
  binding : t.binding = s.binding
  port : t.port = s.port
  strobeSeen : t.bank.strobeSeen = s.bank.strobeSeen
  engine : t.engine = s.engine
  store : t.store = s.store
  intr : t.env.intr = s.env.intr
  rxPending : t.env.rxPending = s.env.rxPending
  out : t.out = s.out
  schedule : t.schedule = s.schedule
  /-- the marks are only ever set -/
  overflow : s.marks.overflow = true → t.marks.overflow = true
  refused : s.marks.refused = true → t.marks.refused = true

theorem CycleFrame.command {s t : State} (h : CycleFrame s t) : CommandFrame s t where
  binding := h.binding
  port := h.port
  strobeSeen := h.strobeSeen
  engine := h.engine
  store := h.store
  intr := h.intr
  rxPending := h.rxPending
  out := h.out
  schedule := h.schedule
  overflow := h.overflow
  refused := fun x => h.refused.trans x

/-- Every command has a next state, and this is what it leaves alone. -/
theorem exec_total (i : Instr) : ∃ t, exec i s = .next t ∧ CommandFrame s t := by
  cases i with
  | step p =>
    refine ⟨_, rfl, ?_⟩
    split
    · exact (runInstr_frame s).command
    · exact (CycleFrame.refl s).command
  | cpuReset p =>
    refine ⟨_, rfl, ?_⟩
    dsimp only
    split <;> constructor <;> simp [abortInstr]
  | bpEnable p => exact ⟨_, rfl, by cases p <;> constructor <;> simp [clearEvents]⟩
  | ssEnable p => exact ⟨_, rfl, by constructor <;> simp⟩
  | loadBp b => exact ⟨_, rfl, by constructor <;> simp⟩
  | watchAck p => exact ⟨_, rfl, by constructor <;> simp [popEvent]⟩
  | fifoReset p => exact ⟨_, rfl, by constructor <;> simp [clearEvents]⟩
  | loadMem p => exact ⟨_, rfl, by constructor <;> simp [State.markRefused]⟩
  | rdMem p => exact ⟨_, rfl, by constructor <;> simp [State.markRefused]⟩
  | wrMem p => exact ⟨_, rfl, by constructor <;> simp [State.markRefused]⟩
  | reservedAB op p => exact ⟨_, rfl, by constructor <;> simp [State.markRefused]⟩
  | reservedCF op p => exact ⟨_, rfl, by constructor <;> simp [State.markRefused]⟩

theorem exec_frame {i : Instr} {s t : State} (h : exec i s = .next t) : CommandFrame s t := by
  obtain ⟨u, hu, hf⟩ := exec_total s i
  rw [hu] at h
  cases h
  exact hf

/-- No command makes the event queue longer than its capacity. -/
theorem exec_bounded {i : Instr} {s t : State} (h : exec i s = .next t)
    (hs : s.bank.evq.length ≤ Config.fifoDepth) : t.bank.evq.length ≤ Config.fifoDepth := by
  cases i with
  | step p =>
    cases h
    split
    · exact runInstr_bounded s hs
    · exact hs
  | cpuReset p => cases h; dsimp only; split <;> simpa [abortInstr] using hs
  | bpEnable p => cases h; cases p <;> simp [clearEvents, hs]
  | watchAck p => cases h; simp [popEvent]; omega
  | fifoReset p => cases h; simp [clearEvents]
  | ssEnable p => cases h; exact hs
  | loadBp b => cases h; exact hs
  | loadMem p => cases h; exact hs
  | rdMem p => cases h; exact hs
  | wrMem p => cases h; exact hs
  | reservedAB op p => cases h; exact hs
  | reservedCF op p => cases h; exact hs

/-! ## The command port -/

/-- The state in which BANK executes a word the engine or another owner has just written (R106, R107). -/
def onPort (w : Cmd5) (s : State) : State :=
  (s.setPort { s.port with cmd := w, strobe := !s.port.strobe }).setBank
    { s.bank with strobeSeen := !s.port.strobe }

theorem writeWord_eq (w : Cmd5) : writeWord w s = exec (decodeWith s.binding.cmd w) (onPort w s) := rfl

theorem writeCommand_eq (code : Cmd5) (p : Bool) :
    writeCommand code p s = exec (decodeWith s.binding.cmd (commandWord code p)) (onPort (commandWord code p) s) := rfl

/-- A command written by name runs that command, under any command map (R82, R106). -/
theorem writeNamed_eq (n : CmdName) (p : Bool) :
    writeNamed n p s = exec (instrOf n p) (onPort (commandWord (codeOf s.binding.cmd n) p) s) := by
  rw [writeNamed, writeCommand_eq, decode_commandWord]

@[simp] theorem onPort_binding (w : Cmd5) : (onPort w s).binding = s.binding := rfl
@[simp] theorem onPort_port (w : Cmd5) :
    (onPort w s).port = { s.port with cmd := w, strobe := !s.port.strobe } := rfl
@[simp] theorem onPort_bank (w : Cmd5) : (onPort w s).bank = { s.bank with strobeSeen := !s.port.strobe } := rfl
@[simp] theorem onPort_engine (w : Cmd5) : (onPort w s).engine = s.engine := rfl
@[simp] theorem onPort_store (w : Cmd5) : (onPort w s).store = s.store := rfl
@[simp] theorem onPort_env (w : Cmd5) : (onPort w s).env = s.env := rfl
@[simp] theorem onPort_target (w : Cmd5) : (onPort w s).target = s.target := rfl
@[simp] theorem onPort_marks (w : Cmd5) : (onPort w s).marks = s.marks := rfl
@[simp] theorem onPort_out (w : Cmd5) : (onPort w s).out = s.out := rfl
@[simp] theorem onPort_draws (w : Cmd5) : (onPort w s).draws = s.draws := rfl
@[simp] theorem onPort_schedule (w : Cmd5) : (onPort w s).schedule = s.schedule := rfl

/-- After a write no command is pending. -/
theorem writeWord_seen {w : Cmd5} {s t : State} (h : writeWord w s = .next t) : strobePending t = false := by
  have f := exec_frame (h : exec (decodeWith s.binding.cmd w) (onPort w s) = .next t)
  simp [strobePending, f.port, f.strobeSeen]

/-- What a command written by name leaves alone, beside the port (R106). -/
theorem writeNamed_frame {n : CmdName} {p : Bool} {s t : State} (h : writeNamed n p s = .next t) :
    CommandFrame (onPort (commandWord (codeOf s.binding.cmd n) p) s) t := exec_frame ((writeNamed_eq s n p).symm.trans h)

/-! ## The engine's bookkeeping -/

@[simp] theorem goto_binding (p : Phase) : (s.goto p).binding = s.binding := rfl
@[simp] theorem goto_port (p : Phase) : (s.goto p).port = s.port := rfl
@[simp] theorem goto_bank (p : Phase) : (s.goto p).bank = s.bank := rfl
@[simp] theorem goto_store (p : Phase) : (s.goto p).store = s.store := rfl
@[simp] theorem goto_env (p : Phase) : (s.goto p).env = s.env := rfl
@[simp] theorem goto_target (p : Phase) : (s.goto p).target = s.target := rfl
@[simp] theorem goto_marks (p : Phase) : (s.goto p).marks = s.marks := rfl
@[simp] theorem goto_out (p : Phase) : (s.goto p).out = s.out := rfl
@[simp] theorem goto_draws (p : Phase) : (s.goto p).draws = s.draws := rfl
@[simp] theorem goto_schedule (p : Phase) : (s.goto p).schedule = s.schedule := rfl
@[simp] theorem goto_engine (p : Phase) :
    (s.goto p).engine =
      { s.engine with phase := p, busOwner := if p = .idle then none else s.engine.busOwner } := rfl

@[simp] theorem enter_binding (e : EcState) : (s.enter e).binding = s.binding := rfl
@[simp] theorem enter_port (e : EcState) : (s.enter e).port = s.port := rfl
@[simp] theorem enter_bank (e : EcState) : (s.enter e).bank = s.bank := rfl
@[simp] theorem enter_store (e : EcState) : (s.enter e).store = s.store := rfl
@[simp] theorem enter_env (e : EcState) : (s.enter e).env = s.env := rfl
@[simp] theorem enter_target (e : EcState) : (s.enter e).target = s.target := rfl
@[simp] theorem enter_marks (e : EcState) : (s.enter e).marks = s.marks := rfl
@[simp] theorem enter_out (e : EcState) : (s.enter e).out = s.out := rfl
@[simp] theorem enter_draws (e : EcState) : (s.enter e).draws = s.draws := rfl
@[simp] theorem enter_schedule (e : EcState) : (s.enter e).schedule = s.schedule := rfl
@[simp] theorem enter_engine (e : EcState) : (s.enter e).engine = { s.engine with ecState := e } := rfl

@[simp] theorem begin_binding (p : Phase) : (s.begin p).binding = s.binding := rfl
@[simp] theorem begin_port (p : Phase) : (s.begin p).port = s.port := rfl
@[simp] theorem begin_bank (p : Phase) : (s.begin p).bank = s.bank := rfl
@[simp] theorem begin_store (p : Phase) : (s.begin p).store = s.store := rfl
@[simp] theorem begin_env (p : Phase) : (s.begin p).env = s.env := rfl
@[simp] theorem begin_target (p : Phase) : (s.begin p).target = s.target := rfl
@[simp] theorem begin_marks (p : Phase) : (s.begin p).marks = s.marks := rfl
@[simp] theorem begin_out (p : Phase) : (s.begin p).out = s.out := rfl
@[simp] theorem begin_draws (p : Phase) : (s.begin p).draws = s.draws := rfl
@[simp] theorem begin_schedule (p : Phase) : (s.begin p).schedule = s.schedule := rfl
@[simp] theorem begin_engine (p : Phase) :
    (s.begin p).engine = { s.engine with phase := p, busOwner := some .engine } := rfl

/-- What A_BIT does to the engine: one bit further in the word (R153). -/
theorem countBit_within (h : s.engine.bitCnt + 1 < 26) :
    countBit s = s.setEngine { s.engine with shreg := s.engine.shreg >>> 1, bitCnt := s.engine.bitCnt + 1 } := by
  unfold countBit; exact if_pos h

/-- The last bit of a word that is not the last one: the next word is loaded (R155). -/
theorem countBit_word (h : ¬ s.engine.bitCnt + 1 < 26) (h2 : s.engine.slotCnt + 1 < 8) :
    countBit s = loadWord (s.engine.slotCnt + 1)
      (s.setEngine { s.engine with shreg := s.engine.shreg >>> 1, bitCnt := s.engine.bitCnt + 1 }) := by
  unfold countBit; exact (if_neg h).trans (if_pos h2)

/-- The last bit of the last word: BP_ENABLE(1) comes next (R155). -/
theorem countBit_last (h : ¬ s.engine.bitCnt + 1 < 26) (h2 : ¬ s.engine.slotCnt + 1 < 8) :
    countBit s = (s.setEngine { s.engine with
      shreg := s.engine.shreg >>> 1, bitCnt := s.engine.bitCnt + 1, slotCnt := s.engine.slotCnt + 1 }).goto .aEnable := by
  unfold countBit; exact (if_neg h).trans (if_neg h2)

@[simp] theorem loadWord_binding (k : Nat) : (loadWord k s).binding = s.binding := rfl
@[simp] theorem loadWord_port (k : Nat) : (loadWord k s).port = s.port := rfl
@[simp] theorem loadWord_bank (k : Nat) : (loadWord k s).bank = s.bank := rfl
@[simp] theorem loadWord_store (k : Nat) : (loadWord k s).store = s.store := rfl
@[simp] theorem loadWord_env (k : Nat) : (loadWord k s).env = s.env := rfl
@[simp] theorem loadWord_target (k : Nat) : (loadWord k s).target = s.target := rfl
@[simp] theorem loadWord_marks (k : Nat) : (loadWord k s).marks = s.marks := rfl
@[simp] theorem loadWord_out (k : Nat) : (loadWord k s).out = s.out := rfl
@[simp] theorem loadWord_draws (k : Nat) : (loadWord k s).draws = s.draws := rfl
@[simp] theorem loadWord_schedule (k : Nat) : (loadWord k s).schedule = s.schedule := rfl
@[simp] theorem loadWord_engine (k : Nat) : (loadWord k s).engine =
    { s.engine with shreg := slotWord s.store k, bitCnt := 0, slotCnt := k } := rfl

@[simp] theorem countBit_binding : (countBit s).binding = s.binding := by
  unfold countBit; dsimp only; split
  · rfl
  · split <;> rfl
@[simp] theorem countBit_port : (countBit s).port = s.port := by
  unfold countBit; dsimp only; split
  · rfl
  · split <;> rfl
@[simp] theorem countBit_bank : (countBit s).bank = s.bank := by
  unfold countBit; dsimp only; split
  · rfl
  · split <;> rfl
@[simp] theorem countBit_store : (countBit s).store = s.store := by
  unfold countBit; dsimp only; split
  · rfl
  · split <;> rfl
@[simp] theorem countBit_env : (countBit s).env = s.env := by
  unfold countBit; dsimp only; split
  · rfl
  · split <;> rfl
@[simp] theorem countBit_target : (countBit s).target = s.target := by
  unfold countBit; dsimp only; split
  · rfl
  · split <;> rfl
@[simp] theorem countBit_marks : (countBit s).marks = s.marks := by
  unfold countBit; dsimp only; split
  · rfl
  · split <;> rfl
@[simp] theorem countBit_out : (countBit s).out = s.out := by
  unfold countBit; dsimp only; split
  · rfl
  · split <;> rfl
@[simp] theorem countBit_draws : (countBit s).draws = s.draws := by
  unfold countBit; dsimp only; split
  · rfl
  · split <;> rfl
@[simp] theorem countBit_schedule : (countBit s).schedule = s.schedule := by
  unfold countBit; dsimp only; split
  · rfl
  · split <;> rfl

/-! ## A step -/

/-- Every engine row has a next state. -/
theorem engineRow_total : ∃ t, engineRow s = .next t := by
  have w : ∀ (n : CmdName) (p : Bool) (u : State), ∃ t, writeNamed n p u = .next t := fun n p u => by
    obtain ⟨t, h, -⟩ := exec_total (onPort (commandWord (codeOf u.binding.cmd n) p) u) (instrOf n p)
    exact ⟨t, (writeNamed_eq u n p).trans h⟩
  unfold engineRow rowStarted rowPulse rowBit
  cases s.engine.phase <;> first | exact ⟨_, rfl⟩ | exact w _ _ _

/-- With a command pending, a step is BANK's execution of it. -/
theorem step_of_pending (h : strobePending s = true) : step s = bankStrobe s := by
  simp [step, machineStep, h]

/-- With none pending, a step is the scheduled move. -/
theorem step_of_seen (h : strobePending s = false) : step s = scheduledMove s := by
  simp [step, machineStep, h]

/-- With the bus ready and nothing scheduled, a step is the engine's row. -/
theorem step_of_quiet (h : strobePending s = false) (hp : haltPending s = false) (hs : s.schedule = []) :
    step s = engineRow s := by
  rw [step_of_seen s h, scheduledMove]
  simp only [nextMove, hs, List.headD_nil, hp, Bool.and_false, List.tail_nil, agentMove]
  rw [show s.setSchedule [] = s by rw [← hs]; rfl]
  rfl

end Sys2Proof.Machine
end

