-- ==== Sys2Proof/Laws/Store.lean ====
section
/-! SUPPORT. The BreakpointStore's building blocks: looking up, inserting, updating and removing entries, and what
each does to the store's order, size and contents. -/

namespace Sys2Proof.Machine

theorem storeWf_nil : StoreWf [] := ⟨List.Pairwise.nil, Nat.zero_le _, by simp⟩

/-! ## Looking up -/

theorem findEntry_some {st : List Entry} {a : Addr} {e : Entry} (h : findEntry st a = some e) :
    e ∈ st ∧ e.address = a := by
  have := List.find?_some h
  exact ⟨List.mem_of_find?_eq_some h, by simpa using this⟩

theorem findEntry_none {st : List Entry} {a : Addr} : findEntry st a = none ↔ ∀ e ∈ st, e.address ≠ a := by
  simp [findEntry]

@[simp] theorem findEntry_nil (a : Addr) : findEntry [] a = none := rfl

theorem findEntry_cons (e : Entry) (st : List Entry) (a : Addr) :
    findEntry (e :: st) a = if e.address = a then some e else findEntry st a := by
  by_cases h : e.address = a <;> simp [findEntry, h]

/-- In a well-formed store an address has one entry. -/
theorem StoreWf.unique {st : List Entry} (h : StoreWf st) {x y : Entry} (hx : x ∈ st) (hy : y ∈ st)
    (hxy : x.address = y.address) : x = y := by
  have p : st.Pairwise fun a b => a.address ≠ b.address := h.1.imp fun hab heq => by rw [heq] at hab; omega
  by_contra hne
  have sym : Std.Symm fun a b : Entry => a.address ≠ b.address := ⟨fun _ _ h => h.symm⟩
  exact p.forall hx hy hne hxy

/-! ## Inserting -/

theorem mem_insertEntry (e x : Entry) (st : List Entry) : x ∈ insertEntry e st ↔ x = e ∨ x ∈ st := by
  induction st with
  | nil => simp [insertEntry]
  | cons a l ih => unfold insertEntry; split <;> simp [ih]; tauto

@[simp] theorem length_insertEntry (e : Entry) (st : List Entry) :
    (insertEntry e st).length = st.length + 1 := by
  induction st with
  | nil => rfl
  | cons a l ih => unfold insertEntry; split <;> simp [ih]

theorem insertEntry_sorted (e : Entry) {st : List Entry}
    (h : st.Pairwise fun a b => a.address.toNat < b.address.toNat) (hn : ∀ x ∈ st, x.address ≠ e.address) :
    (insertEntry e st).Pairwise fun a b => a.address.toNat < b.address.toNat := by
  induction st with
  | nil => simp [insertEntry]
  | cons a l ih =>
    rw [List.pairwise_cons] at h
    unfold insertEntry
    split
    · next hlt =>
      refine List.pairwise_cons.2 ⟨fun x hx => ?_, List.pairwise_cons.2 h⟩
      rcases List.mem_cons.1 hx with rfl | hx
      · exact hlt
      · exact hlt.trans (h.1 x hx)
    · next hlt =>
      refine List.pairwise_cons.2 ⟨fun x hx => ?_, ih h.2 fun x hx => hn x (List.mem_cons_of_mem _ hx)⟩
      rcases (mem_insertEntry _ _ _).1 hx with rfl | hx
      · have : a.address.toNat ≠ x.address.toNat := fun h => hn a List.mem_cons_self (BitVec.eq_of_toNat_eq h)
        omega
      · exact h.1 x hx

/-- Inserting at a new address adds that entry and disturbs no other. -/
theorem findEntry_insertEntry (e : Entry) (st : List Entry) (b : Addr) (hn : findEntry st e.address = none) :
    findEntry (insertEntry e st) b = if e.address = b then some e else findEntry st b := by
  induction st with
  | nil => simp [insertEntry, findEntry_cons]
  | cons a l ih =>
    rw [findEntry_cons] at hn
    unfold insertEntry
    split at hn
    · cases hn
    · next hne =>
      split
      · rw [findEntry_cons]
      · rw [findEntry_cons, ih hn, findEntry_cons]
        by_cases h1 : a.address = b <;> by_cases h2 : e.address = b <;> simp_all

/-! ## Updating and removing -/

@[simp] theorem length_updateAt (a : Addr) (f : Entry → Entry) (st : List Entry) :
    (updateAt a f st).length = st.length := by simp [updateAt]

/-- Updating an entry without moving it changes what is found at its address and nowhere else. -/
theorem findEntry_updateAt (a : Addr) (f : Entry → Entry) (st : List Entry) (b : Addr)
    (hf : ∀ e, (f e).address = e.address) : findEntry (updateAt a f st) b = if b = a then (findEntry st b).map f else findEntry st b := by
  induction st with
  | nil => simp [updateAt]
  | cons x l ih =>
    have h : updateAt a f (x :: l) = (if x.address = a then f x else x) :: updateAt a f l := rfl
    have hx : (if x.address = a then f x else x).address = x.address := by split <;> simp [hf]
    rw [h, findEntry_cons, hx, ih, findEntry_cons]
    by_cases h1 : x.address = b
    · subst h1; by_cases h2 : x.address = a <;> simp [h2]
    · simp [h1]

theorem updateAt_wf {st : List Entry} {a : Addr} {f : Entry → Entry} (h : StoreWf st)
    (hf : ∀ e ∈ st, e.address = a → (f e).address = e.address ∧ (f e).mode ≠ 0) : StoreWf (updateAt a f st) := by
  obtain ⟨h1, h2, h3⟩ := h
  have e : ∀ z ∈ st, (if z.address = a then f z else z).address = z.address := by
    intro z hz
    split
    · next hh => exact (hf z hz hh).1
    · rfl
  refine ⟨?_, by simpa [updateAt] using h2, ?_⟩
  · rw [updateAt, List.pairwise_map]
    refine List.Pairwise.imp_of_mem (fun {x y} hx hy hxy => ?_) h1
    rw [e x hx, e y hy]; exact hxy
  · intro x hx
    simp only [updateAt, List.mem_map] at hx
    obtain ⟨z, hz, rfl⟩ := hx
    split
    · next hh => exact (hf z hz hh).2
    · exact h3 z hz

theorem filter_wf {st : List Entry} (h : StoreWf st) (p : Entry → Bool) : StoreWf (st.filter p) :=
  ⟨h.1.filter _, (List.length_filter_le _ _).trans h.2.1, fun x hx => h.2.2 x (List.mem_of_mem_filter hx)⟩

theorem findEntry_remove (st : List Entry) (a b : Addr) :
    findEntry (st.filter fun e => e.address != a) b = if b = a then none else findEntry st b := by
  induction st with
  | nil => simp
  | cons x l ih =>
    rw [List.filter_cons, findEntry_cons]
    by_cases h1 : x.address = a
    · subst h1; simp only [bne_self_eq_false, Bool.false_eq_true, if_false, ih]
      by_cases h2 : b = x.address
      · simp [h2]
      · simp [h2, Ne.symm h2]
    · rw [if_pos (by simpa using h1), findEntry_cons, ih]
      by_cases h2 : x.address = b
      · subst h2; simp [h1]
      · simp [h2]

theorem set_wf {st : List Entry} (h : StoreWf st) {i : Nat} {e f : Entry} (he : st[i]? = some e)
    (ha : f.address = e.address) (hm : f.mode = e.mode) : StoreWf (st.set i f) := by
  obtain ⟨h1, h2, h3⟩ := h
  have g : (st.set i f).map Entry.address = st.map Entry.address := by
    rw [List.map_set, ha]
    apply List.ext_getElem?
    intro n
    rw [List.getElem?_set]
    split
    · next hn => subst hn; simp only [List.length_map]; split <;> simp_all
    · rfl
  refine ⟨?_, by simpa using h2, ?_⟩
  · have p : (st.map Entry.address).Pairwise fun a b => a.toNat < b.toNat := List.pairwise_map.2 h1
    rw [← g] at p
    exact (List.pairwise_map (R := fun a b : Addr => a.toNat < b.toNat)).1 p
  · intro x hx
    rcases List.mem_or_eq_of_mem_set hx with hx | rfl
    · exact h3 x hx
    · rw [hm]; exact h3 e (List.mem_of_getElem? he)

end Sys2Proof.Machine
end

