-- ==== Sys2Proof/Laws/Agents.lean ====
section
/-! SUPPORT. What the DRIVER's calls, the other requesters' moves and ENV's moves can change, said once. -/

namespace Sys2Proof.Machine

variable (s : State)

/-! ## Outputs and marks -/


/-- Several reports in a row are one append. -/
theorem emitAll (l : List Report) :
    l.foldl (fun s x => s.emit x) s = s.setOut { s.out with reports := s.out.reports ++ l } := by
  induction l generalizing s with
  | nil => rw [List.append_nil]; rfl
  | cons r l ih => rw [List.foldl_cons, ih]; simp [State.emit]

/-- A store operation's reply: the new store, its reports, its result, and nothing else. -/
theorem applyReply_eq (r : Reply) :
    applyReply r s = (s.setStore r.store).setOut
      { reports := s.out.reports ++ r.reports, results := s.out.results ++ [r.result] } := by
  simp [applyReply, emitAll, State.answer]

/-! ## DRIVER -/

/-- A call leaves the block, the target and the environment alone; it may start an operation, change the store,
set REFUSED and return outputs. -/
structure CallFrame (s t : State) : Prop where
  binding : t.binding = s.binding
  port : t.port = s.port
  bank : t.bank = s.bank
  env : t.env = s.env
  target : t.target = s.target
  schedule : t.schedule = s.schedule
  overflow : t.marks.overflow = s.marks.overflow
  refused : s.marks.refused = true → t.marks.refused = true

theorem callStore_frame (r : Option Reply) : CallFrame s (callStore r s) := by
  unfold callStore
  split
  · cases r with
    | none => constructor <;> simp [State.markRefused]
    | some r => constructor <;> simp [applyReply_eq]
  · constructor <;> simp [State.answer]

theorem beginCall_frame (p : Phase) : CallFrame s (beginCall p s) := by
  unfold beginCall
  split <;> constructor <;> simp [State.begin, State.answer]

theorem CallFrame.of_drawn {s t : State} (h : CallFrame s.drawn t) : CallFrame s t :=
  ⟨h.binding, h.port, h.bank, h.env, h.target, h.schedule, h.overflow, h.refused⟩

theorem raise_frame (f : Failure) : CallFrame s (s.raise f) := by
  constructor <;> simp [State.raise, State.emit, State.answer]

theorem markRefused_call : CallFrame s s.markRefused := by constructor <;> simp [State.markRefused]

theorem driverMove_frame (op : DriverOp) : CallFrame s (driverMove op s) := by
  cases op with
  | step count traceEvery =>
    simp only [driverMove, callStep]
    split
    · exact raise_frame s _
    · split
      · exact markRefused_call s
      · split <;> constructor <;> simp [State.begin, State.answer]
  | continueExecution =>
    simp only [driverMove, callContinue]
    split
    · exact raise_frame s _
    · split
      · exact markRefused_call s
      · exact beginCall_frame s _
  | reset =>
    simp only [driverMove, callReset]
    split
    · exact raise_frame s _
    · exact beginCall_frame s _
  | setBreakpoint a m t => simp only [driverMove]; exact callStore_frame s _
  | clearMode a m => simp only [driverMove]; exact callStore_frame s _
  | setTrigger i code => simp only [driverMove]; exact (callStore_frame s.drawn _).of_drawn
  | triggerAt a code => simp only [driverMove]; exact (callStore_frame s.drawn _).of_drawn
  | findByAddress a => simp only [driverMove]; exact callStore_frame s _
  | indexValid i => simp only [driverMove]; exact callStore_frame s _
  | list => simp only [driverMove]; exact callStore_frame s _

/-! ## Other requesters -/

theorem masterMove_owner {id : Nat} (op : MasterOp) (h : s.engine.busOwner = some (.other id))
    (hr : s.engine.halfRead = none) : masterMove id op s = ownerMove op s := by
  simp [masterMove, ownerNext, owns, h, hr]

/-- While its `read16` is in progress the owner can only finish it (R65, R66). -/
theorem masterMove_reading {id : Nat} {sel : Sel4} (op : MasterOp) (h : s.engine.busOwner = some (.other id))
    (hr : s.engine.halfRead = some sel) : masterMove id op s =
      .next (if op = .read16High then finishRead16 sel s else s.answer .notGranted) := by
  simp [masterMove, ownerNext, owns, h, hr]

theorem masterMove_acquire (id : Nat) (h : s.engine.busOwner = none) :
    masterMove id .acquire s = .next (setOwner (some (.other id)) s) := by simp [masterMove, owns, h]

theorem masterMove_denied {id : Nat} {op : MasterOp} (h : s.engine.busOwner ≠ some (.other id))
    (h2 : op ≠ .acquire ∨ s.engine.busOwner ≠ none) : masterMove id op s = .next (s.answer .notGranted) := by
  unfold masterMove owns
  rw [if_neg (by simpa using h), if_neg]
  rintro ⟨h3, h4⟩
  exact h2.elim (· h3) (· h4)

theorem getLsbD_putBit (b : Byte) (n k : Fin 8) (v : Bool) :
    (putBit b n v).getLsbD k = if k = n then v else b.getLsbD k := by
  have hk := k.isLt
  by_cases h : k = n
  · subst h; simp [putBit]
  · have h2 : k.val ≠ n.val := fun e => h (Fin.ext e)
    by_cases h3 : k.val < n.val
    · simp [putBit, h, h3]
    · have h4 : k.val - n.val ≠ 0 := by omega
      simp [putBit, h, h3, h4]

/-- `readStatus` samples the two flags (R136), wherever the binding has them. -/
theorem readStatus_eq : readStatus s =
    (s.setEngine { s.engine with stIntr := s.env.intr, stAct := !s.bank.evq.isEmpty }).setDraws (s.draws + 1) := by
  have d := s.binding.status.distinct
  simp only [readStatus, statusByte, getLsbD_putBit, State.drawn, Bank.active, Env.interrupted, if_neg d, if_true]
  rfl

/-- A requester's move has a next state, whatever it asks for. -/
theorem masterMove_total (id : Nat) (op : MasterOp) : ∃ t, masterMove id op s = .next t := by
  unfold masterMove ownerNext ownerMove
  split
  · split
    · exact ⟨_, rfl⟩
    · cases op with
      | command w =>
        obtain ⟨t, h, -⟩ := exec_total (onPort w s) (decodeWith s.binding.cmd w)
        exact ⟨t, h⟩
      | acquire => exact ⟨_, rfl⟩
      | release => exact ⟨_, rfl⟩
      | read8 sel => exact ⟨_, rfl⟩
      | read16 sel => exact ⟨_, rfl⟩
      | read16High => exact ⟨_, rfl⟩
      | status => exact ⟨_, rfl⟩
  · split <;> exact ⟨_, rfl⟩

/-! ## ENV -/

@[simp] theorem envMove_binding (a : EnvAct) : (envMove a s).binding = s.binding := by cases a <;> rfl
@[simp] theorem envMove_port (a : EnvAct) : (envMove a s).port = s.port := by cases a <;> rfl
@[simp] theorem envMove_bank (a : EnvAct) : (envMove a s).bank = s.bank := by cases a <;> rfl
@[simp] theorem envMove_engine (a : EnvAct) : (envMove a s).engine = s.engine := by cases a <;> rfl
@[simp] theorem envMove_store (a : EnvAct) : (envMove a s).store = s.store := by cases a <;> rfl
@[simp] theorem envMove_marks (a : EnvAct) : (envMove a s).marks = s.marks := by cases a <;> rfl
@[simp] theorem envMove_schedule (a : EnvAct) : (envMove a s).schedule = s.schedule := by cases a <;> rfl
@[simp] theorem envMove_owed (a : EnvAct) : (envMove a s).target.owed = s.target.owed := by cases a <;> rfl

end Sys2Proof.Machine
end

