-- ==== Sys2Proof/Laws/PerInstr.lean ====
section
/-! SUPPORT. What holds of every instruction as syntax, one lemma per constructor: the word the encoder gives a
well-formed instruction under the default command map lies in the row that spec/opcode_table.json has for it
(rules R82, R103). -/

namespace Sys2Proof.Laws.InItsRow

/-- `match` and `mask` of an instruction's row, as spec/opcode_table.json has them. -/
def row : Instr → Cmd5 × Cmd5
  | .ssEnable _ => (0x00#5, 0x1E#5)
  | .bpEnable _ => (0x02#5, 0x1E#5)
  | .loadBp _ => (0x04#5, 0x1E#5)
  | .cpuReset _ => (0x06#5, 0x1E#5)
  | .step _ => (0x08#5, 0x1E#5)
  | .watchAck _ => (0x0A#5, 0x1E#5)
  | .fifoReset _ => (0x0C#5, 0x1E#5)
  | .loadMem _ => (0x0E#5, 0x1E#5)
  | .rdMem _ => (0x10#5, 0x1E#5)
  | .wrMem _ => (0x12#5, 0x1E#5)
  | .reservedAB _ _ => (0x14#5, 0x1C#5)
  | .reservedCF _ _ => (0x18#5, 0x18#5)

/-- The encoded word agrees with the row on the row's fixed bits. -/
def Statement (i : Instr) : Prop := i.wf specCmdMap = true → encode specCmdMap i &&& (row i).2 = (row i).1

theorem ssEnable (p : Bool) : Statement (.ssEnable p) := by cases p <;> exact fun _ => rfl
theorem bpEnable (p : Bool) : Statement (.bpEnable p) := by cases p <;> exact fun _ => rfl
theorem loadBp (b : Bool) : Statement (.loadBp b) := by cases b <;> exact fun _ => rfl
theorem cpuReset (p : Bool) : Statement (.cpuReset p) := by cases p <;> exact fun _ => rfl
theorem step (p : Bool) : Statement (.step p) := by cases p <;> exact fun _ => rfl
theorem watchAck (p : Bool) : Statement (.watchAck p) := by cases p <;> exact fun _ => rfl
theorem fifoReset (p : Bool) : Statement (.fifoReset p) := by cases p <;> exact fun _ => rfl
theorem loadMem (p : Bool) : Statement (.loadMem p) := by cases p <;> exact fun _ => rfl
theorem rdMem (p : Bool) : Statement (.rdMem p) := by cases p <;> exact fun _ => rfl
theorem wrMem (p : Bool) : Statement (.wrMem p) := by cases p <;> exact fun _ => rfl
theorem reservedAB (op : BitVec 4) (p : Bool) : Statement (.reservedAB op p) := by
  revert op p; unfold Statement; decide
theorem reservedCF (op : BitVec 4) (p : Bool) : Statement (.reservedCF op p) := by
  revert op p; unfold Statement; decide

end Sys2Proof.Laws.InItsRow
end

