-- ==== Sys2Proof/Laws/Runs.lean ====
section
/-! SUPPORT. Runs of several steps, and the step in which ENGINE moves. -/

namespace Sys2Proof.Machine

@[simp] theorem runSteps_zero (s : State) : runSteps 0 s = .next s := rfl

theorem runSteps_succ {s t : State} (n : Nat) (h : step s = .next t) : runSteps (n + 1) s = runSteps n t := by
  simp [runSteps, h]

/-- A run of m + n steps is a run of m followed by a run of n. -/
theorem runSteps_add {s t : State} (m n : Nat) (h : runSteps m s = .next t) : runSteps (m + n) s = runSteps n t := by
  induction m generalizing s with
  | zero => cases h; rw [Nat.zero_add]
  | succ m ih =>
    rw [Nat.add_right_comm, runSteps]
    rw [runSteps] at h
    cases hs : step s with
    | next u => rw [hs] at h; exact ih h
    | fault r => rw [hs] at h; cases h
    | refused r => rw [hs] at h; cases h

/-- When ENGINE moves next, a step is its phase's row. -/
theorem step_of_engineTurn {s : State} (h : EngineTurn s) :
    step s = engineRow (s.setSchedule s.schedule.tail) := by
  obtain ⟨⟨h1, h2⟩, h3⟩ := h
  rw [step_of_seen s h1, scheduledMove, h3, h2]
  rfl

theorem Quiet.engineTurn {s : State} (h : Quiet s) : EngineTurn s := ⟨h.1, by simp [nextMove, h.2]⟩

/-- The bits of an arm, one further (R110, R155). -/
theorem Sent.succ {n : Nat} {s t : State} {b : Bool} (h : Sent n s) (hn : n < 208) (hst : t.store = s.store)
    (hb : t.bank.bpsr = shiftIn b s.bank.bpsr) (hbit : b = (slotWord s.store (n / 26)).getLsbD (n % 26)) :
    Sent (n + 1) t := by
  intro i hi
  rw [hb, hst, getLsbD_shiftIn]
  by_cases h2 : i < n
  · rw [if_pos (by omega), ← h i h2]; congr 1; omega
  · obtain rfl : i = n := by omega
    rw [if_neg (by omega), show 208 - (i + 1) + i = 207 by omega]
    simp [hbit]

end Sys2Proof.Machine
end

