-- ==== Sys2Proof/Tests/Slice0.lean ====
section
/-! SUPPORT. Tests on fixed values, each expected result taken from the spec (the rule or the vector of
spec/95_test_vectors.md named beside it), and for each statement with hypotheses a witness that meets them. -/

open Sys2Proof Sys2Proof.Machine

namespace Sys2Proof.Tests

/-! ## Small states -/

/-- The bank with one entry in slot 0, the rest empty. -/
def slot0 (w : BpWord) : BankWord := w.setWidth 208

/-- A state of the block after start-up: single-step mode, comparators off, out of reset, the engine idle and
accepting calls. -/
def idle : State :=
  (State.reset.setBank { State.reset.bank with ssEn := true }).setEngine { State.reset.engine with started := true }

/-- The engine inside an operation, at a position of the phase table. -/
def during (p : Phase) : State :=
  idle.setEngine { idle.engine with phase := p, ecState := p.ecState, busOwner := some .engine }

/-- Another requester owns the bus. -/
def owned : State := idle.setEngine { idle.engine with busOwner := some (.other 3) }

/-- Another requester owns the bus and is in the middle of a `read16`. -/
def reading : State := owned.setEngine { owned.engine with halfRead := some 14 }

/-- A state with the given pending events. -/
def pending (q : List Event) (s : State) : State := s.setBank { s.bank with evq := q }

/-- A state with the comparators on and one entry in the bank. -/
def armed (w : BpWord) (ia : Addr) : State :=
  State.reset.setBank { State.reset.bank with bpEn := true, bpsr := slot0 w, ia := ia }

/-- A state whose schedule is one move. -/
def calling (m : Move) (s : State) : State := s.setSchedule [m]

def watchEvent : Event := { hitIa := 0x0203, hitTa := 0x1234, cmode := 0b1010 }
def breakEvent : Event := { hitIa := 0x0206, hitTa := 0x0010, cmode := 0b0100 }
def instr0400 : TargetInstr := { addr := 0x0400, t0 := false, t1 := false, data := [] }
def readCycle : DataCycle := { kind := .read, addr := 0x1234, t0 := false, t1 := false }

/-- The state an outcome gives, if it gives one. -/
def after (o : Host.Outcome State Fault Refusal) : Option State :=
  match o with
  | .next t => some t
  | .fault _ => none
  | .refused _ => none

/-! ## WellFormed refuses ill-formed terms (R85, R103) -/

theorem test_wf_reservedAB_low : (Instr.reservedAB 0x9 false).wf specCmdMap = false := by decide
theorem test_wf_reservedAB_high : (Instr.reservedAB 0xC true).wf specCmdMap = false := by decide
theorem test_wf_reservedCF_low : (Instr.reservedCF 0xB false).wf specCmdMap = false := by decide
theorem test_wf_reserved_edges :
    (Instr.reservedAB 0xA false).wf specCmdMap = true ∧ (Instr.reservedAB 0xB true).wf specCmdMap = true ∧
    (Instr.reservedCF 0xC true).wf specCmdMap = true ∧ (Instr.reservedCF 0xF false).wf specCmdMap = true := by decide

/-! ## Command words written out from the table of R82 -/

theorem test_decode_ssEnable : decodeBits 0b00000#5 = .ssEnable false ∧ decodeBits 0b00001#5 = .ssEnable true := by decide
theorem test_decode_bpEnable : decodeBits 0b00010#5 = .bpEnable false ∧ decodeBits 0b00011#5 = .bpEnable true := by decide
theorem test_decode_loadBp : decodeBits 0b00100#5 = .loadBp false ∧ decodeBits 0b00101#5 = .loadBp true := by decide
theorem test_decode_cpuReset : decodeBits 0b00110#5 = .cpuReset false ∧ decodeBits 0b00111#5 = .cpuReset true := by decide
theorem test_decode_step : decodeBits 0b01000#5 = .step false ∧ decodeBits 0b01001#5 = .step true := by decide
theorem test_decode_watchAck : decodeBits 0b01010#5 = .watchAck false ∧ decodeBits 0b01011#5 = .watchAck true := by decide
theorem test_decode_fifoReset : decodeBits 0b01100#5 = .fifoReset false ∧ decodeBits 0b01101#5 = .fifoReset true := by
  decide
theorem test_decode_loadMem : decodeBits 0b01110#5 = .loadMem false ∧ decodeBits 0b01111#5 = .loadMem true := by decide
theorem test_decode_rdMem : decodeBits 0b10000#5 = .rdMem false ∧ decodeBits 0b10001#5 = .rdMem true := by decide
theorem test_decode_wrMem : decodeBits 0b10010#5 = .wrMem false ∧ decodeBits 0b10011#5 = .wrMem true := by decide
theorem test_decode_reservedAB :
    decodeBits 0b10100#5 = .reservedAB 0xA false ∧ decodeBits 0b10111#5 = .reservedAB 0xB true := by decide
theorem test_decode_reservedCF :
    decodeBits 0b11000#5 = .reservedCF 0xC false ∧ decodeBits 0b11111#5 = .reservedCF 0xF true := by decide
theorem test_decode_rejects : decode specCmdMap [0x20#8] = .error (.notACommandWord 0x20#8) ∧ decode specCmdMap [] = .error .noByte := by
  decide
theorem test_fetchWord_runs_the_word :
    (after (step (State.reset.withFetchWord 5 0x01))).map (·.bank.ssEn) = some true := by decide

/-! ## Another binding of the ports (R82, R94, R95: any injective map, any distinct positions) -/

/-- A binding in which every number differs from the default's. -/
def otherBinding : Binding where
  cmd :=
    { ssEnable := 0xF, bpEnable := 0xE, loadBp := 0xD, cpuReset := 0xC, step := 0xB, watchAck := 0xA, fifoReset := 0x0,
      loadMem := 0x1, rdMem := 0x2, wrMem := 0x3, injective := by decide }
  mux := { iaLo := 13, hitIaLo := 11, hitTaLo := 8, hitMode := 0, data := 1, highs := by decide, injective := by decide }
  status := { interrupted := 7, active := 6, distinct := by decide }

theorem test_binding_decode :
    decodeWith otherBinding.cmd 0b11011#5 = .loadBp true ∧ decodeWith otherBinding.cmd 0b00000#5 = .fifoReset false ∧
    decodeWith otherBinding.cmd 0b01000#5 = .reservedCF 0x4 false := by decide
theorem test_binding_wf :
    (Instr.reservedCF 0xC false).wf otherBinding.cmd = false ∧ (Instr.reservedCF 0x4 false).wf otherBinding.cmd = true := by
  decide
theorem test_binding_step :
    (after (step ({ State.reset with binding := otherBinding }.withFetchWord 5 0x1F))).map (·.bank.ssEn) = some true := by
  decide
theorem test_binding_reads :
    regValue otherBinding.mux 0x55 14 (armed 0 0xC2B0).bank = 0xC2#8 ∧
    regValue otherBinding.mux 0xF0 0 (pending [watchEvent] idle).bank = 0xFA#8 := by decide
theorem test_binding_status :
    statusByte 0x3F#8 { pending [watchEvent] idle with binding := otherBinding } = 0x7F#8 := by decide

/-! ## The commands (V4, V6) -/

theorem test_ssEnable_release : (after (exec (.ssEnable false) idle)).map (·.bank.ssEn) = some false := by decide
theorem test_bpEnable_off_flushes :
    (after (exec (.bpEnable false) (pending [watchEvent, breakEvent] (armed 0 0)))).map
      (fun t => (t.bank.bpEn, t.bank.evq)) = some (false, []) := by decide
theorem test_bpEnable_on_keeps :
    (after (exec (.bpEnable true) (pending [watchEvent] idle))).map (fun t => (t.bank.bpEn, t.bank.evq)) =
      some (true, [watchEvent]) := by decide
theorem test_loadBp_enters_at_207 :
    (after (exec (.loadBp true) State.reset)).map (fun t => (t.bank.bpsr.getLsbD 207, slot t.bank.bpsr 7)) =
      some (true, 0x2000000#26) := by decide
theorem test_loadBp_drops_bit_0 :
    (after (exec (.loadBp false) (armed 1 0))).map (·.bank.bpsr) = some 0#208 := by decide
theorem test_cpuReset_only_the_line :
    (after (exec (.cpuReset true) (pending [watchEvent] (armed 0x3C11234 5)))).map (·.bank) =
      some { (pending [watchEvent] (armed 0x3C11234 5)).bank with cpuRst := true } := by decide
theorem test_step_fetches :
    (after (exec (.step false) (idle.setTarget { script := [instr0400], owed := [] }))).map
      (fun t => (t.bank.ia, t.target.script)) = some (0x0400, []) := by decide
theorem test_step_ignored_in_reset :
    (after (exec (.step false) (idle.setBank { idle.bank with cpuRst := true }))).map (·.bank.ia) = some 0 := by decide
theorem test_watchAck_pops_one :
    (after (exec (.watchAck false) (pending [watchEvent, breakEvent] idle))).map
      (fun t => (t.bank.evq, t.bank.active)) = some ([breakEvent], true) := by decide
theorem test_watchAck_on_empty : (after (exec (.watchAck true) idle)) = some idle := by decide
theorem test_fifoReset_empties :
    (after (exec (.fifoReset false) (pending [watchEvent, breakEvent] idle))).map (·.bank.evq) = some [] := by decide
theorem test_loadMem_refused : (after (exec (.loadMem false) idle)).map (·.marks.refused) = some true := by decide
theorem test_rdMem_refused : (after (exec (.rdMem false) idle)).map (·.marks.refused) = some true := by decide
theorem test_wrMem_refused : (after (exec (.wrMem true) idle)).map (·.marks.refused) = some true := by decide
theorem test_reservedAB_refused :
    (after (exec (.reservedAB 0xA false) idle)).map (·.marks.refused) = some true := by decide
theorem test_reservedCF_refused :
    (after (exec (.reservedCF 0xF true) idle)).map (·.marks.refused) = some true := by decide

/-! ## Formats (V1, V3, V9) -/

theorem test_serialize_example : serialize { address := 0xC2B0, mode := 0x22, trigger := 10 } = 0x2A2C2B0#26 := by decide
theorem test_serialize_masks : serializeNat 0x1FFFF 0x7F 0x1F = 0x3FFFFFF#26 := by decide
theorem test_push_bits :
    (List.range 26).map (fun i => (0x3C40010#26).getLsbD i) =
      [false, false, false, false, true, false, false, false, false, false, false, false, false, false, false, false,
        false, false, true, false, false, false, true, true, true, true] := by decide
theorem test_hitDecode_watch : hitDecode 0xFA#8 = { watch := true, kind := 0b010#3, mode6 := 0b010000#6 } := by decide
theorem test_hitDecode_break : hitDecode 0x05#8 = { watch := false, kind := 0b101#3, mode6 := 0b000101#6 } := by decide
theorem test_modeNames : modeNames 0b110000#6 = [.readWatch, .writeWatch] := by decide
theorem test_evaluate_and : evaluate 8 true true = true ∧ evaluate 8 true false = false := by decide
theorem test_evaluate_notT0 : evaluate 5 false true = true ∧ evaluate 5 true true = false := by decide

/-! ## A bus cycle through the bank (V8, P6) -/

theorem test_cycle_fetch_hit :
    (bankCycleWith 1 false .fetch 0x1234 (armed 0x3C11234 0x0FFF)).bank.evq =
      [{ hitIa := 0x1234, hitTa := 0x1234, cmode := 0b0001 }] := by decide
theorem test_cycle_read_watch :
    (bankCycleWith 1 true .read 0x1234 (armed 0x3D11234 0x0200)).bank =
      { (armed 0x3D11234 0x0200).bank with evq := [{ hitIa := 0x0200, hitTa := 0x1234, cmode := 0b1010 }] } := by decide
theorem test_cycle_breakpoint_wins_and_halts :
    (fun b : Bank => (b.evq, b.ssEn)) (bankCycleWith 1 true .read 0x4000 (armed 0x3D24000 0x0200)).bank =
      ([{ hitIa := 0x0200, hitTa := 0x4000, cmode := 0b0010 }], true) := by decide
theorem test_cycle_trigger_gates :
    (bankCycleWith 1 true .write 0x4000
      ((armed 0x1BF4000 0x0200).setEnv { State.reset.env with t0 := true, t1 := true })).bank.evq = [] := by decide
theorem test_cycle_no_match : (bankCycleWith 1 true .fetch 0x1235 (armed 0x3C11234 0)).bank.evq = [] := by decide
theorem test_cycle_overflow :
    (fun t : State => (t.bank.evq, t.marks.overflow))
      (bankCycleWith 1 true .read 0x3000 (pending [watchEvent] (armed 0x3D03000 0x0603))) = ([watchEvent], true) := by
  decide

/-! ## Reads (V7) -/

theorem test_read_ia :
    (fun s => (readValue 0 s, readValue 1 s)) (armed 0 0xC2B0) = (0xB0#8, 0xC2#8) := by decide
theorem test_read_hitTa :
    (fun s => (readValue 4 s, readValue 5 s)) (pending [watchEvent] idle) = (0x34#8, 0x12#8) := by decide
theorem test_read_hitMode : regValue specMuxMap 0xF0#8 6 (pending [watchEvent] idle).bank = 0xFA#8 := by decide
theorem test_status_bits :
    (statusByte 0xFC#8 (pending [watchEvent] idle)) = 0xFE#8 ∧ statusByte 0xFF#8 idle = 0xFC#8 := by decide

/-! ## The store (V12 to V15) -/

def threeEntries : List Entry := [⟨0x0010, 0x04, 15⟩, ⟨0x1234, 0x11, 15⟩, ⟨0x2000, 0x20, 10⟩]
def eightEntries : List Entry :=
  [⟨0x0100, 0x01, 0⟩, ⟨0x1100, 0x02, 3⟩, ⟨0x2100, 0x04, 6⟩, ⟨0x3100, 0x08, 9⟩, ⟨0x4100, 0x10, 12⟩, ⟨0x5100, 0x20, 15⟩,
    ⟨0x6100, 0x01, 2⟩, ⟨0x7100, 0x02, 5⟩]

theorem test_store_insert_sorted :
    (setBreakpoint [⟨0x1234, 0x01, 15⟩] 0x0010 0x04 none).map (·.store) =
      some [⟨0x0010, 0x04, 15⟩, ⟨0x1234, 0x01, 15⟩] := by decide
theorem test_store_merge :
    (setBreakpoint [⟨0x1234, 0x11, 15⟩] 0x1234 0x02 (some 6)).map (·.store) = some [⟨0x1234, 0x13, 6⟩] := by decide
theorem test_store_already_set :
    (setBreakpoint [⟨0x1234, 0x13, 6⟩] 0x1234 0x03 (some 9)).map (fun r => (r.store, r.result)) =
      some ([⟨0x1234, 0x13, 6⟩], .named .alreadySet) := by decide
theorem test_store_full :
    (setBreakpoint eightEntries 0x9000 0x01 none).map (fun r => (r.store, r.result)) =
      some (eightEntries, .named .storeFull) := by decide
theorem test_clear_removes_last_bit :
    (clearMode [⟨0x0010, 0x04, 15⟩, ⟨0x1234, 0x01, 15⟩, ⟨0x2000, 0x20, 10⟩] 0x1234 0x01).store =
      [⟨0x0010, 0x04, 15⟩, ⟨0x2000, 0x20, 10⟩] := by decide
theorem test_clear_partly_set :
    (clearMode threeEntries 0x0010 0x06).result = .named .notSet ∧
      (clearMode threeEntries 0x1234 0x10).store = [⟨0x0010, 0x04, 15⟩, ⟨0x1234, 0x01, 15⟩, ⟨0x2000, 0x20, 10⟩] := by
  decide
theorem test_setTrigger_edges :
    (setTrigger false eightEntries 0 16).result = .named .invalidTrigger ∧
      (setTrigger true eightEntries 8 3).result = .named .notFound ∧
      ((setTrigger true eightEntries 7 0).store[7]?) = some ⟨0x7100, 0x02, 0⟩ := by decide
theorem test_expand_watch :
    expand (.watchSet .write 0x2000 none) = .setBreakpoint 0x2000 0x20 none ∧
      expand (.breakpointClear .read 7) = .clearMode 7 0x02 := by decide

/-! ## Witnesses: for each statement with hypotheses, states and operands that meet them -/

theorem witness_SsEnableWritesSingleStepMode : idle.target.owed = [] ∧ idle.bank.cpuRst = false := by decide

theorem witness_CpuResetWritesTheResetLine : (idle.setBank { idle.bank with cpuRst := true }).bank.cpuRst = true := by decide

theorem witness_StepRunsOneInstruction :
    (idle.bank.ssEn = true ∧ idle.bank.cpuRst = false) ∧
    (idle.setBank { idle.bank with ssEn := false }).bank.ssEn = false ∧
    (idle.setBank { idle.bank with cpuRst := true }).bank.cpuRst = true := by decide

theorem witness_StepFrame : idle.markOverflow.marks.overflow = true ∧ idle.bank.bpEn = false := by decide

theorem witness_WatchAckRemovesTheHeadEvent :
    (pending [watchEvent] idle).bank.evq = watchEvent :: [] ∧ idle.bank.evq = [] := by decide

theorem witness_ParameterBitIsIgnored : CmdName.step ∈ [CmdName.step, .watchAck, .fifoReset] := by decide

theorem witness_ReservedWordsSetRefused :
    (specCmdMap.codes.contains 0xA = false ∧ otherBinding.cmd.codes.contains 0x4 = false) ∧
    ((0xA#4 = 0xA ∨ 0xA#4 = 0xB) ∧ (0xB#4 = 0xA ∨ 0xB#4 = 0xB)) ∧ 0xC ≤ (0xC#4).toNat ∧ 0xC ≤ (0xF#4).toNat := by decide

theorem witness_PendingStrobeRunsTheDecodedWord :
    (idle.withFetchWord 8 0x0A).port.strobe ≠ (idle.withFetchWord 8 0x0A).bank.strobeSeen ∧
    decodeWith (idle.withFetchWord 8 0x0A).binding.cmd (idle.withFetchWord 8 0x0A).port.cmd = .watchAck false := by decide

theorem witness_EngineWritesOnlyCoreCommands :
    (after (engineRow (during .hAck))).map (·.port.cmd) = some 0x0A ∧
    (after (engineRow (during .uFifo))).map (·.port.cmd) = some 0x0C := by decide

theorem witness_DecodeOfEncodeIsTheInstruction :
    (Instr.reservedCF 0x4 true).wf otherBinding.cmd = true ∧ (Instr.wrMem true).wf specCmdMap = true ∧ (Instr.reservedAB 0xB false).wf specCmdMap = true ∧ (Instr.reservedCF 0xF true).wf specCmdMap = true := by
  decide

theorem witness_EveryWordIsOneInstruction : 32 ≤ (0x20#8).toNat := by decide

theorem witness_BreakpointWinsOverWatch :
    (0b010000#6) &&& kindMask .read ≠ 0 ∧ (0b010010#6) &&& kindMask .read ≠ 0 := by decide

theorem witness_SlotAssertsExactlyOnAMatch :
    (0x3C04000#26).extractLsb' 16 6 = 0 ∧ (0x03F4000#26).extractLsb' 22 4 = 0 := by decide

theorem witness_FetchTracksTheInstructionAddress : (armed 0x3C11234 0).bank.bpEn = true ∧ idle.bank.bpEn = false := by decide

theorem witness_HitIsCapturedOnce :
    (armed 0x3C11234 0).bank.bpEn = true ∧
    hit6 (armed 0x3C11234 0).bank.bpsr { kind := .fetch, addr := 0x1234, t0 := false, t1 := false } ≠ 0 ∧
    (armed 0x3C11234 0).bank.evq.length < 1 ∧ 1 ≤ (pending [watchEvent] (armed 0x3C11234 0)).bank.evq.length := by decide

theorem witness_BankCycleFrame :
    hit6 (armed 0x3C11234 0).bank.bpsr { kind := .read, addr := 0x1234, t0 := false, t1 := false } = 0 := by decide

theorem witness_StepsKeepMarksInputsAndBinding :
    (step (idle.markOverflow.markRefused) = .next idle.markOverflow.markRefused ∧
      idle.markOverflow.markRefused.marks = { overflow := true, refused := true }) ∧
    (after (step (calling (.env (.intr true)) idle))).map (·.env.intr) = some true ∧ idle.env.intr = false ∧
    (after (step ((during .xSs).setEnv { idle.env with rxPending := true }))).map (·.env.rxPending) = some false :=
  ⟨⟨rfl, rfl⟩, rfl, rfl, rfl⟩

theorem witness_TargetMovesOnlyWhenPermitted :
    (idle.setBank { idle.bank with cpuRst := true }).bank.cpuRst = true ∧
    (idle.bank.ssEn = true ∧ idle.target.owed = []) ∧
    (State.reset.bank.cpuRst = false ∧ State.reset.bank.ssEn = false ∧ State.reset.target.owed = []) ∧
    (State.reset.setTarget { script := [], owed := [readCycle] }).target.owed = readCycle :: [] := by decide

/-- A target halted inside an instruction, the engine about to write BP_ENABLE(0). -/
def halted : State := (during .xBp).setTarget { script := [], owed := [readCycle] }

theorem witness_HaltedTargetFinishesFirst :
    strobePending halted = false ∧ (nextMove halted).isMaster = true ∧ halted.bank.ssEn = true ∧
    halted.bank.cpuRst = false ∧ halted.target.owed = readCycle :: [] := by decide

theorem witness_ReadValuesOfTheRegisterFile : (pending [breakEvent] idle).bank.evq = breakEvent :: [] := by decide

theorem witness_Read8ChangesOnlyTheSelector :
    owned.engine.busOwner = some (.other 3) ∧ owned.engine.halfRead = none := by decide

theorem witness_Read16ReturnsTheWholeRegister :
    (pending [watchEvent] owned).engine.busOwner = some (.other 3) ∧ (pending [watchEvent] owned).engine.halfRead = none ∧
    (pending [watchEvent] owned).bank.evq = watchEvent :: [] ∧ (0 : Sel4) ≠ 15 ∧ (4 : Sel4) ≠ 15 ∧ (14 : Sel4) ≠ 15 := by
  decide

theorem witness_Read16OfIaCanTear :
    owned.engine.busOwner = some (.other 3) ∧ owned.engine.halfRead = none := by decide

theorem witness_OnlyTheOwnerUsesTheBus :
    (idle.engine.busOwner ≠ some (.other 3) ∧ idle.engine.busOwner = none ∧ MasterOp.status ≠ .acquire) ∧
    (owned.engine.busOwner ≠ some (.other 4) ∧ owned.engine.busOwner ≠ none) ∧
    (owned.engine.busOwner = some (.other 3) ∧ owned.engine.halfRead = none) ∧
    (reading.engine.busOwner = some (.other 3) ∧ reading.engine.halfRead = some 14 ∧
      MasterOp.release ≠ .read16High) := by decide

theorem witness_CallsOutsideSteppingFail :
    (during .pWait).engine.ecState ≠ .stepping ∧
    DriverOp.reset ∈ [DriverOp.step 1 0, .continueExecution, .reset] := by decide

theorem witness_StepReportCount : 1 ≤ 1 ∧ 1 ≤ 5 := by decide

/-- The engine idle, a call scheduled, one target instruction chosen. -/
def called (op : DriverOp) : State := calling (.driver op) (idle.setTarget { script := [instr0400], owed := [] })

theorem busReady_called (op : DriverOp) : BusReady (called op) := ⟨rfl, rfl⟩

theorem witness_StepRunsAndReports :
    BusReady (called (.step 1 0)) ∧ (called (.step 1 0)).schedule = [.driver (.step 1 0)] ∧
    acceptsCall (called (.step 1 0)) = true ∧ (called (.step 1 0)).engine.busOwner = none ∧
    (called (.step 1 0)).bank.ssEn = true ∧ (called (.step 1 0)).bank.cpuRst = false ∧ 1 ≤ 1 ∧
    1 ≤ (called (.step 1 0)).target.script.length := ⟨busReady_called _, rfl, by decide⟩

theorem witness_ContinueBeginsWithOneStep :
    BusReady ((called .continueExecution).setStore eightEntries) ∧
    ((called .continueExecution).setStore eightEntries).schedule = [.driver .continueExecution] ∧
    acceptsCall ((called .continueExecution).setStore eightEntries) = true ∧
    (called .continueExecution).engine.busOwner = none ∧ (called .continueExecution).bank.ssEn = true ∧
    (called .continueExecution).bank.cpuRst = false ∧ (called .continueExecution).bank.bpEn = false ∧
    ((called .continueExecution).setStore eightEntries).store.length ≤ 8 := ⟨⟨rfl, rfl⟩, rfl, by decide⟩

theorem witness_OperandsOutsideTheirRangeBeginNothing :
    (acceptsCall idle = true ∧ acceptsCall (idle.setStore (⟨0xFFFF, 1, 15⟩ :: eightEntries)) = true ∧
      8 < (idle.setStore (⟨0xFFFF, 1, 15⟩ :: eightEntries)).store.length) ∧
    ((0x01#6 ≠ 0) ∧ 15 < 16) ∧ owned.engine.busOwner = some (.other 3) ∧ owned.engine.halfRead = none := by decide

theorem storeWf_eightEntries : StoreWf eightEntries := by unfold StoreWf; decide
theorem storeWf_threeEntries : StoreWf threeEntries := by unfold StoreWf; decide

/-- An arm of an empty store has been sent; BP_ENABLE(1) comes next. -/
def allSent : State := during .aEnable

theorem inv_allSent : Inv allSent :=
  ⟨Nat.zero_le _, storeWf_nil, rfl, by decide, by decide, by decide, by decide, by decide, fun _ h => by cases h⟩

theorem sent_allSent : Sent 208 allSent := by
  intro i _
  have h : allSent.bank.bpsr = 0#208 := rfl
  simp [h, slotWord, show allSent.store = [] from rfl]

theorem arming_allSent : Arming allSent :=
  ⟨fun _ => ⟨rfl, rfl, rfl⟩, (fun h => by cases h), fun _ => sent_allSent⟩

theorem witness_ArmMirrorsTheStore :
    (Inv allSent ∧ Arming allSent ∧ allSent.engine.phase ≠ .cRelease ∧
      ∃ t, step allSent = .next t ∧ t.engine.phase = .cRelease) ∧
    Quiet ((during .aDisable).setStore eightEntries) ∧
    ((during .aDisable).setStore eightEntries).engine.phase = .aDisable ∧
    ((during .aDisable).setStore eightEntries).store.length ≤ 8 :=
  ⟨⟨inv_allSent, arming_allSent, by decide, _, rfl, rfl⟩, ⟨⟨rfl, rfl⟩, rfl⟩, rfl, by decide⟩

theorem engineTurn_during (p : Phase) : EngineTurn (during p) := ⟨⟨rfl, rfl⟩, rfl⟩

theorem witness_ReleaseEntersArmed : EngineTurn (during .cRelease) ∧ (during .cRelease).engine.phase = .cRelease :=
  ⟨engineTurn_during _, rfl⟩

theorem witness_PollSamplesAndDecides : EngineTurn (during .pStatus) ∧ (during .pStatus).engine.phase = .pStatus :=
  ⟨engineTurn_during _, rfl⟩

theorem witness_HitReadBackReportsTheHead :
    Quiet (pending [watchEvent, breakEvent] (during .hIaLo)) ∧
    (pending [watchEvent, breakEvent] (during .hIaLo)).engine.phase = .hIaLo ∧
    (pending [watchEvent, breakEvent] (during .hIaLo)).bank.evq = watchEvent :: [breakEvent] :=
  ⟨⟨⟨rfl, rfl⟩, rfl⟩, rfl, rfl⟩

theorem witness_WatchIsAcknowledgedAndPollingGoesOn :
    EngineTurn (pending [watchEvent] (during .hAck)) ∧ (pending [watchEvent] (during .hAck)).engine.phase = .hAck ∧
    (pending [watchEvent] (during .hAck)).engine.ecState = .armed := ⟨⟨⟨rfl, rfl⟩, rfl⟩, rfl, rfl⟩

/-- Free run with an instruction in progress, the engine about to shut down. -/
def stopping : State :=
  ((during .xSs).setBank { idle.bank with ssEn := false, bpEn := true }).setTarget { script := [], owed := [readCycle] }

theorem witness_ShutdownMakesTheHardwareSafe : Quiet stopping ∧ stopping.engine.phase = .xSs :=
  ⟨⟨⟨rfl, rfl⟩, rfl⟩, rfl⟩

/-- A power-on state that is not the model's reset state. -/
def powerOn : State :=
  ((State.reset.setPort { cmd := 0x15, strobe := true, muxsel := 9 }).setBank
    { State.reset.bank with strobeSeen := true, bpEn := true, bpsr := slot0 0x3C11234, ia := 0xC2B0 }).setTarget
    { script := [], owed := [readCycle] }

theorem witness_StartupEstablishesTheKnownState : PowerOn powerOn ∧ powerOn.schedule = [] :=
  ⟨⟨rfl, Nat.zero_le _, rfl, rfl, rfl, rfl, rfl, by decide, by decide, rfl⟩, rfl⟩

theorem witness_ResetPulsesTheTargetReset :
    BusReady (called .reset) ∧ (called .reset).schedule = [.driver .reset] ∧ acceptsCall (called .reset) = true ∧
    (called .reset).engine.busOwner = none := ⟨busReady_called _, rfl, by decide⟩

theorem witness_StoreCallsCarryOutTheOperation :
    StoreWf threeEntries ∧ acceptsCall (idle.setStore threeEntries) = true ∧
    (setBreakpoint threeEntries 0x3000 0x01 (some 15)).map (·.result) = some .done ∧
    (setBreakpoint threeEntries 0x2000 0x20 (some 16)).map (·.result) = some (.named .invalidTrigger) ∧
    acceptsCall (during .pWait) = false ∧ DriverOp.list ≠ .continueExecution ∧ DriverOp.list ≠ .reset :=
  ⟨storeWf_threeEntries, by decide⟩

theorem witness_SetOnAnExistingAddressMerges :
    StoreWf eightEntries ∧ findEntry eightEntries 0x0100 = some ⟨0x0100, 0x01, 0⟩ ∧ (0x20#6 ≠ 0) ∧
    (∀ n, some 15 = some n → n ≤ 15) ∧
    ((0x01#6 &&& 0x20 ≠ 0x20) ∧ (0x01#6 &&& 0x01 = 0x01)) := ⟨storeWf_eightEntries, by decide, by decide, by simp, by decide⟩

theorem witness_SetOnANewAddressInsertsOrIsFull :
    (StoreWf eightEntries ∧ findEntry eightEntries 0x9000 = none ∧ eightEntries.length = 8) ∧
    (StoreWf (eightEntries.take 7) ∧ findEntry (eightEntries.take 7) 0x9000 = none ∧ (eightEntries.take 7).length < 8) ∧
    0x01#6 ≠ 0 ∧ ∀ n, (none : Option Nat) = some n → n ≤ 15 :=
  ⟨⟨storeWf_eightEntries, by decide⟩, ⟨by unfold StoreWf; decide, by decide⟩, by decide, by simp⟩

theorem witness_ClearModeClearsOrRemoves :
    StoreWf threeEntries ∧ findEntry threeEntries 0x9000 = none ∧
    findEntry threeEntries 0x1234 = some ⟨0x1234, 0x11, 15⟩ ∧
    (0x11#6 &&& 0x02 ≠ 0x02) ∧ (0x11#6 &&& 0x11 = 0x11) := ⟨storeWf_threeEntries, by decide⟩

theorem witness_TriggersLookupsAndExternalCommands :
    (threeEntries[2]? = some ⟨0x2000, 0x20, 10⟩ ∧ 15 ≤ 15) ∧ (2 < threeEntries.length ∧ 15 < 16) ∧
    threeEntries.length ≤ 3 ∧ findByAddress threeEntries 0x1234 = some 1 ∧ findByAddress threeEntries 0x1235 = none ∧
    StoreWf threeEntries := by
  refine ⟨by decide, by decide, by decide, by decide, by decide, storeWf_threeEntries⟩

/-- The bank that mirrors the three entries. -/
def mirror : BankWord :=
  (serialize ⟨0x0010, 0x04, 15⟩).setWidth 208 ||| ((serialize ⟨0x1234, 0x11, 15⟩).setWidth 208 <<< 26) |||
    ((serialize ⟨0x2000, 0x20, 10⟩).setWidth 208 <<< 52)

theorem witness_MirroredBankHasOneContributor :
    StoreWf threeEntries ∧ (∀ i, i < 8 → slot mirror i = slotWord threeEntries i) ∧
    slotAsserts (slot mirror 1) { kind := .read, addr := 0x1234, t0 := false, t1 := false } = true :=
  ⟨storeWf_threeEntries, by decide, by decide⟩

/-- In the middle of an arm: bit 25 of the last slot is about to be sent. -/
def lastBit : State :=
  ((during .aBit).setStore eightEntries).setEngine
    { (during .aBit).engine with shreg := slotWord eightEntries 7 >>> 25, bitCnt := 25, slotCnt := 7 }

theorem witness_EveryStepKeepsTheInvariant : Inv lastBit ∧ ∃ t, step lastBit = .next t := by
  refine ⟨⟨Nat.zero_le _, storeWf_eightEntries, rfl, by decide, by decide, by decide, by decide, by decide, ?_⟩, _, rfl⟩
  intro sel h
  cases h

/-- The engine polling with the comparators on, a breakpoint pending. -/
def polling : State :=
  calling .engine ((during .pStatus).setBank { idle.bank with ssEn := false, bpEn := true, evq := [breakEvent] })

/-- A watch read back, about to be acknowledged. -/
def acknowledging : State :=
  calling .engine ((during .hAck).setBank { idle.bank with ssEn := false, bpEn := true, evq := [watchEvent, breakEvent] })

theorem alone_engine (s : State) : ∀ m ∈ (calling .engine s).schedule, ∀ id op, m ≠ .master id op := by
  intro m hm id op
  simp only [calling, setSchedule_schedule, List.mem_singleton] at hm
  simp [hm]

theorem witness_EveryStepKeepsTheProtocol :
    (Protocol (calling .engine (during .aEnable)) ∧ ∃ t, step (calling .engine (during .aEnable)) = .next t) ∧
    (Protocol polling ∧ ∃ t, step polling = .next t) ∧ (Protocol acknowledging ∧ ∃ t, step acknowledging = .next t) ∧
    (Protocol (calling .engine (during .xRdLo)) ∧ ∃ t, step (calling .engine (during .xRdLo)) = .next t) := by
  refine ⟨⟨?_, _, rfl⟩, ⟨?_, _, rfl⟩, ⟨?_, _, rfl⟩, ⟨?_, _, rfl⟩⟩ <;>
  refine ⟨alone_engine _, (fun id h => by cases h), rfl, rfl, rfl, by decide, by decide, by decide, by decide, by decide,
    by decide, ?_, by decide⟩
  · intro h; cases h
  · exact fun _ => ⟨rfl, rfl, fun h => by cases h⟩
  · exact fun _ => ⟨rfl, rfl, fun h => by cases h⟩
  · intro h; cases h

end Sys2Proof.Tests
end

section
/-! The proofs of the family `10_state.md`: what the bank's bits can never reach, what a step keeps of the marks, the
inputs and the binding, and the invariant `Inv` with its start. -/

namespace Sys2Proof.Machine

variable {s t u : State}

/-! ## Whose move a step is -/

/-- The three kinds of step: BANK runs the pending command; a halted target presents an owed cycle; the scheduled agent
moves (R107, R188). -/
theorem step_cases (h : step s = .next t) :
    bankStrobe s = .next t ∨ t = targetMove s ∨ agentMove (nextMove s) (s.setSchedule s.schedule.tail) = .next t := by
  cases hp : strobePending s with
  | true => exact .inl (step_of_pending s hp ▸ h)
  | false =>
    rw [step_of_seen s hp, scheduledMove] at h
    split at h
    · cases h; exact .inr (.inl rfl)
    · exact .inr (.inr h)

/-- Out of `Armed`, ENGINE writes SS_ENABLE(1) and consumes the pending input byte (R218). -/
theorem engineRow_xSs (hx : s.engine.phase = .xSs) :
    engineRow s = writeNamed .ssEnable true ((discardInput (s.enter .stopped)).goto .xBp) := by
  simp only [engineRow, hx]

/-- A write of the port leaves alone what no command touches (R106). -/
theorem writeWord_frame {w : Cmd5} (h : writeWord w s = .next t) : CommandFrame (onPort w s) t :=
  exec_frame ((writeWord_eq s w).symm.trans h)

/-- BANK writes STROBE_SEEN, and leaves alone what no command touches (R107). -/
theorem bankStrobe_frame (h : bankStrobe s = .next t) :
    CommandFrame (s.setBank { s.bank with strobeSeen := s.port.strobe }) t := exec_frame h

/-- What a requester's move can be: an operation of the bus's owner, the end of its `read16`, an acquisition of the free
bus, or nothing but an answer (R66, R68). -/
theorem masterMove_cases {id : Nat} {op : MasterOp} (h : masterMove id op s = .next t) :
    (s.engine.busOwner = some (.other id) ∧ s.engine.halfRead = none ∧ ownerMove op s = .next t) ∨
    (∃ sel, s.engine.busOwner = some (.other id) ∧ t = finishRead16 sel s) ∨
    (s.engine.busOwner = none ∧ t = setOwner (some (.other id)) s) ∨
    t = s.answer .notGranted := by
  by_cases ho : s.engine.busOwner = some (.other id)
  · cases hr : s.engine.halfRead with
    | none => exact .inl ⟨ho, rfl, masterMove_owner s op ho hr ▸ h⟩
    | some sel =>
      rw [masterMove_reading s op ho hr] at h
      split at h <;> cases h
      · exact .inr (.inl ⟨sel, ho, rfl⟩)
      · exact .inr (.inr (.inr rfl))
  · by_cases ha : op = .acquire ∧ s.engine.busOwner = none
    · obtain ⟨rfl, hn⟩ := ha
      rw [masterMove_acquire s id hn] at h
      cases h
      exact .inr (.inr (.inl ⟨hn, rfl⟩))
    · rw [masterMove_denied s ho (not_and_or.1 ha)] at h
      cases h
      exact .inr (.inr (.inr rfl))

/-! ## Marks, inputs and binding -/

/-- The marks, ENV's two flags and the binding, from one state to a later one: no mark is cleared, and the rest is as
it was. -/
structure Steady (s t : State) : Prop where
  binding : t.binding = s.binding
  intr : t.env.intr = s.env.intr
  rxPending : t.env.rxPending = s.env.rxPending
  overflow : s.marks.overflow = true → t.marks.overflow = true
  refused : s.marks.refused = true → t.marks.refused = true

/-- Only the first state's binding, inputs and marks count. -/
theorem Steady.of_prior (h : Steady t u) (hb : t.binding = s.binding) (he : t.env = s.env) (hm : t.marks = s.marks) :
    Steady s u :=
  ⟨hb ▸ h.binding, he ▸ h.intr, he ▸ h.rxPending, hm ▸ h.overflow, hm ▸ h.refused⟩

/-- Where the binding, the inputs and the marks are not touched. -/
theorem Steady.of_eq (hb : t.binding = s.binding) (he : t.env = s.env) (hm : t.marks = s.marks) : Steady s t :=
  Steady.of_prior ⟨rfl, rfl, rfl, id, id⟩ hb he hm

theorem CommandFrame.steady (h : CommandFrame s t) : Steady s t :=
  ⟨h.binding, h.intr, h.rxPending, h.overflow, h.refused⟩

theorem CallFrame.steady (h : CallFrame s t) : Steady s t :=
  ⟨h.binding, h.env ▸ rfl, h.env ▸ rfl, h.overflow.trans, h.refused⟩

theorem markRefused_steady (s : State) : Steady s s.markRefused := (markRefused_call s).steady

theorem writeWord_steady {w : Cmd5} (h : writeWord w s = .next t) : Steady s t :=
  (writeWord_frame h).steady.of_prior rfl rfl rfl

theorem writeNamed_steady {n : CmdName} {p : Bool} (h : writeNamed n p s = .next t) : Steady s t :=
  writeWord_steady h

/-- Every engine row but X_SS, the one in which an input byte is consumed (R218, R223). -/
theorem engineRow_steady (hx : s.engine.phase ≠ .xSs) (h : engineRow s = .next t) : Steady s t := by
  revert h
  unfold engineRow
  cases hp : s.engine.phase <;> intro h
  case xSs => exact absurd hp hx
  case idle =>
    cases h
    unfold rowIdle
    split <;> exact .of_eq rfl rfl rfl
  case aBit => exact (writeNamed_steady h).of_prior (countBit_binding s) (countBit_env s) (countBit_marks s)
  case sRdLo | sRdHi | pWait | pStatus | hIaLo | hIaHi | hTaLo | hTaHi | hMode | xRdLo | xRdHi =>
    cases h
    exact .of_eq rfl rfl rfl
  case sPulse | cPrestep | aDisable | aEnable | cRelease | hAck | xBp | uSs | uBp | uFifo | uRstOn | uRstOff | rRstOn
      | rRstOff =>
    exact (writeNamed_steady h).of_prior rfl rfl rfl

theorem ownerMove_steady {op : MasterOp} (h : ownerMove op s = .next t) : Steady s t := by
  cases op with
  | command w => exact writeWord_steady h
  | read16 sel =>
    cases h
    unfold masterRead16
    split
    · exact markRefused_steady s
    · exact .of_eq rfl rfl rfl
  | acquire => cases h; exact .of_eq rfl rfl rfl
  | release => cases h; exact .of_eq rfl rfl rfl
  | read8 sel => cases h; exact .of_eq rfl rfl rfl
  | read16High => cases h; exact .of_eq rfl rfl rfl
  | status => cases h; exact .of_eq rfl rfl rfl

theorem masterMove_steady {id : Nat} {op : MasterOp} (h : masterMove id op s = .next t) : Steady s t := by
  obtain ⟨-, -, hm⟩ | ⟨sel, -, rfl⟩ | ⟨-, rfl⟩ | rfl := masterMove_cases h
  · exact ownerMove_steady hm
  · exact .of_eq rfl rfl rfl
  · exact .of_eq rfl rfl rfl
  · exact .of_eq rfl rfl rfl

/-- What a step does to the marks, the inputs and the binding: nothing but to set a mark, or ENV makes its move, or X_SS
consumes the input byte. -/
theorem step_steady_cases (h : step s = .next t) :
    Steady s t ∨
    (∃ a, nextMove s = .env a ∧ t = envMove a (s.setSchedule s.schedule.tail)) ∨
    (nextMove s = .engine ∧ s.engine.phase = .xSs ∧ Steady (discardInput s) t) := by
  obtain hb | rfl | ha := step_cases h
  · exact .inl ((bankStrobe_frame hb).steady.of_prior rfl rfl rfl)
  · exact .inl (targetMove_frame s).command.steady
  cases hm : nextMove s <;> rw [hm] at ha
  case engine =>
    by_cases hx : s.engine.phase = .xSs
    · have hw := (engineRow_xSs (s := s.setSchedule s.schedule.tail) hx).symm.trans ha
      exact .inr (.inr ⟨rfl, hx, (writeNamed_steady hw).of_prior rfl rfl rfl⟩)
    · exact .inl ((engineRow_steady (s := s.setSchedule s.schedule.tail) hx ha).of_prior rfl rfl rfl)
  case target => cases ha; exact .inl ((targetMove_frame _).command.steady.of_prior rfl rfl rfl)
  case env a => cases ha; exact .inr (.inl ⟨a, rfl, rfl⟩)
  case driver op => cases ha; exact .inl ((driverMove_frame _ op).steady.of_prior rfl rfl rfl)
  case external c => cases ha; exact .inl ((driverMove_frame _ _).steady.of_prior rfl rfl rfl)
  case master id op => exact .inl ((masterMove_steady ha).of_prior rfl rfl rfl)

/-- ENV's move changes INTR only to the level it drives. -/
theorem envMove_intr (a : EnvAct) (s : State) :
    (envMove a s).env.intr = s.env.intr ∨ ∃ level, a = .intr level ∧ (envMove a s).env.intr = level := by
  cases a with
  | intr level => exact .inr ⟨level, rfl, rfl⟩
  | triggers t0 t1 => exact .inl rfl
  | rxPending level => exact .inl rfl
  | targetInstr i => exact .inl rfl

/-- ENV's move changes RX_PENDING only to the level it drives. -/
theorem envMove_rxPending (a : EnvAct) (s : State) :
    (envMove a s).env.rxPending = s.env.rxPending ∨
      ∃ level, a = .rxPending level ∧ (envMove a s).env.rxPending = level := by
  cases a with
  | rxPending level => exact .inr ⟨level, rfl, rfl⟩
  | intr level => exact .inl rfl
  | triggers t0 t1 => exact .inl rfl
  | targetInstr i => exact .inl rfl

/-- Settles O29: by the three kinds of step of `step_steady_cases`. -/
theorem stepsKeepMarksInputsAndBinding : Obligations.StepsKeepMarksInputsAndBinding := by
  intro s t h
  obtain k | ⟨a, hm, rfl⟩ | ⟨hm, hx, k⟩ := step_steady_cases h
  · exact ⟨k.overflow, k.refused, fun hn => absurd k.intr hn, fun hn => absurd k.rxPending hn, k.binding⟩
  · have hi := envMove_intr a (s.setSchedule s.schedule.tail)
    have hr := envMove_rxPending a (s.setSchedule s.schedule.tail)
    refine ⟨by simp, by simp, fun hn => ?_, fun hn => .inl ?_, by simp⟩
    · obtain ⟨level, rfl, hl⟩ := hi.resolve_left hn
      exact ⟨level, hm, hl⟩
    · obtain ⟨level, rfl, hl⟩ := hr.resolve_left hn
      exact ⟨level, hm, hl⟩
  · have pending (hn : t.env.rxPending ≠ s.env.rxPending) : s.env.rxPending = true :=
      Bool.eq_true_of_not_eq_false fun hf => hn (k.rxPending.trans hf.symm)
    exact ⟨k.overflow, k.refused, fun hn => absurd k.intr hn, fun hn => .inr ⟨hm, hx, pending hn, k.rxPending⟩, k.binding⟩

/-! ## What the bank's bits never reach -/

/-- The register file shows IA and the pending events, and nothing else of the bank (R137 to R139). -/
theorem regValue_congr (m : MuxMap) (fresh : Byte) (sel : Sel4) {b b' : Bank} (hia : b.ia = b'.ia)
    (hevq : b.evq = b'.evq) : regValue m fresh sel b = regValue m fresh sel b' := by
  unfold regValue
  rw [hia, hevq]

/-- The status byte shows INTR and whether an event is pending, and nothing else of the block (R94). -/
theorem statusByte_congr (fresh : Byte) (hb : t.binding = s.binding) (he : t.env = s.env)
    (hevq : t.bank.evq = s.bank.evq) : statusByte fresh t = statusByte fresh s := by
  unfold statusByte Bank.active
  rw [hb, he, hevq]

/-- Settles O37: BPSR is neither IA nor the event queue, and no other part of the bank is shown. -/
theorem bankIsNeverReadable : Obligations.BankIsNeverReadable := fun s _ sel =>
  ⟨regValue_congr s.binding.mux s.fresh sel rfl rfl, statusByte_congr s.fresh rfl rfl rfl⟩

/-! ## Power-on -/

/-- At power-on the engine is idle, the bus free and the store empty (R36, R39, R40, R43). -/
theorem PowerOn.inv (h : PowerOn s) : Inv s where
  events := h.events
  store := h.store ▸ storeWf_nil
  ecState := by rw [h.ecState, h.phase]; rfl
  owner := by simp [h.owner, h.phase]
  boot := fun _ => .inl h.phase
  counters := ⟨h.bitCnt, h.slotCnt⟩
  pushing := by simp [h.phase]
  pulses := by simp [h.phase]
  halfRead := by simp [h.halfRead]

/-- The protocol's clauses are about operations in progress or a block that has been started; at power-on there is
neither (R43, R302). -/
theorem PowerOn.protocol (h : PowerOn s) (alone : ∀ m ∈ s.schedule, ∀ id op, m ≠ .master id op) : Protocol s where
  alone := alone
  owner := by simp [h.owner]
  seen := h.noCommand
  ecState := h.inv.ecState
  boot := by simp [h.started, h.phase]
  afterSs := by simp [h.phase]
  afterBp := by simp [h.phase]
  inReset := by simp [h.phase]
  stepping := by simp [h.started]
  handling := by simp [h.phase]
  acking := by simp [h.phase]
  armed := by simp [h.ecState]
  stopped := by simp [h.ecState]

theorem powerOn_reset : PowerOn State.reset :=
  ⟨rfl, Nat.zero_le _, rfl, rfl, rfl, rfl, rfl, Nat.zero_le _, Nat.zero_le _, rfl⟩

/-- Settles O59: the reset state is one of the power-on states, and its schedule is empty. -/
theorem invariantsHoldAtPowerOn : Obligations.InvariantsHoldAtPowerOn :=
  ⟨fun _ => PowerOn.inv, fun _ => PowerOn.protocol, powerOn_reset, powerOn_reset.inv,
    powerOn_reset.protocol (by simp [State.reset])⟩

/-! ## The store operations keep a well-formed store well-formed (R242) -/

/-- A new entry with some mode goes into a store that has room and none at its address (R246). -/
theorem insertEntry_wf {st : List Entry} {e : Entry} (hs : StoreWf st) (hn : findEntry st e.address = none)
    (hl : st.length < storeCapacity) (hm : e.mode ≠ 0) : StoreWf (insertEntry e st) := by
  obtain ⟨hsorted, -, hmodes⟩ := hs
  refine ⟨insertEntry_sorted e hsorted (findEntry_none.1 hn), (length_insertEntry e st).trans_le hl, fun x hx => ?_⟩
  obtain rfl | hx := (mem_insertEntry e x st).1 hx
  · exact hm
  · exact hmodes x hx

theorem setBreakpoint_wf {st : List Entry} {a : Addr} {m : Mode6} {x : Option Nat} {r : Reply} (hs : StoreWf st)
    (h : setBreakpoint st a m x = some r) : StoreWf r.store := by
  unfold setBreakpoint at h
  split at h
  · cases h
  next hm =>
  split at h
  · cases h; exact hs
  split at h
  · split at h <;> cases h
    · exact hs
    · have ⟨_, _, hmodes⟩ := hs
      exact updateAt_wf hs fun e he _ => ⟨rfl, fun h0 => hmodes e he (BitVec.or_eq_zero_iff.1 h0).1⟩
  next hf =>
  split at h <;> cases h
  next hl => exact insertEntry_wf hs hf hl hm
  · exact hs

theorem clearMode_wf {st : List Entry} (hs : StoreWf st) (a : Addr) (m : Mode6) : StoreWf (clearMode st a m).store := by
  unfold clearMode
  split
  · exact hs
  next e he =>
  split
  · exact hs
  split
  · exact filter_wf hs _
  next hm =>
  obtain ⟨hmem, hadr⟩ := findEntry_some he
  exact updateAt_wf hs fun x hx hxa => ⟨rfl, hs.unique hx hmem (hxa.trans hadr.symm) ▸ hm⟩

theorem setTrigger_wf {st : List Entry} (hs : StoreWf st) (choice : Bool) (i code : Nat) :
    StoreWf (setTrigger choice st i code).store := by
  unfold setTrigger
  split
  next e he =>
    split
    · exact hs
    · exact set_wf hs he rfl rfl
  · exact hs

theorem triggerAt_wf {st : List Entry} (hs : StoreWf st) (choice : Bool) (a : Addr) (code : Nat) :
    StoreWf (triggerAt choice st a code).store := setTrigger_wf hs choice _ code

/-! ## The invariant: moves that leave ENGINE and the store alone -/

/-- `Inv` speaks of the queue's length, ENGINE's registers and the store. -/
theorem Inv.of_frame (h : Inv s) (hq : t.bank.evq.length ≤ Config.fifoDepth) (he : t.engine = s.engine)
    (hs : t.store = s.store) : Inv t where
  events := hq
  store := hs ▸ h.store
  ecState := he ▸ h.ecState
  owner := he ▸ h.owner
  boot := he ▸ h.boot
  counters := he ▸ h.counters
  pushing := by rw [he, hs]; exact h.pushing
  pulses := he ▸ h.pulses
  halfRead := he ▸ h.halfRead

theorem exec_keeps_inv {i : Instr} (h : Inv s) (hx : exec i s = .next t) : Inv t :=
  h.of_frame (exec_bounded hx h.events) (exec_frame hx).engine (exec_frame hx).store

theorem bankStrobe_keeps_inv (h : Inv s) (hx : bankStrobe s = .next t) : Inv t :=
  exec_keeps_inv (s := s.setBank { s.bank with strobeSeen := s.port.strobe }) (h.of_frame h.events rfl rfl) hx

theorem writeWord_keeps_inv {w : Cmd5} (h : Inv s) (hx : writeWord w s = .next t) : Inv t :=
  exec_keeps_inv (s := onPort w s) (h.of_frame h.events rfl rfl) ((writeWord_eq s w).symm.trans hx)

theorem writeNamed_keeps_inv {n : CmdName} {p : Bool} (h : Inv s) (hx : writeNamed n p s = .next t) : Inv t :=
  writeWord_keeps_inv h hx

theorem targetMove_keeps_inv (h : Inv s) : Inv (targetMove s) :=
  h.of_frame (targetMove_bounded s h.events) (targetMove_frame s).engine (targetMove_frame s).store

theorem envMove_keeps_inv (h : Inv s) (a : EnvAct) : Inv (envMove a s) :=
  h.of_frame (by simpa using h.events) (envMove_engine s a) (envMove_store s a)

theorem Inv.answer (h : Inv s) (r : Result) : Inv (s.answer r) := h.of_frame h.events rfl rfl

theorem Inv.markRefused (h : Inv s) : Inv s.markRefused := h.of_frame h.events rfl rfl

theorem Inv.raise (h : Inv s) (f : Failure) : Inv (s.raise f) := h.of_frame h.events rfl rfl

/-! ## The invariant: who has the bus -/

/-- ENGINE is idle unless it owns the bus (R67). -/
theorem Inv.idle_of_owner (h : Inv s) (ho : s.engine.busOwner ≠ some .engine) : s.engine.phase = .idle :=
  not_not.1 (mt h.owner.2 ho)

/-- No `read16` of another requester is in progress while none of them owns the bus (R66). -/
theorem Inv.noRead (h : Inv s) (ho : ∀ id, s.engine.busOwner ≠ some (.other id)) : s.engine.halfRead = none := by
  cases hr : s.engine.halfRead with
  | none => rfl
  | some sel =>
    obtain ⟨-, id, hid⟩ := h.halfRead sel hr
    exact absurd hid (ho id)

/-- With ENGINE idle and no `read16` in progress the bus may pass to another requester or to nobody (R66). -/
theorem Inv.setOwner (h : Inv s) {o : Option Requester} (hi : s.engine.phase = .idle)
    (hr : s.engine.halfRead = none) (ho : o ≠ some .engine) : Inv (setOwner o s) where
  __ := h
  owner := iff_of_false ho (not_not.2 hi)
  halfRead := fun _ hs => nomatch hr.symm.trans hs

/-- What `Inv` says of an operation in progress, wherever ENGINE stands in it. -/
structure Running (s : State) : Prop where
  events : s.bank.evq.length ≤ Config.fifoDepth
  store : StoreWf s.store
  owner : s.engine.busOwner = some .engine
  counters : s.engine.bitCnt ≤ 26 ∧ s.engine.slotCnt ≤ 8
  noRead : s.engine.halfRead = none

theorem Inv.running (h : Inv s) (hp : s.engine.phase ≠ .idle) : Running s where
  __ := h
  owner := h.owner.2 hp
  noRead := h.noRead fun id => by simp [h.owner.2 hp]

/-- ENGINE may take a bus that is free (R66, R67). -/
theorem Inv.running_of_free (h : Inv s) (hf : s.engine.busOwner = none) :
    Running (Machine.setOwner (some .engine) s) where
  __ := h
  owner := rfl
  noRead := h.noRead fun id => by simp [hf]

/-- ENGINE goes on to the position p, or ends its operation there: `Inv` asks for what p calls for. -/
theorem Running.goto (h : Running s) (p : Phase) (hec : s.engine.ecState = p.ecState)
    (hboot : s.engine.started = true ∨ p.isStartup = true)
    (hpush : p = .aBit → s.engine.bitCnt < 26 ∧ s.engine.slotCnt < 8 ∧
      s.engine.shreg = slotWord s.store s.engine.slotCnt >>> s.engine.bitCnt := by nofun)
    (hpulse : p = .sPulse → s.engine.stepIdx < s.engine.stepCount := by nofun) : Inv (s.goto p) where
  __ := h
  ecState := hec
  owner := by
    by_cases hp : p = .idle
    · simp [hp]
    · simp [hp, h.owner]
  boot := fun hs => .inr (hboot.resolve_left (by simpa using hs))
  pushing := hpush
  pulses := hpulse
  halfRead := fun _ hs => nomatch h.noRead.symm.trans hs

/-! ## The invariant: ENGINE's rows

`Running` speaks neither of EC_STATE and the phase nor of the registers that ENGINE's reads fill (R36, R133). -/

theorem Running.readLow (h : Running s) (sel : Sel4) : Running (readLow sel s) := { h with }

theorem Running.traceIa (h : Running s) : Running (traceIa s) := { h with }

theorem Running.latchIa (h : Running s) : Running (latchIa s) := { h with }

theorem Running.latchTa (h : Running s) : Running (latchTa s) := { h with }

theorem Running.latchMode (h : Running s) (sel : Sel4) (m : Byte) (r : Report) :
    Running (((selected sel s).setEngine { s.engine with rMode := m }).emit r) := { h with }

theorem Running.countPulse (h : Running s) (i : Nat) : Running (s.setEngine { s.engine with stepIdx := i }) := { h with }

theorem Running.start (h : Running s) :
    Running ((s.setStore []).setEngine { s.engine with started := true, ecState := .stepping }) :=
  { h with store := storeWf_nil }

theorem Running.readStatus (h : Running s) : Running (readStatus s) := { h with }

theorem Running.enter (h : Running s) (e : EcState) : Running (s.enter e) := { h with }

theorem Running.discardInput (h : Running s) : Running (discardInput s) := { h with }

theorem Running.setPush (h : Running s) {b k : Nat} (w : BpWord) (hb : b ≤ 26) (hk : k ≤ 8) :
    Running (s.setEngine { s.engine with shreg := w, bitCnt := b, slotCnt := k }) :=
  { h with counters := ⟨hb, hk⟩ }

theorem Running.loadWord (h : Running s) {k : Nat} (hk : k < 8) : Running (loadWord k s) :=
  h.setPush _ (Nat.zero_le _) hk.le

/-- Within the words of an arm: bit b of the word of slot k is next (R153, R155). -/
theorem Inv.setPush (h : Inv s) {b k : Nat} {w : BpWord} (hp : s.engine.phase = .aBit) (hb : b < 26) (hk : k < 8)
    (hw : w = slotWord s.store k >>> b) :
    Inv (s.setEngine { s.engine with shreg := w, bitCnt := b, slotCnt := k }) where
  __ := h
  counters := ⟨hb.le, hk.le⟩
  pushing := fun _ => ⟨hb, hk, hw⟩
  pulses := fun hq => nomatch hp.symm.trans hq

/-- One bit of an arm: the next bit of the word, the first of the next word, or the end of the last word. -/
theorem countBit_keeps_inv (h : Inv s) (hp : s.engine.phase = .aBit) (hst : s.engine.started = true) :
    Inv (countBit s) := by
  obtain ⟨hb, hk, hw⟩ := h.pushing hp
  by_cases hb' : s.engine.bitCnt + 1 < 26
  · rw [countBit_within s hb']
    exact h.setPush hp hb' hk (by rw [hw, BitVec.shiftRight_add])
  by_cases hk' : s.engine.slotCnt + 1 < 8
  · rw [countBit_word s hb' hk']
    exact h.setPush hp (by omega) hk' (BitVec.ushiftRight_zero _).symm
  · rw [countBit_last s hb' hk']
    have hec := h.ecState
    rw [hp] at hec
    exact ((h.running (hp ▸ nofun)).setPush _ hb hk).goto .aEnable hec (.inl hst)

theorem rowIdle_keeps_inv (h : Inv s) : Inv (rowIdle s) := by
  unfold rowIdle
  split
  · exact h
  next hf =>
  have ⟨_, ho⟩ : s.engine.started = false ∧ s.engine.busOwner = none := by simpa using hf
  have hec : s.engine.ecState = .stepping := by rw [h.ecState, h.idle_of_owner (by simp [ho])]; rfl
  exact (h.running_of_free ho).goto .uSs hec (.inr rfl)

/-- Where a `step` goes on after its i-th pulse (R206, R223). -/
theorem Running.goto_afterPulse (h : Running s) (hec : s.engine.ecState = .stepping) (hst : s.engine.started = true) :
    Inv (s.goto (afterPulse s.engine.stepCount s.engine.stepIdx)) := by
  unfold afterPulse
  split
  next hi => exact h.goto .sPulse hec (.inl hst) nofun fun _ => hi
  · exact h.goto .idle hec (.inl hst)

/-- Where the poll loop goes on from an iteration that leaves no breakpoint (R212). -/
theorem Running.goto_pollOn (h : Running s) (poll : State) (hec : s.engine.ecState = .armed)
    (hst : s.engine.started = true) : Inv (s.goto (pollOn poll)) := by
  unfold pollOn
  split
  · exact h.goto .xSs hec (.inl hst)
  · exact h.goto .pWait hec (.inl hst)

theorem rowStatus_keeps_inv (h : Running s) (hec : s.engine.ecState = .armed) (hst : s.engine.started = true) :
    Inv (rowStatus s) := by
  unfold rowStatus
  dsimp only
  split
  · exact h.readStatus.goto .hIaLo hec (.inl hst)
  · exact h.readStatus.goto_pollOn _ hec hst

theorem rowMode_keeps_inv (h : Running s) (hec : s.engine.ecState = .armed) (hst : s.engine.started = true) :
    Inv (rowMode s) := by
  unfold rowMode
  dsimp only
  split
  · exact (h.latchMode _ _ _).goto .hAck hec (.inl hst)
  · exact (h.latchMode _ _ _).goto .xSs hec (.inl hst)

theorem rowPulse_keeps_inv (h : Running s) (hec : s.engine.ecState = .stepping) (hst : s.engine.started = true)
    (hr : rowPulse s = .next t) : Inv t := by
  have counted := h.countPulse (s.engine.stepIdx + 1)
  refine writeNamed_keeps_inv ?_ hr
  split
  · exact counted.goto .sRdLo hec (.inl hst)
  · exact counted.goto_afterPulse hec hst

theorem rowStarted_keeps_inv (h : Running s) (hr : rowStarted s = .next t) : Inv t :=
  writeNamed_keeps_inv (h.start.goto .idle rfl (.inl rfl)) hr

/-- ENGINE's rows: the start-up rows lead to one another, every other row needs `startup()` to be over, and each goes to
a position with the EC_STATE it enters. -/
theorem engineRow_keeps_inv (h : Inv s) (hr : engineRow s = .next t) : Inv t := by
  have ec := h.ecState
  have boot := h.boot
  have busy := h.running
  revert hr
  unfold engineRow
  cases hp : s.engine.phase <;> intro hr <;> rw [hp] at ec boot busy
  case idle => cases hr; exact rowIdle_keeps_inv h
  case uSs => exact writeNamed_keeps_inv ((busy nofun).goto .uBp ec (.inr rfl)) hr
  case uBp => exact writeNamed_keeps_inv ((busy nofun).goto .uFifo ec (.inr rfl)) hr
  case uFifo => exact writeNamed_keeps_inv ((busy nofun).goto .uRstOn ec (.inr rfl)) hr
  case uRstOn => exact writeNamed_keeps_inv ((busy nofun).goto .uRstOff ec (.inr rfl)) hr
  case uRstOff => exact rowStarted_keeps_inv (busy nofun) hr
  all_goals
    have run := busy nofun
    have up : s.engine.started = true := Bool.eq_true_of_not_eq_false fun hf => by simpa [Phase.isStartup] using boot hf
  case rRstOn => exact writeNamed_keeps_inv (run.goto .rRstOff ec (.inl up)) hr
  case rRstOff => exact writeNamed_keeps_inv (run.goto .idle ec (.inl up)) hr
  case sPulse => exact rowPulse_keeps_inv run ec up hr
  case sRdLo => cases hr; exact (run.readLow _).goto .sRdHi ec (.inl up)
  case sRdHi => cases hr; exact run.traceIa.goto_afterPulse ec up
  case cPrestep => exact writeNamed_keeps_inv (run.goto .aDisable ec (.inl up)) hr
  case aDisable =>
    have bit0 (_ : Phase.aBit = .aBit) : 0 < 26 ∧ 0 < 8 ∧ slotWord s.store 0 = slotWord s.store 0 >>> 0 :=
      ⟨by decide, by decide, (BitVec.ushiftRight_zero _).symm⟩
    exact writeNamed_keeps_inv ((run.loadWord (by decide)).goto .aBit ec (.inl up) bit0) hr
  case aBit => exact writeNamed_keeps_inv (countBit_keeps_inv h hp up) hr
  case aEnable => exact writeNamed_keeps_inv (run.goto .cRelease ec (.inl up)) hr
  case cRelease => exact writeNamed_keeps_inv ((run.enter .armed).goto .pWait rfl (.inl up)) hr
  case pWait => cases hr; exact run.goto .pStatus ec (.inl up)
  case pStatus => cases hr; exact rowStatus_keeps_inv run ec up
  case hIaLo => cases hr; exact (run.readLow _).goto .hIaHi ec (.inl up)
  case hIaHi => cases hr; exact run.latchIa.goto .hTaLo ec (.inl up)
  case hTaLo => cases hr; exact (run.readLow _).goto .hTaHi ec (.inl up)
  case hTaHi => cases hr; exact run.latchTa.goto .hMode ec (.inl up)
  case hMode => cases hr; exact rowMode_keeps_inv run ec up
  case hAck => exact writeNamed_keeps_inv (run.goto_pollOn s ec up) hr
  case xSs => exact writeNamed_keeps_inv ((run.enter .stopped).discardInput.goto .xBp rfl (.inl up)) hr
  case xBp => exact writeNamed_keeps_inv (run.goto .xRdLo ec (.inl up)) hr
  case xRdLo => cases hr; exact (run.readLow _).goto .xRdHi ec (.inl up)
  case xRdHi => cases hr; exact (run.traceIa.enter .stepping).goto .idle rfl (.inl up)

/-! ## The invariant: the DRIVER's calls -/

theorem acceptsCall_iff : acceptsCall s = true ↔
    s.engine.started = true ∧ s.engine.ecState = .stepping ∧ s.engine.phase = .idle := by
  simp [acceptsCall, and_assoc]

/-- The test of a call that begins an operation: ENGINE accepts it and the bus is free (R66 to R68). -/
theorem acceptsCall_and_free (h : (acceptsCall s && s.engine.busOwner.isNone) = true) :
    s.engine.started = true ∧ s.engine.ecState = .stepping ∧ s.engine.busOwner = none := by
  rw [Bool.and_eq_true, acceptsCall_iff, Option.isNone_iff_eq_none] at h
  obtain ⟨⟨hst, hec, -⟩, ho⟩ := h
  exact ⟨hst, hec, ho⟩

theorem callStep_keeps_inv (h : Inv s) (count traceEvery : Nat) : Inv (callStep count traceEvery s) := by
  unfold callStep
  split
  · exact h.raise _
  split
  · exact h.markRefused
  next hcount =>
  split
  next hacc =>
    obtain ⟨hst, hec, ho⟩ := acceptsCall_and_free hacc
    have run := h.running_of_free ho
    exact Running.goto (s := Machine.setOwner (some .engine)
        (s.setEngine { s.engine with stepIdx := 0, stepCount := count, traceEvery := traceEvery }))
      { run with } .sPulse hec (.inl hst) nofun fun _ => Nat.pos_of_ne_zero hcount
  · exact h.answer _

theorem beginCall_keeps_inv (h : Inv s) (p : Phase) (hp : p = .cPrestep ∨ p = .rRstOn) : Inv (beginCall p s) := by
  unfold beginCall
  split
  next hacc =>
    obtain ⟨hst, hec, ho⟩ := acceptsCall_and_free hacc
    have run := h.running_of_free ho
    obtain rfl | rfl := hp
    · exact run.goto .cPrestep hec (.inl hst)
    · exact run.goto .rRstOn hec (.inl hst)
  · exact h.answer _

theorem callContinue_keeps_inv (h : Inv s) : Inv (callContinue s) := by
  unfold callContinue
  split
  · exact h.raise _
  split
  · exact h.markRefused
  · exact beginCall_keeps_inv h _ (.inl rfl)

theorem callReset_keeps_inv (h : Inv s) : Inv (callReset s) := by
  unfold callReset
  split
  · exact h.raise _
  · exact beginCall_keeps_inv h _ (.inr rfl)

/-- While ENGINE is idle no word of the store is being sent. -/
theorem Inv.setStore (h : Inv s) {st : List Entry} (hst : StoreWf st) (hp : s.engine.phase = .idle) :
    Inv (s.setStore st) :=
  { h with store := hst, pushing := fun hq => nomatch hp.symm.trans hq }

/-- A store operation that ENGINE accepts comes while no word of the store is being sent (R240, D50). -/
theorem callStore_keeps_inv (h : Inv s) {r : Option Reply} (hr : ∀ x, r = some x → StoreWf x.store) :
    Inv (callStore r s) := by
  unfold callStore
  split
  next hacc =>
    obtain ⟨-, -, hp⟩ := acceptsCall_iff.1 hacc
    cases r with
    | none => exact h.markRefused
    | some x =>
      dsimp only
      rw [applyReply_eq]
      exact (h.setStore (hr x rfl) hp).of_frame h.events rfl rfl
  · exact h.answer _

theorem driverMove_keeps_inv (h : Inv s) (op : DriverOp) : Inv (driverMove op s) := by
  have drawn : Inv s.drawn := h.of_frame h.events rfl rfl
  have some_wf {x : Reply} (hx : StoreWf x.store) : ∀ y, some x = some y → StoreWf y.store := by
    rintro _ ⟨⟩; exact hx
  cases op with
  | step count traceEvery => exact callStep_keeps_inv h count traceEvery
  | continueExecution => exact callContinue_keeps_inv h
  | reset => exact callReset_keeps_inv h
  | setBreakpoint a m x => exact callStore_keeps_inv h fun _ => setBreakpoint_wf h.store
  | clearMode a m => exact callStore_keeps_inv h (some_wf (clearMode_wf h.store a m))
  | setTrigger i code => exact callStore_keeps_inv drawn (some_wf (setTrigger_wf h.store _ i code))
  | triggerAt a code => exact callStore_keeps_inv drawn (some_wf (triggerAt_wf h.store _ a code))
  | findByAddress a => exact callStore_keeps_inv h (some_wf h.store)
  | indexValid i => exact callStore_keeps_inv h (some_wf h.store)
  | list => exact callStore_keeps_inv h (some_wf h.store)

/-! ## The invariant: other requesters -/

theorem masterRead16_keeps_inv {id : Nat} (h : Inv s) (ho : s.engine.busOwner = some (.other id)) (sel : Sel4) :
    Inv (masterRead16 sel s) := by
  unfold masterRead16
  split
  · exact h.markRefused
  next hsel =>
  exact { h with halfRead := by rintro _ ⟨⟩; exact ⟨hsel, id, ho⟩ }

theorem finishRead16_keeps_inv (h : Inv s) (sel : Sel4) : Inv (finishRead16 sel s) :=
  { h with halfRead := nofun }

theorem readStatus_keeps_inv (h : Inv s) : Inv (readStatus s) := { h with }

theorem ownerMove_keeps_inv {id : Nat} {op : MasterOp} (h : Inv s) (ho : s.engine.busOwner = some (.other id))
    (hn : s.engine.halfRead = none) (hm : ownerMove op s = .next t) : Inv t := by
  cases op with
  | acquire => cases hm; exact h
  | release => cases hm; exact h.setOwner (h.idle_of_owner (by simp [ho])) hn nofun
  | command w => exact writeWord_keeps_inv h hm
  | read8 sel => cases hm; exact h.of_frame h.events rfl rfl
  | read16 sel => cases hm; exact masterRead16_keeps_inv h ho sel
  | read16High => cases hm; exact h.answer _
  | status => cases hm; exact (readStatus_keeps_inv h).answer _

theorem masterMove_keeps_inv {id : Nat} {op : MasterOp} (h : Inv s) (hm : masterMove id op s = .next t) : Inv t := by
  obtain ⟨ho, hn, hm⟩ | ⟨sel, -, rfl⟩ | ⟨ho, rfl⟩ | rfl := masterMove_cases hm
  · exact ownerMove_keeps_inv h ho hn hm
  · exact finishRead16_keeps_inv h sel
  · exact h.setOwner (h.idle_of_owner (by simp [ho])) (h.noRead fun id => by simp [ho]) nofun
  · exact h.answer _

/-! ## The invariant: a step -/

theorem agentMove_keeps_inv {m : Move} (h : Inv s) (hm : agentMove m s = .next t) : Inv t := by
  cases m with
  | engine => exact engineRow_keeps_inv h hm
  | target => cases hm; exact targetMove_keeps_inv h
  | env a => cases hm; exact envMove_keeps_inv h a
  | driver op => cases hm; exact driverMove_keeps_inv h op
  | external c => cases hm; exact driverMove_keeps_inv h _
  | master id op => exact masterMove_keeps_inv h hm

/-- Settles O58: BANK's command, the halted target's cycle and each agent's move keep `Inv`. -/
theorem everyStepKeepsTheInvariant : Obligations.EveryStepKeepsTheInvariant := by
  intro s t h hs
  obtain hb | rfl | hm := step_cases hs
  · exact bankStrobe_keeps_inv h hb
  · exact targetMove_keeps_inv h
  · exact agentMove_keeps_inv (s := s.setSchedule s.schedule.tail) (h.of_frame h.events rfl rfl) hm

end Sys2Proof.Machine
end

section
/-! The proofs of the family `20_memory.md`: a requester's `read16` in its two moves, the registers it composes, and the
arbiter. -/

namespace Sys2Proof.Machine

variable {s u : State} {id : Nat} {sel : Sel4}

/-! ## The bytes of the register file -/

/-- A register's selector value is the binding's, which no step writes (R95). -/
theorem offset_congr (r : RegName) (h : u.binding = s.binding) : offset r u = offset r s := by
  rw [offset, h, offset]

theorem readValue_iaLo : readValue (offset .iaLo s) s = s.bank.ia.extractLsb' 0 8 := regValue_offset _ _ .iaLo _

section
variable (hb : u.binding = s.binding)
include hb

/-- The high byte is the present IA's, even where its selector value was computed in an earlier state (R58). -/
theorem readValue_iaHi : readValue (offset .iaLo s + 1) u = u.bank.ia.extractLsb' 8 8 := by
  rw [← offset_congr .iaLo hb]
  exact regValue_offset _ _ .iaHi _

variable {e : Event} {rest : List Event}

theorem readValue_hitIaHi (h : u.bank.evq = e :: rest) :
    readValue (offset .hitIaLo s + 1) u = e.hitIa.extractLsb' 8 8 := by
  rw [← offset_congr .hitIaLo hb]
  exact (regValue_offset _ _ .hitIaHi _).trans (by rw [h])

theorem readValue_hitTaHi (h : u.bank.evq = e :: rest) :
    readValue (offset .hitTaLo s + 1) u = e.hitTa.extractLsb' 8 8 := by
  rw [← offset_congr .hitTaLo hb]
  exact (regValue_offset _ _ .hitTaHi _).trans (by rw [h])

end

theorem readValue_hitIaLo {e : Event} {rest : List Event} (h : s.bank.evq = e :: rest) :
    readValue (offset .hitIaLo s) s = e.hitIa.extractLsb' 0 8 :=
  (regValue_offset _ _ .hitIaLo _).trans (by rw [h])

theorem readValue_hitTaLo {e : Event} {rest : List Event} (h : s.bank.evq = e :: rest) :
    readValue (offset .hitTaLo s) s = e.hitTa.extractLsb' 0 8 :=
  (regValue_offset _ _ .hitTaLo _).trans (by rw [h])

/-! ## The two moves of `read16` -/

section
variable (s) (h : sel ≠ 15)
include h

/-- Below selector 15 the first half is the low sub-read, and the high byte is still to be read (R58, R133, R134). -/
theorem masterRead16_eq :
    masterRead16 sel s = (readLow sel s).setEngine { (readLow sel s).engine with halfRead := some sel } := if_neg h

theorem masterRead16_rLo : (masterRead16 sel s).engine.rLo = readValue sel s := by rw [masterRead16_eq s h]; rfl
theorem masterRead16_halfRead : (masterRead16 sel s).engine.halfRead = some sel := by rw [masterRead16_eq s h]; rfl
theorem masterRead16_busOwner : (masterRead16 sel s).engine.busOwner = s.engine.busOwner := by
  rw [masterRead16_eq s h]; rfl
theorem masterRead16_binding : (masterRead16 sel s).binding = s.binding := by rw [masterRead16_eq s h]; rfl
theorem masterRead16_bank : (masterRead16 sel s).bank = s.bank := by rw [masterRead16_eq s h]; rfl
theorem masterRead16_out : (masterRead16 sel s).out = s.out := by rw [masterRead16_eq s h]; rfl

end

/-- The second half returns the high byte above R_LO (R52, R133). -/
theorem finishRead16_results :
    (finishRead16 sel s).out.results = s.out.results ++ [.word (readValue (sel + 1) s ++ s.engine.rLo)] := rfl

theorem finishRead16_rLo : (finishRead16 sel s).engine.rLo = s.engine.rLo := rfl
theorem finishRead16_muxsel : (finishRead16 sel s).port.muxsel = sel + 1 := rfl
theorem finishRead16_bank : (finishRead16 sel s).bank = s.bank := rfl

theorem masterMove_read16High (h : s.engine.busOwner = some (.other id)) (hr : s.engine.halfRead = some sel) :
    masterMove id .read16High s = .next (finishRead16 sel s) := by
  rw [masterMove_reading s _ h hr, if_pos rfl]

/-- Settles O35: the first half leaves bank and binding alone, so the second presents the high byte of the register whose
low byte the first put in R_LO. -/
theorem read16ReturnsTheWholeRegister : Obligations.Read16ReturnsTheWholeRegister := by
  intro id s sel ho hr hsel
  have hbind := masterRead16_binding s hsel
  have hbank := masterRead16_bank s hsel
  refine ⟨masterRead16 sel s, finishRead16 sel (masterRead16 sel s), masterMove_owner s _ ho hr,
    masterMove_read16High ((masterRead16_busOwner s hsel).trans ho) (masterRead16_halfRead s hsel), ?_,
    finishRead16_rLo.trans (masterRead16_rLo s hsel), finishRead16_muxsel, finishRead16_bank.trans hbank, ?_, ?_⟩
  · rw [finishRead16_results, masterRead16_rLo s hsel, masterRead16_out s hsel]
  · rintro rfl
    rw [readValue_iaLo, readValue_iaHi hbind, hbank, high_append_low]
  · intro e rest hq
    have hq' : (masterRead16 sel s).bank.evq = e :: rest := hbank ▸ hq
    constructor
    · rintro rfl
      rw [readValue_hitIaLo hq, readValue_hitIaHi hbind hq', high_append_low]
    · rintro rfl
      rw [readValue_hitTaLo hq, readValue_hitTaHi hbind hq', high_append_low]

/-- Settles O36: the FETCH moves IA and leaves ENGINE's R_LO alone. -/
theorem read16OfIaCanTear : Obligations.Read16OfIaCanTear := by
  intro id s a t0 t1 ho hr
  have hsel : offset .iaLo s ≠ 15 := (muxOffset_ne_last s.binding.mux).1
  have hf := present_frame (masterRead16 (offset .iaLo s) s) { kind := .fetch, addr := a, t0 := t0, t1 := t1 }
  refine ⟨_, _, masterMove_owner s _ ho hr, masterMove_read16High (sel := offset .iaLo s) ?_ ?_, ?_⟩
  · rw [hf.engine, masterRead16_busOwner s hsel, ho]
  · rw [hf.engine, masterRead16_halfRead s hsel]
  · rw [finishRead16_results, readValue_iaHi (hf.binding.trans (masterRead16_binding s hsel)), present_ia, if_pos rfl,
      hf.engine, masterRead16_rLo s hsel, readValue_iaLo, hf.out, masterRead16_out s hsel]

/-! ## The arbiter -/

/-- A written word stands on the port with the strobe toggled, and it always runs (R105, R106). -/
theorem writeWord_port (w : Cmd5) (s : State) :
    ∃ t, writeWord w s = .next t ∧ t.port.cmd = w ∧ t.port.strobe = !s.port.strobe := by
  obtain ⟨t, h, -⟩ := exec_total (onPort w s) (decodeWith s.binding.cmd w)
  have hp := (writeWord_frame h).port
  exact ⟨t, h, by rw [hp, onPort_port], by rw [hp, onPort_port]⟩

/-- Settles O38: by who owns the bus, and whether its `read16` is in progress. -/
theorem onlyTheOwnerUsesTheBus : Obligations.OnlyTheOwnerUsesTheBus := by
  intro id op s
  refine ⟨masterMove_acquire s id, masterMove_denied s, fun ho hr => ⟨masterMove_owner s _ ho hr, ?_, ?_⟩, ?_⟩
  · intro w
    have hw : masterMove id (.command w) s = writeWord w s := masterMove_owner s _ ho hr
    exact ⟨hw, hw ▸ writeWord_port w s⟩
  · refine ⟨_, masterMove_owner s _ ho hr, ?_⟩
    rw [readStatus_eq]
    exact ⟨rfl, rfl, rfl⟩
  · intro sel ho hr hop
    rw [masterMove_reading s op ho hr, if_neg hop]
    rfl

end Sys2Proof.Machine
end

section
/-! The proofs of the family `30_encoding.md`: the encoder and the decoder undo each other under any command map, on words
and on the bytes of a stream, and what the engine's rows write on the command port. -/

namespace Sys2Proof.Machine

variable {m : CmdMap} {s t u : State}

/-! ## Words and instructions -/

/-- The instruction of a word whose operation number names no command, by its row (R85, R103). -/
def reservedOf (op : BitVec 4) (p : Bool) : Instr := if inRowAB op then .reservedAB op p else .reservedCF op p

theorem decodeWith_reservedOf {op : BitVec 4} (p : Bool) (h : m.codes.contains op = false) :
    decodeWith m (op ++ BitVec.ofBool p) = reservedOf op p := decode_reserved m op p h

theorem encode_instrOf (m : CmdMap) (n : CmdName) (p : Bool) : encode m (instrOf n p) = m.code n ++ BitVec.ofBool p := by
  cases n <;> exact commandWord_codeOf m _ p

theorem encode_reservedOf (m : CmdMap) (op : BitVec 4) (p : Bool) :
    encode m (reservedOf op p) = op ++ BitVec.ofBool p := by
  unfold reservedOf
  split <;> exact commandWord_append op p

theorem wf_instrOf (m : CmdMap) (n : CmdName) (p : Bool) : (instrOf n p).wf m = true := by cases n <;> rfl

theorem wf_reservedOf {op : BitVec 4} (p : Bool) (h : m.codes.contains op = false) : (reservedOf op p).wf m = true := by
  unfold reservedOf
  cases hr : inRowAB op <;> simp only [Bool.false_eq_true, if_false, if_true, Instr.wf, h, hr, Bool.not_false, Bool.and_self]

/-- A well-formed instruction is a command by its name, or a reserved word of a free operation number (R85). -/
theorem wf_cases {i : Instr} (h : i.wf m = true) :
    (∃ n p, i = instrOf n p) ∨ ∃ op p, m.codes.contains op = false ∧ i = reservedOf op p := by
  cases i with
  | ssEnable p => exact .inl ⟨.ssEnable, p, rfl⟩
  | bpEnable p => exact .inl ⟨.bpEnable, p, rfl⟩
  | loadBp b => exact .inl ⟨.loadBp, b, rfl⟩
  | cpuReset p => exact .inl ⟨.cpuReset, p, rfl⟩
  | step p => exact .inl ⟨.step, p, rfl⟩
  | watchAck p => exact .inl ⟨.watchAck, p, rfl⟩
  | fifoReset p => exact .inl ⟨.fifoReset, p, rfl⟩
  | loadMem p => exact .inl ⟨.loadMem, p, rfl⟩
  | rdMem p => exact .inl ⟨.rdMem, p, rfl⟩
  | wrMem p => exact .inl ⟨.wrMem, p, rfl⟩
  | reservedAB op p =>
    simp only [Instr.wf, Bool.and_eq_true, Bool.not_eq_true'] at h
    exact .inr ⟨op, p, h.1, (if_pos h.2).symm⟩
  | reservedCF op p =>
    simp only [Instr.wf, Bool.and_eq_true, Bool.not_eq_true'] at h
    exact .inr ⟨op, p, h.1, (if_neg (by simp [h.2])).symm⟩

/-- The word of a well-formed instruction decodes to it, under any map. -/
theorem decodeWith_encode {i : Instr} (h : i.wf m = true) : decodeWith m (encode m i) = i := by
  obtain ⟨n, p, rfl⟩ | ⟨op, p, hop, rfl⟩ := wf_cases h
  · rw [encode_instrOf, decode_code]
  · rw [encode_reservedOf, decodeWith_reservedOf p hop]

/-- Every word decodes to a well-formed instruction whose word it is, under any map. -/
theorem decodeWith_wf_encode (m : CmdMap) (w : Cmd5) :
    (decodeWith m w).wf m = true ∧ encode m (decodeWith m w) = w := by
  rw [word_eq_append w]
  obtain ⟨n, hn⟩ | hop := code_or_free m (opField w)
  · rw [hn, decode_code]
    exact ⟨wf_instrOf m n _, encode_instrOf m n _⟩
  · rw [decodeWith_reservedOf _ hop]
    exact ⟨wf_reservedOf _ hop, encode_reservedOf m _ _⟩

/-! ## Bytes of a stream -/

/-- The bits above the command port's five are clear in the bytes below 32 (R100). -/
theorem highBits_eq_zero_iff (b : Byte) : b.extractLsb' 5 3 = 0#3 ↔ b.toNat < 32 := by
  have hb := b.isLt
  rw [← BitVec.toNat_inj, BitVec.extractLsb'_toNat, Nat.shiftRight_eq_div_pow, BitVec.toNat_ofNat]
  omega

theorem decode_setWidth (m : CmdMap) (w : Cmd5) (rest : List Byte) :
    decode m (w.setWidth 8 :: rest) = .ok (decodeWith m w, rest) := by
  have hw : (w.setWidth 8).toNat < 32 := by
    rw [BitVec.toNat_setWidth_of_le (by decide)]
    exact w.isLt
  have hback : (w.setWidth 8).setWidth 5 = w := by
    rw [BitVec.setWidth_setWidth_of_le _ (by decide), BitVec.setWidth_eq]
  rw [decode, if_pos ((highBits_eq_zero_iff _).2 hw), hback]

theorem decode_of_le_toNat (m : CmdMap) {b : Byte} (rest : List Byte) (h : 32 ≤ b.toNat) :
    decode m (b :: rest) = .error (.notACommandWord b) :=
  if_neg fun hz => absurd ((highBits_eq_zero_iff b).1 hz) (Nat.not_lt.2 h)

/-- Settles O18: the byte carries the word in its low five bits, and the word of a well-formed instruction decodes to it. -/
theorem decodeOfEncodeIsTheInstruction : Obligations.DecodeOfEncodeIsTheInstruction := by
  intro m i rest h
  rw [encodeByte, decode_setWidth, decodeWith_encode h]

/-- Settles O19: every operation number is one command's or none's, and a byte from 32 up has a high bit set. -/
theorem everyWordIsOneInstruction : Obligations.EveryWordIsOneInstruction :=
  ⟨decodeWith_wf_encode, fun m _ rest => decode_of_le_toNat m rest⟩

/-- Settles O17: thirteen closed words under the default map, evaluated. -/
theorem commandMapWordsDecode : Obligations.CommandMapWordsDecode := by
  unfold Obligations.CommandMapWordsDecode
  decide

/-! ## What the engine writes -/

/-- The command n with parameter p is a core command, with P = 0 where it takes none, and the engine may write it in
this phase (R85, R113, R114, R116). -/
abbrev CoreWrite (phase : Phase) (n : CmdName) (p : Bool) : Prop :=
  n ∈ [.ssEnable, .bpEnable, .loadBp, .cpuReset, .step, .watchAck, .fifoReset] ∧
  (n ∈ [.step, .watchAck, .fifoReset] → p = false) ∧
  (n = .watchAck → phase = .hAck) ∧ (n = .fifoReset → phase = .uFifo)

theorem coreWrite_loadBp (phase : Phase) (b : Bool) : CoreWrite phase .loadBp b :=
  ⟨by decide, fun h => absurd h (by decide), nofun, nofun⟩

/-- A command written by name stands on the port as its number and its parameter, with the strobe toggled (R106). -/
theorem writeNamed_port {n : CmdName} {p : Bool} (h : writeNamed n p u = .next t) :
    t.port.cmd = u.binding.cmd.code n ++ BitVec.ofBool p ∧ t.port.strobe = !u.port.strobe := by
  have hp := (writeNamed_frame h).port
  exact ⟨by rw [hp, onPort_port, commandWord_codeOf], by rw [hp, onPort_port]⟩

/-- A row leaves the command and its strobe alone, or writes one core command, from a state in which neither the port nor
the binding has changed (R223). -/
theorem engineRow_port_cases (h : engineRow s = .next t) :
    (t.port.cmd = s.port.cmd ∧ t.port.strobe = s.port.strobe) ∨
    ∃ n p u, writeNamed n p u = .next t ∧ u.binding = s.binding ∧ u.port = s.port ∧ CoreWrite s.engine.phase n p := by
  revert h
  unfold engineRow
  cases s.engine.phase <;> intro h
  case idle =>
    cases h
    unfold rowIdle
    split <;> exact .inl ⟨rfl, rfl⟩
  case aBit => exact .inr ⟨_, _, _, h, countBit_binding s, countBit_port s, coreWrite_loadBp _ _⟩
  case sRdLo | sRdHi | pWait | pStatus | hIaLo | hIaHi | hTaLo | hTaHi | hMode | xRdLo | xRdHi =>
    cases h
    exact .inl ⟨rfl, rfl⟩
  case sPulse | cPrestep | aDisable | aEnable | cRelease | hAck | xSs | xBp | uSs | uBp | uFifo | uRstOn | uRstOff | rRstOn
      | rRstOff =>
    exact .inr ⟨_, _, _, h, rfl, rfl, by decide⟩

/-- Settles O15: by the row; a command written by name stands on the port as the map gives it. -/
theorem engineWritesOnlyCoreCommands : Obligations.EngineWritesOnlyCoreCommands := by
  intro s t h
  obtain hkept | ⟨n, p, u, hw, hbind, hport, hcore⟩ := engineRow_port_cases h
  · exact .inl hkept
  · obtain ⟨hcmd, hstrobe⟩ := writeNamed_port hw
    exact .inr ⟨hport ▸ hstrobe, n, p, hbind ▸ hcmd, hcore⟩

end Sys2Proof.Machine
end

section
/-! The proofs of the family `40_commands.md`: what each command does and leaves unchanged, the command port, and that no
step of the machine stops. -/

namespace Sys2Proof.Machine

variable (s : State)

/-! ## LOAD_BP -/

/-- The bank after several LOAD_BP, the first bit first (R110). -/
def shiftAll (bits : List Bool) (v : BankWord) : BankWord := bits.foldl (fun u b => shiftIn b u) v

/-- Several LOAD_BP write the bank and nothing else. -/
theorem execAll_loadBp (bits : List Bool) :
    execAll (bits.map .loadBp) s = .next (s.setBank { s.bank with bpsr := shiftAll bits s.bank.bpsr }) := by
  induction bits generalizing s with
  | nil => rfl
  | cons b bits ih => exact ih (s.setBank { s.bank with bpsr := shiftIn b s.bank.bpsr })

/-- The bits sent stand at the top of the bank, in order, and the older ones below them (R110). -/
theorem getLsbD_shiftAll (bits : List Bool) (v : BankWord) (i : Nat) :
    (shiftAll bits v).getLsbD i =
      if i + bits.length < 208 then v.getLsbD (i + bits.length) else bits.getD (i + bits.length - 208) false := by
  induction bits generalizing v with
  | nil =>
    by_cases hi : i < 208
    · simp [shiftAll, hi]
    · simp [shiftAll, hi, BitVec.getLsbD_of_ge v i (by omega)]
  | cons b bits ih =>
    change (shiftAll bits (shiftIn b v)).getLsbD i = _
    rw [ih, getLsbD_shiftIn, List.length_cons, ← Nat.add_assoc]
    obtain hlt | heq | hgt := Nat.lt_trichotomy (i + bits.length) 207
    · rw [if_pos (by omega), if_pos hlt, if_pos (by omega)]
    · simp [heq]
    · rw [if_neg (by omega), if_neg (by omega), show i + bits.length + 1 - 208 = i + bits.length - 208 + 1 by omega,
        List.getD_cons_succ]

/-- A word pushed, bit 0 first, fills the topmost 26 bits of the bank (R110). -/
theorem extractLsb'_shiftAll_word (w : BpWord) (v : BankWord) :
    (shiftAll ((List.range 26).map w.getLsbD) v).extractLsb' 182 26 = w := by
  apply BitVec.eq_of_getLsbD_eq
  intro i hi
  rw [BitVec.getLsbD_extractLsb', getLsbD_shiftAll, List.length_map, List.length_range, if_neg (by omega),
    show 182 + i + 26 - 208 = i by omega]
  simp [hi]

/-- Settles O3: one load by the bits of `shiftIn`, and 26 loads by the bits of the loads together. -/
theorem loadBpShiftsTheBank : Obligations.LoadBpShiftsTheBank := by
  refine ⟨fun b s => ⟨decode_code _ .loadBp b, shiftIn b s.bank.bpsr, rfl, ?_, fun i hi => ?_⟩, fun w s => ?_⟩
  · rw [getLsbD_shiftIn]
    simp
  · rw [getLsbD_shiftIn, if_pos hi]
  · have hloads := execAll_loadBp s ((List.range 26).map w.getLsbD)
    rw [List.map_map] at hloads
    exact ⟨_, hloads, extractLsb'_shiftAll_word w s.bank.bpsr⟩

/-! ## STEP -/

@[simp] theorem takeInstr_owed : (takeInstr s).target.owed = s.target.owed := by unfold takeInstr; split <;> rfl

/-- Between two instructions: the FETCH of the next one, then all its data cycles in order (R185). -/
theorem finishInstr_beginInstr (h : s.target.owed = []) :
    finishInstr (beginInstr s) = presentData (nextInstr s).data (present (fetchCycle (nextInstr s)) (takeInstr s)) := by
  have hdone : { (takeInstr s).target with owed := [] } = (takeInstr s).target := by rw [← h, ← takeInstr_owed s]
  rw [finishInstr, beginInstr_owed]
  simp only [beginInstr, present_setTarget, setTarget_setTarget, setTarget_target]
  rw [hdone, ← present_target (takeInstr s) (fetchCycle (nextInstr s)), setTarget_self]

/-- A whole instruction, after the cycles an earlier one still owes (R112, R187; log entry 12). -/
theorem runInstr_eq : runInstr s =
    presentData (nextInstr s).data (present (fetchCycle (nextInstr s)) (takeInstr (finishInstr s))) := by
  rw [runInstr, finishInstr_beginInstr _ (finishInstr_owed s), nextInstr_finishInstr]

theorem exec_step_halted (p : Bool) (hss : s.bank.ssEn = true) (hrst : s.bank.cpuRst = false) :
    exec (.step p) s = .next (runInstr s) := by
  simp [exec, execStep, hss, hrst]

theorem exec_step_ignored (p : Bool) (h : s.bank.ssEn = false ∨ s.bank.cpuRst = true) :
    exec (.step p) s = .next s := by
  obtain h | h := h <;> simp [exec, execStep, h]

/-- Settles O6: STEP is `runInstr` or nothing, and `runInstr` is written out in its cycles. -/
theorem stepRunsOneInstruction : Obligations.StepRunsOneInstruction := fun p s =>
  ⟨decode_code _ .step p,
    fun hss hrst => ⟨_, exec_step_halted s p hss hrst, runInstr_ia s, runInstr_owed s, runInstr_eq s⟩,
    exec_step_ignored s p⟩

/-- What STEP leaves alone: all that target cycles leave alone, SS_EN, and with BP_EN = 0 the event store and its mark
(R112, R184, R192). -/
theorem exec_step_frame (p : Bool) : ∃ t, exec (.step p) s = .next t ∧ CycleFrame s t ∧ t.bank.ssEn = s.bank.ssEn ∧
    (s.bank.bpEn = false → t.bank.evq = s.bank.evq ∧ t.marks.overflow = s.marks.overflow) := by
  by_cases h : s.bank.ssEn = true ∧ s.bank.cpuRst = false
  · have hf := runInstr_frame s
    exact ⟨_, exec_step_halted s p h.1 h.2, hf, (hf.ssEn h.1).trans h.1.symm, fun hb =>
      ⟨runInstr_evq_of_disabled s hb, runInstr_overflow_of_disabled s hb⟩⟩
  · have hidle : s.bank.ssEn = false ∨ s.bank.cpuRst = true := by
      simpa only [not_and_or, Bool.not_eq_true, Bool.not_eq_false] using h
    exact ⟨s, exec_step_ignored s p hidle, CycleFrame.refl s, rfl, fun _ => ⟨rfl, rfl⟩⟩

/-- Settles O7: the frame of STEP, field by field. -/
theorem stepFrame : Obligations.StepFrame := by
  intro p s
  obtain ⟨t, ht, hf, hss, hoff⟩ := exec_step_frame s p
  exact ⟨t, ht, hf.port, hf.engine, hf.store, hf.out, hf.schedule, hf.refused, hf.intr, hf.rxPending, hf.strobeSeen, hss,
    hf.bpEn, hf.cpuRst, hf.bpsr, hf.evq, hf.overflow, hoff⟩

/-! ## The command port -/

/-- BANK executes what the port holds, whatever it is, and then no command is pending (R107). -/
theorem bankStrobe_total : ∃ t, bankStrobe s = .next t ∧ strobePending t = false := by
  obtain ⟨t, ht, hf⟩ := exec_total (s.setBank { s.bank with strobeSeen := s.port.strobe })
    (decodeWith s.binding.cmd s.port.cmd)
  exact ⟨t, ht, by simp [strobePending, hf.port, hf.strobeSeen]⟩

/-- Settles O14: the command runs on the port as written, and no command touches the port. -/
theorem writeCommandRunsTheWordOnce : Obligations.WriteCommandRunsTheWordOnce := by
  intro code param s
  obtain ⟨t, ht, hf⟩ := exec_total (onPort (commandWord code param) s)
    (decodeWith s.binding.cmd (commandWord code param))
  have hw : writeCommand code param s = .next t := (writeCommand_eq s code param).trans ht
  have hport := hf.port
  exact ⟨t, hw, by rw [hport]; rfl, by rw [hport]; rfl, by rw [hport]; rfl, writeWord_seen hw, ht⟩

/-- Settles O13: a pending command is served before any other move. -/
theorem pendingStrobeRunsTheDecodedWord : Obligations.PendingStrobeRunsTheDecodedWord := by
  rintro s i hpending rfl
  have hstep : step s = bankStrobe s := step_of_pending s (bne_iff_ne.2 hpending)
  exact ⟨hstep, hstep ▸ bankStrobe_total s⟩

/-- Every agent's move has a next state. -/
theorem agentMove_total (m : Move) : ∃ t, agentMove m s = .next t := by
  cases m with
  | engine => exact engineRow_total s
  | master id op => exact masterMove_total s id op
  | target => exact ⟨_, rfl⟩
  | env a => exact ⟨_, rfl⟩
  | driver op => exact ⟨_, rfl⟩
  | external c => exact ⟨_, rfl⟩

theorem step_total : ∃ t, step s = .next t := by
  cases hp : strobePending s with
  | true =>
    obtain ⟨t, ht, -⟩ := bankStrobe_total s
    exact ⟨t, (step_of_pending s hp).trans ht⟩
  | false =>
    rw [step_of_seen s hp, scheduledMove]
    split
    · exact ⟨_, rfl⟩
    · exact agentMove_total _ _

/-- Settles O16: every command has a next state, and so has each of the moves a step can be. -/
theorem everyStepHasANextState : Obligations.EveryStepHasANextState :=
  ⟨fun i s => (exec_total s i).imp fun _ h => h.1, step_total⟩

/-! ## SS_ENABLE, BP_ENABLE, CPU_RESET -/

theorem targetMove_of_reset (h : s.bank.cpuRst = true) : targetMove s = s := if_pos h

/-- Out of reset and between two instructions: the target waits in single-step mode, else it begins the next one
(R186). -/
theorem targetMove_of_done (hrst : s.bank.cpuRst = false) (howed : s.target.owed = []) :
    targetMove s = if s.bank.ssEn then s else beginInstr s := by
  simp [targetMove, hrst, howed]

/-- Settles O1: the write is the command's meaning, and the target reads SS_EN at an instruction boundary. -/
theorem ssEnableWritesSingleStepMode : Obligations.SsEnableWritesSingleStepMode := fun p s =>
  ⟨decode_code _ .ssEnable p, rfl, rfl, fun howed hrst =>
    ⟨targetMove_of_done (s.setBank { s.bank with ssEn := true }) hrst howed,
      targetMove_of_done (s.setBank { s.bank with ssEn := false }) hrst howed⟩⟩

/-- Settles O2: both values of p; with BP_EN = 0 a cycle queues nothing. -/
theorem bpEnableWritesComparatorEnable : Obligations.BpEnableWritesComparatorEnable := fun p s =>
  ⟨decode_code _ .bpEnable p, by cases p <;> rfl, fun c => present_evq_of_disabled _ c rfl⟩

/-- Settles O5: by whether the target's reset begins or ends, or neither. -/
theorem cpuResetWritesTheResetLine : Obligations.CpuResetWritesTheResetLine := by
  intro p s
  refine ⟨decode_code _ .cpuReset p, ?_, targetMove_of_reset s⟩
  cases hdrop : p || s.bank.cpuRst <;> simp only [exec, execCpuReset, hdrop] <;> rfl

/-! ## The event store -/

/-- Settles O8: by whether an event is pending. -/
theorem watchAckRemovesTheHeadEvent : Obligations.WatchAckRemovesTheHeadEvent := by
  intro p s
  have hexec : exec (.watchAck p) s = .next (s.setBank { s.bank with evq := s.bank.evq.tail }) := rfl
  refine ⟨decode_code _ .watchAck p, fun e rest h => ⟨?_, rfl⟩, fun h => ?_⟩
  · rw [hexec, h, List.tail_cons]
  · rw [hexec, h, List.tail_nil, ← h, setBank_self]

/-- Settles O9: FIFO_RESET writes the empty queue, and ACTIVE reads the queue. -/
theorem fifoResetEmptiesTheEventStore : Obligations.FifoResetEmptiesTheEventStore := fun p _ =>
  ⟨decode_code _ .fifoReset p, _, rfl, rfl, rfl, rfl⟩

/-! ## Ignored parameters and refused words -/

/-- The three commands that take no parameter run alike with either (R116). -/
theorem exec_decode_parameter (m : CmdMap) (n : CmdName) (hn : n ∈ [.step, .watchAck, .fifoReset]) :
    exec (decodeWith m (m.code n ++ 1#1)) s = exec (decodeWith m (m.code n ++ 0#1)) s := by
  have h1 : decodeWith m (m.code n ++ 1#1) = instrOf n true := decode_code m n true
  have h0 : decodeWith m (m.code n ++ 0#1) = instrOf n false := decode_code m n false
  rw [h1, h0]
  simp only [List.mem_cons, List.not_mem_nil, or_false] at hn
  obtain rfl | rfl | rfl := hn <;> rfl

/-- Settles O10: under any map, and so at the default map's words. -/
theorem parameterBitIsIgnored : Obligations.ParameterBitIsIgnored :=
  ⟨fun m n s => exec_decode_parameter s m n, fun s =>
    ⟨exec_decode_parameter s specCmdMap .step (by decide), exec_decode_parameter s specCmdMap .watchAck (by decide),
      exec_decode_parameter s specCmdMap .fifoReset (by decide), by decide, by decide, by decide⟩⟩

/-- Settles O11: the three meanings are the mark REFUSED. -/
theorem memoryCommandsSetRefused : Obligations.MemoryCommandsSetRefused := fun p _ =>
  ⟨⟨_, rfl, rfl⟩, ⟨_, rfl, rfl⟩, ⟨_, rfl, rfl⟩, decode_code _ .loadMem p, decode_code _ .rdMem p, decode_code _ .wrMem p⟩

/-- A reserved word sets REFUSED, whichever its row (R115). -/
theorem exec_reservedOf (op : BitVec 4) (p : Bool) : exec (reservedOf op p) s = .next s.markRefused := by
  unfold reservedOf
  split <;> rfl

/-- Under the default map the numbers from 0xA up are no command's (R103). -/
theorem decodeBits_reservedOf {op : BitVec 4} (p : Bool) (h : 0xA ≤ op.toNat) :
    decodeBits (op ++ BitVec.ofBool p) = reservedOf op p := by
  have hfree : specCmdMap.codes.contains op = false := by revert op; decide
  exact decodeWith_reservedOf p hfree

/-- Settles O12: a word of no command is reserved, and each reserved word sets REFUSED. -/
theorem reservedWordsSetRefused : Obligations.ReservedWordsSetRefused := by
  intro op p s
  refine ⟨⟨_, rfl, rfl⟩, ⟨_, rfl, rfl⟩, fun m hfree => ⟨s.markRefused, ?_, rfl⟩, fun hop => ?_, fun hop => ?_⟩
  · rw [decodeWith_reservedOf p hfree, exec_reservedOf]
  · obtain rfl | rfl := hop <;> exact decodeBits_reservedOf p (by decide)
  · have hrow : inRowAB op = false := by revert op; decide
    rw [decodeBits_reservedOf p (by omega), reservedOf, if_neg (by simp [hrow])]

end Sys2Proof.Machine
end

section
/-! The proofs of the family `41_register_reads.md`: what the reads of the register file and of the status port return and
leave unchanged, and that operands outside their range begin nothing. -/

namespace Sys2Proof.Machine

variable {s : State}

/-! ## The reads -/

/-- Settles O32: the status port's sample, whose other bits are discarded. -/
theorem statusReadSamplesBothFlags : Obligations.StatusReadSamplesBothFlags := fun s => ⟨s.draws + 1, readStatus_eq s⟩

/-- The low nibble of HIT_MODE is the head event's compressed mode, whatever the free high nibble is (R93). -/
theorem readValue_hitMode_low {e : Event} {rest : List Event} (h : s.bank.evq = e :: rest) :
    (readValue (offset .hitMode s) s).extractLsb' 0 4 = e.cmode := by
  have hmode : readValue (offset .hitMode s) s = s.fresh.extractLsb' 4 4 ++ e.cmode :=
    (regValue_offset _ _ .hitMode _).trans (by rw [h])
  rw [hmode]
  exact BitVec.extractLsb'_append_eq_right

/-- Settles O33: register by register. -/
theorem readValuesOfTheRegisterFile : Obligations.ReadValuesOfTheRegisterFile := fun _ =>
  ⟨readValue_iaLo, readValue_iaHi rfl, fun _ _ hq =>
    ⟨readValue_hitIaLo hq, readValue_hitIaHi rfl hq, readValue_hitTaLo hq, readValue_hitTaHi rfl hq,
      readValue_hitMode_low hq⟩⟩

/-- Settles O34: the owner's `read8` writes the selector, takes a free byte and answers the register's value. -/
theorem read8ChangesOnlyTheSelector : Obligations.Read8ChangesOnlyTheSelector := by
  intro id sel s ho hr
  have hread : masterMove id (.read8 sel) s = .next ((selected sel s).answer (.byte (readValue sel s))) :=
    masterMove_owner s _ ho hr
  exact ⟨s.draws + 1, hread⟩

/-! ## Operands outside their range -/

section
variable (h : acceptsCall s = true)
include h

/-- ENGINE accepts calls in `Stepping` only (R240). -/
theorem ecState_of_acceptsCall : s.engine.ecState = .stepping := (acceptsCall_iff.1 h).2.1

/-- A `step` of no instructions is refused (R208). -/
theorem callStep_zero (traceEvery : Nat) : callStep 0 traceEvery s = s.markRefused := by
  rw [callStep, if_neg (not_not.2 (ecState_of_acceptsCall h)), if_pos rfl]

/-- A store that does not fit the bank is not armed (R158). -/
theorem callContinue_overfull (hlen : storeCapacity < s.store.length) : callContinue s = s.markRefused := by
  rw [callContinue, if_neg (not_not.2 (ecState_of_acceptsCall h)), if_pos hlen]

/-- A store operation that is refused sets REFUSED (R248). -/
theorem callStore_none : callStore none s = s.markRefused := if_pos h

/-- A store operation that fails is reported and returned by name, the store as it was (R265). -/
theorem callStore_replyNamed (f : Failure) : callStore (some (replyNamed s.store f)) s = s.setOut
    { reports := s.out.reports ++ [.message f], results := s.out.results ++ [.named f] } := by
  have happly : callStore (some (replyNamed s.store f)) s = applyReply (replyNamed s.store f) s := if_pos h
  rw [happly, applyReply_eq, replyNamed, setStore_self]

end

theorem setBreakpoint_noMode (st : List Entry) (a : Addr) (trigger : Option Nat) :
    setBreakpoint st a 0 trigger = none := if_pos rfl

theorem triggerBad_some {n : Nat} : triggerBad (some n) = true ↔ 15 < n := decide_eq_true_iff

/-- The operand range comes before the store is looked at (R248; log entry 13). -/
theorem setBreakpoint_badTrigger (st : List Entry) (a : Addr) {m : Mode6} {trigger : Nat} (hm : m ≠ 0)
    (ht : 15 < trigger) : setBreakpoint st a m (some trigger) = some (replyNamed st .invalidTrigger) := by
  rw [setBreakpoint, if_neg hm, if_pos (triggerBad_some.2 ht)]

/-- No register pair begins at the last selector value (R134). -/
theorem masterRead16_last (s : State) : masterRead16 15 s = s.markRefused := if_pos rfl

/-- Settles O43: four of the five operations come to the mark REFUSED, the fifth is a store operation that fails. -/
theorem operandsOutsideTheirRangeBeginNothing : Obligations.OperandsOutsideTheirRangeBeginNothing := by
  refine fun s => ⟨fun h x => ?step, fun h hlen => ?arm, fun h a x => ?noMode, fun h a m x hm hx => ?badTrigger,
    fun id ho hr => ⟨s.markRefused, ?read16, rfl⟩⟩
  case step =>
    rw [driverMove, callStep_zero h]
    exact ⟨rfl, rfl⟩
  case arm =>
    rw [driverMove, callContinue_overfull h hlen]
    exact ⟨rfl, rfl⟩
  case noMode =>
    rw [driverMove, setBreakpoint_noMode, callStore_none h]
    exact ⟨rfl, rfl⟩
  case badTrigger => rw [driverMove, setBreakpoint_badTrigger s.store a hm hx, callStore_replyNamed h]
  case read16 => rw [masterMove_owner s _ ho hr, ownerMove, masterRead16_last]

end Sys2Proof.Machine
end

section
/-! The proofs of the family `42_serializer.md`: the layout of the breakpoint word, the push of a word, and the arming
protocol. -/

namespace Sys2Proof.Machine

variable {s t : State}

/-! ## The breakpoint word -/

theorem unpack_serialize (e : Entry) : unpack (serialize e) = e := by
  rw [unpack, wordAddr_serialize, wordMode_serialize, wordTrig_serialize]

/-- A word is its trigger, its mode and its address, side by side (R87). -/
theorem fields_append (w : BpWord) : (wordTrig w ++ wordMode w ++ wordAddr w : BitVec (4 + 6 + 16)) = w :=
  calc (wordTrig w ++ wordMode w ++ wordAddr w : BitVec (4 + 6 + 16))
    _ = w.extractLsb' 16 (4 + 6) ++ w.extractLsb' 0 16 := by
      rw [wordTrig, wordMode, wordAddr, BitVec.extractLsb'_append_extractLsb'_eq_extractLsb' (show 22 = 16 + 6 from rfl)]
    _ = w.extractLsb' 0 (4 + 6 + 16) := BitVec.extractLsb'_append_extractLsb'_eq_extractLsb' (show 16 = 0 + 16 from rfl)
    _ = w := BitVec.extractLsb'_eq_self

theorem serialize_unpack (w : BpWord) : serialize (unpack w) = w := (serialize_eq_append _).trans (fields_append w)

theorem ofNat_mod_two_pow (n x : Nat) : BitVec.ofNat n (x % 2 ^ n) = BitVec.ofNat n x :=
  BitVec.eq_of_toNat_eq (Nat.mod_mod x _)

/-- Settles O20: the layout of `serialize`, both directions of the round trip, and the mask of each field. -/
theorem serializeIsLossless : Obligations.SerializeIsLossless := by
  refine ⟨fun e => ⟨serialize_eq_append e, unpack_serialize e⟩, serialize_unpack, fun address mode trigger => ?_⟩
  simp only [serializeNat, ofNat_mod_two_pow]

/-! ## The push of a word -/

/-- Every slot but the topmost takes the bits of the slot above it (R154). -/
theorem slot_shiftAll_word (w : BpWord) (v : BankWord) {k : Nat} (hk : k < 7) :
    slot (shiftAll ((List.range 26).map w.getLsbD) v) k = slot v (k + 1) := by
  apply BitVec.eq_of_getLsbD_eq
  intro i hi
  rw [getLsbD_slot, getLsbD_slot, getLsbD_shiftAll, List.length_map, List.length_range, if_pos (by omega),
    show 26 * k + i + 26 = 26 * (k + 1) + i by omega]

/-- Settles O4: the 26 loads together write the bank, whose bits are known slot by slot. -/
theorem pushPutsTheWordIntoSlotSeven : Obligations.PushPutsTheWordIntoSlotSeven := by
  intro w s
  have hloads := execAll_loadBp s ((List.range 26).map w.getLsbD)
  rw [List.map_map] at hloads
  exact ⟨_, hloads, extractLsb'_shiftAll_word w s.bank.bpsr, fun _ => slot_shiftAll_word w s.bank.bpsr⟩

/-! ## The rows of an arm -/

/-- Where A_BIT goes on: the next bit, of this word or of the next one, or A_ENABLE after the last (R155, R223). -/
theorem countBit_cases (hp : s.engine.phase = .aBit) (hb : s.engine.bitCnt < 26) (hk : s.engine.slotCnt < 8) :
    ((countBit s).engine.phase = .aBit ∧ (countBit s).engine.bitCnt < 26 ∧ (countBit s).engine.slotCnt < 8 ∧
      26 * (countBit s).engine.slotCnt + (countBit s).engine.bitCnt = 26 * s.engine.slotCnt + s.engine.bitCnt + 1) ∨
    ((countBit s).engine.phase = .aEnable ∧ 26 * s.engine.slotCnt + s.engine.bitCnt + 1 = 208) := by
  by_cases hb' : s.engine.bitCnt + 1 < 26
  · rw [countBit_within s hb']
    exact .inl ⟨hp, hb', hk, rfl⟩
  by_cases hk' : s.engine.slotCnt + 1 < 8
  · rw [countBit_word s hb' hk']
    refine .inl ⟨hp, Nat.zero_lt_succ 25, hk', ?_⟩
    simp only [loadWord_engine]
    omega
  · rw [countBit_last s hb' hk']
    exact .inr ⟨rfl, by omega⟩

/-- A row of an arm has written the word w: u is ENGINE's bookkeeping in it, b the bank that the command leaves (R106,
R107). -/
def afterWrite (w : Cmd5) (u : State) (b : Bank) : State := (onPort w u).setBank { b with strobeSeen := !u.port.strobe }

theorem afterWrite_seen (w : Cmd5) (u : State) (b : Bank) : strobePending (afterWrite w u b) = false := by
  simp [strobePending, afterWrite]

theorem engineRow_aDisable (hp : s.engine.phase = .aDisable) : ∃ w,
    engineRow s = .next (afterWrite w ((loadWord 0 s).goto .aBit) { s.bank with bpEn := false, evq := [] }) :=
  ⟨commandWord (codeOf s.binding.cmd .bpEnable) false, by simp only [engineRow, hp, writeNamed_eq]; rfl⟩

/-- The bank after A_BIT's LOAD_BP of SHREG's low bit (R110, R153). -/
def bitLoaded (s : State) : Bank := { s.bank with bpsr := shiftIn (s.engine.shreg.getLsbD 0) s.bank.bpsr }

theorem engineRow_aBit (hp : s.engine.phase = .aBit) : ∃ w,
    engineRow s = .next (afterWrite w (countBit s) (bitLoaded s)) := by
  refine ⟨commandWord (codeOf s.binding.cmd .loadBp) (s.engine.shreg.getLsbD 0), ?_⟩
  have hw := writeNamed_eq (countBit s) .loadBp (s.engine.shreg.getLsbD 0)
  rw [countBit_binding] at hw
  simp only [engineRow, hp, rowBit, hw]
  simp [instrOf, exec, execLoadBp, afterWrite, bitLoaded]

theorem engineRow_aEnable (hp : s.engine.phase = .aEnable) : ∃ w,
    engineRow s = .next (afterWrite w (s.goto .cRelease) { s.bank with bpEn := true }) :=
  ⟨commandWord (codeOf s.binding.cmd .bpEnable) true, by simp only [engineRow, hp, writeNamed_eq]; rfl⟩

/-! ## What has been sent -/

/-- `Sent` speaks of the store and the bank's bits. -/
theorem Sent.congr {n : Nat} (h : Sent n s) (hst : t.store = s.store) (hb : t.bank.bpsr = s.bank.bpsr) : Sent n t := by
  intro i hi
  rw [hst, hb]
  exact h i hi

theorem sent_zero (s : State) : Sent 0 s := fun _ hi => absurd hi (Nat.not_lt_zero _)

/-- Of the bits of an arm, number 26 k + i is bit i of slot k's word (R153, R155). -/
theorem getLsbD_slotWord_at (st : List Entry) (k : Nat) {i : Nat} (hi : i < 26) :
    (slotWord st ((26 * k + i) / 26)).getLsbD ((26 * k + i) % 26) = (slotWord st k).getLsbD i := by
  rw [Nat.mul_add_mod, Nat.mod_eq_of_lt hi, Nat.mul_add_div (by decide), Nat.div_eq_of_lt hi, Nat.add_zero]

/-- When all 208 bits have been sent, slot k holds the word of the k-th entry (R155, R156). -/
theorem Sent.slot {k : Nat} (h : Sent 208 s) (hk : k < 8) : slot s.bank.bpsr k = slotWord s.store k := by
  apply BitVec.eq_of_getLsbD_eq
  intro i hi
  have hbit := h (26 * k + i) (by omega)
  rw [Nat.sub_self, Nat.zero_add, getLsbD_slotWord_at s.store k hi] at hbit
  rw [getLsbD_slot, hbit]
  simp [hi]

/-! ## What a step can do to an arm -/

/-- The positions of which `Arming` or the release speaks. -/
def Phase.isArm (p : Phase) : Bool := p == .aBit || p == .aEnable || p == .cRelease

theorem Phase.isArm_eq_false {p : Phase} : p.isArm = false ↔ p ≠ .aBit ∧ p ≠ .aEnable ∧ p ≠ .cRelease := by
  simp [Phase.isArm, and_assoc]

/-- A step of another agent, between two rows of an arm: with the comparators off and no command pending it leaves the
bank as the arm needs it (R66, R159, R184). -/
structure ArmWaits (s t : State) : Prop where
  engine : t.engine = s.engine
  store : t.store = s.store
  quiet : strobePending s = false → s.bank.bpEn = false →
    strobePending t = false ∧ t.bank.bpEn = false ∧ t.bank.evq = s.bank.evq ∧ t.bank.bpsr = s.bank.bpsr

theorem ArmWaits.of_eq (hp : t.port = s.port) (hb : t.bank = s.bank) (he : t.engine = s.engine)
    (hst : t.store = s.store) : ArmWaits s t where
  engine := he
  store := hst
  quiet hseen hoff := by
    rw [strobePending, hp, hb]
    exact ⟨hseen, hoff, rfl, rfl⟩

/-- What the schedule holds plays no part. -/
theorem ArmWaits.of_schedule {l : List Move} (h : ArmWaits (s.setSchedule l) t) : ArmWaits s t :=
  ⟨h.engine, h.store, h.quiet⟩

theorem targetMove_evq_of_disabled (h : s.bank.bpEn = false) : (targetMove s).bank.evq = s.bank.evq := by
  unfold targetMove
  split
  · rfl
  split
  · exact present_evq_of_disabled _ _ h
  · split
    · rfl
    · exact beginInstr_evq_of_disabled s h

theorem targetMove_armWaits (s : State) : ArmWaits s (targetMove s) where
  engine := (targetMove_frame s).engine
  store := (targetMove_frame s).store
  quiet hseen hoff := by
    have hf := targetMove_frame s
    refine ⟨?_, hf.bpEn.trans hoff, targetMove_evq_of_disabled hoff, hf.bpsr⟩
    simpa only [strobePending, hf.port, hf.strobeSeen] using hseen

theorem bankStrobe_armWaits (hp : strobePending s = true) (h : bankStrobe s = .next t) : ArmWaits s t where
  engine := (bankStrobe_frame h).engine
  store := (bankStrobe_frame h).store
  quiet hseen := nomatch hp.symm.trans hseen

theorem envMove_armWaits (a : EnvAct) (s : State) : ArmWaits s (envMove a s) :=
  .of_eq (envMove_port s a) (envMove_bank s a) (envMove_engine s a) (envMove_store s a)

theorem answer_armWaits (r : Result) (s : State) : ArmWaits s (s.answer r) := .of_eq rfl rfl rfl rfl

theorem raise_armWaits (f : Failure) (s : State) : ArmWaits s (s.raise f) := .of_eq rfl rfl rfl rfl

theorem markRefused_armWaits (s : State) : ArmWaits s s.markRefused := .of_eq rfl rfl rfl rfl

theorem callStore_arm_cases (r : Option Reply) (s : State) :
    ArmWaits s (callStore r s) ∨ (callStore r s).engine.phase.isArm = false := by
  unfold callStore
  split
  next hacc =>
    obtain ⟨-, -, hidle⟩ := acceptsCall_iff.1 hacc
    right
    cases r with
    | none => simp [State.markRefused, hidle, Phase.isArm]
    | some x => simp [applyReply_eq, hidle, Phase.isArm]
  · exact .inl (answer_armWaits _ _)

theorem beginCall_arm_cases (p : Phase) (hp : p.isArm = false) (s : State) :
    ArmWaits s (beginCall p s) ∨ (beginCall p s).engine.phase.isArm = false := by
  unfold beginCall
  split
  · exact .inr hp
  · exact .inl (answer_armWaits _ _)

theorem callStep_arm_cases (count traceEvery : Nat) (s : State) :
    ArmWaits s (callStep count traceEvery s) ∨ (callStep count traceEvery s).engine.phase.isArm = false := by
  unfold callStep
  split
  · exact .inl (raise_armWaits _ s)
  split
  · exact .inl (markRefused_armWaits s)
  split
  · exact .inr rfl
  · exact .inl (answer_armWaits _ s)

theorem callContinue_arm_cases (s : State) :
    ArmWaits s (callContinue s) ∨ (callContinue s).engine.phase.isArm = false := by
  unfold callContinue
  split
  · exact .inl (raise_armWaits _ s)
  split
  · exact .inl (markRefused_armWaits s)
  · exact beginCall_arm_cases .cPrestep rfl s

theorem callReset_arm_cases (s : State) : ArmWaits s (callReset s) ∨ (callReset s).engine.phase.isArm = false := by
  unfold callReset
  split
  · exact .inl (raise_armWaits _ s)
  · exact beginCall_arm_cases .rRstOn rfl s

/-- A call of DRIVER's changes nothing while an operation is in progress, and begins none inside an arm (R240, D50). -/
theorem driverMove_arm_cases (op : DriverOp) (s : State) :
    ArmWaits s (driverMove op s) ∨ (driverMove op s).engine.phase.isArm = false := by
  have drawn {t : State} (h : ArmWaits s.drawn t) : ArmWaits s t := ⟨h.engine, h.store, h.quiet⟩
  cases op with
  | step count traceEvery => exact callStep_arm_cases count traceEvery s
  | continueExecution => exact callContinue_arm_cases s
  | reset => exact callReset_arm_cases s
  | setBreakpoint a m x => exact callStore_arm_cases _ s
  | clearMode a m => exact callStore_arm_cases (some _) s
  | setTrigger i code => exact (callStore_arm_cases (some _) s.drawn).imp_left drawn
  | triggerAt a code => exact (callStore_arm_cases (some _) s.drawn).imp_left drawn
  | findByAddress a => exact callStore_arm_cases (some _) s
  | indexValid i => exact callStore_arm_cases (some _) s
  | list => exact callStore_arm_cases (some _) s

theorem ownerMove_phase {op : MasterOp} (h : ownerMove op s = .next t) : t.engine.phase = s.engine.phase := by
  cases op with
  | command w => rw [(writeWord_frame h).engine]; rfl
  | read16 sel =>
    cases h
    unfold masterRead16
    split <;> rfl
  | acquire => cases h; rfl
  | release => cases h; rfl
  | read8 sel => cases h; rfl
  | read16High => cases h; rfl
  | status => cases h; rfl

/-- Another requester can only be answered while ENGINE has the bus, which it has all through an arm (R66, R67). -/
theorem masterMove_arm_cases {id : Nat} {op : MasterOp} (hi : Inv s) (h : masterMove id op s = .next t) :
    ArmWaits s t ∨ t.engine.phase.isArm = false := by
  have hidle (ho : s.engine.busOwner ≠ some .engine) : s.engine.phase.isArm = false := by
    rw [hi.idle_of_owner ho]; rfl
  obtain ⟨ho, -, hm⟩ | ⟨sel, ho, rfl⟩ | ⟨ho, rfl⟩ | rfl := masterMove_cases h
  · rw [ownerMove_phase hm]
    exact .inr (hidle (by simp [ho]))
  · exact .inr (hidle (by simp [ho]))
  · exact .inr (hidle (by simp [ho]))
  · exact .inl (answer_armWaits _ _)

theorem afterPulse_isArm (count i : Nat) : (afterPulse count i).isArm = false := by unfold afterPulse; split <;> rfl

theorem pollOn_isArm (s : State) : (pollOn s).isArm = false := by unfold pollOn; split <;> rfl

theorem writeNamed_phase {n : CmdName} {p : Bool} (h : writeNamed n p s = .next t) :
    t.engine.phase = s.engine.phase := by rw [(writeNamed_frame h).engine, onPort_engine]

/-- Only the rows of an arm lead to where `Arming` or the release speaks (R223). -/
theorem engineRow_arm_cases (h : engineRow s = .next t) :
    s.engine.phase = .aDisable ∨ s.engine.phase = .aBit ∨ s.engine.phase = .aEnable ∨
      t.engine.phase.isArm = false := by
  revert h
  unfold engineRow
  cases hp : s.engine.phase <;> intro h
  case aDisable => exact .inl rfl
  case aBit => exact .inr (.inl rfl)
  case aEnable => exact .inr (.inr (.inl rfl))
  all_goals refine .inr (.inr (.inr ?_))
  case idle =>
    cases h
    unfold rowIdle
    split <;> simp [hp, Phase.isArm]
  case sPulse =>
    rw [writeNamed_phase h, goto_engine]
    dsimp only
    split
    · rfl
    · exact afterPulse_isArm _ _
  case sRdHi => cases h; exact afterPulse_isArm _ _
  case pStatus =>
    cases h
    rw [rowStatus, goto_engine]
    dsimp only
    split
    · rfl
    · exact pollOn_isArm _
  case hMode =>
    cases h
    rw [rowMode, goto_engine]
    dsimp only
    split <;> rfl
  case hAck => rw [writeNamed_phase h]; exact pollOn_isArm s
  case sRdLo | pWait | hIaLo | hIaHi | hTaLo | hTaHi | xRdLo | xRdHi => cases h; rfl
  case cPrestep | cRelease | xSs | xBp | uSs | uBp | uFifo | uRstOn | uRstOff | rRstOn | rRstOff =>
    rw [writeNamed_phase h]; rfl

/-- What a step can do to an arm: no command or agent but ENGINE disturbs it, or the step leads elsewhere, or it is a row
of ENGINE's. -/
theorem step_arm_cases (hi : Inv s) (h : step s = .next t) :
    ArmWaits s t ∨ t.engine.phase.isArm = false ∨
      engineRow (s.setSchedule s.schedule.tail) = .next t := by
  cases hp : strobePending s with
  | true => exact .inl (bankStrobe_armWaits hp (step_of_pending s hp ▸ h))
  | false =>
    rw [step_of_seen s hp, scheduledMove] at h
    split at h
    · cases h; exact .inl (targetMove_armWaits s)
    have hi' : Inv (s.setSchedule s.schedule.tail) := hi.of_frame hi.events rfl rfl
    cases hm : nextMove s <;> rw [hm] at h
    case engine => exact .inr (.inr h)
    case target => cases h; exact .inl (targetMove_armWaits _).of_schedule
    case env a => cases h; exact .inl (envMove_armWaits a _).of_schedule
    case driver op => cases h; exact (driverMove_arm_cases op _).imp ArmWaits.of_schedule .inl
    case external c => cases h; exact (driverMove_arm_cases (expand c) _).imp ArmWaits.of_schedule .inl
    case master id op => exact (masterMove_arm_cases hi' h).imp ArmWaits.of_schedule .inl

/-! ## Every step keeps `Arming` -/

/-- What O44 says of a step, the slots as `Sent` has them. -/
structure ArmStep (s t : State) : Prop where
  arming : Arming t
  release : s.engine.phase ≠ .cRelease → t.engine.phase = .cRelease →
    t.bank.bpEn = true ∧ t.bank.evq = [] ∧ t.store = s.store ∧ Sent 208 t

theorem ArmWaits.armStep (h : ArmWaits s t) (ha : Arming s) : ArmStep s t := by
  have quiet (hp : s.engine.phase = .aBit ∨ s.engine.phase = .aEnable) :
      (strobePending t = false ∧ t.bank.bpEn = false ∧ t.bank.evq = []) ∧ t.bank.bpsr = s.bank.bpsr := by
    obtain ⟨hseen, hoff, hevq⟩ := ha.quiet hp
    obtain ⟨hseen', hoff', hevq', hbpsr⟩ := h.quiet hseen hoff
    exact ⟨⟨hseen', hoff', hevq'.trans hevq⟩, hbpsr⟩
  refine ⟨⟨?_, ?_, ?_⟩, ?_⟩ <;> rw [h.engine]
  · exact fun hp => (quiet hp).1
  · exact fun hp => (ha.sending hp).congr h.store (quiet (.inl hp)).2
  · exact fun hp => (ha.sent hp).congr h.store (quiet (.inr hp)).2
  · exact fun hne hp => absurd hp hne

theorem armStep_of_isArm (h : t.engine.phase.isArm = false) : ArmStep s t := by
  obtain ⟨hbit, henable, hrelease⟩ := Phase.isArm_eq_false.1 h
  exact ⟨⟨fun hp => (hp.elim hbit henable).elim, fun hp => absurd hp hbit, fun hp => absurd hp henable⟩,
    fun _ hp => absurd hp hrelease⟩

/-- A step to A_BIT: what `Arming` asks for there. -/
theorem armStep_of_aBit (hp : t.engine.phase = .aBit)
    (hq : strobePending t = false ∧ t.bank.bpEn = false ∧ t.bank.evq = [])
    (hs : Sent (26 * t.engine.slotCnt + t.engine.bitCnt) t) : ArmStep s t := by
  constructor
  · exact { quiet := fun _ => hq, sending := fun _ => hs, sent := by simp [hp] }
  · simp [hp]

/-- A step to A_ENABLE: what `Arming` asks for there. -/
theorem armStep_of_aEnable (hp : t.engine.phase = .aEnable)
    (hq : strobePending t = false ∧ t.bank.bpEn = false ∧ t.bank.evq = []) (hs : Sent 208 t) : ArmStep s t := by
  constructor
  · exact { quiet := fun _ => hq, sending := by simp [hp], sent := fun _ => hs }
  · simp [hp]

/-- BP_ENABLE(0) flushes the event store, and nothing has been sent (R109, D22). -/
theorem aDisable_armStep (hp : s.engine.phase = .aDisable) (h : engineRow s = .next t) : ArmStep s t := by
  obtain ⟨w, hw⟩ := engineRow_aDisable hp
  cases hw.symm.trans h
  exact armStep_of_aBit rfl ⟨afterWrite_seen _ _ _, rfl, rfl⟩ (sent_zero _)

/-- One bit more has been sent (R155). -/
theorem aBit_armStep (hi : Inv s) (ha : Arming s) (hp : s.engine.phase = .aBit) (h : engineRow s = .next t) :
    ArmStep s t := by
  obtain ⟨w, hw⟩ := engineRow_aBit hp
  cases hw.symm.trans h
  obtain ⟨hb, hk, hreg⟩ := hi.pushing hp
  obtain ⟨-, hoff, hevq⟩ := ha.quiet (.inl hp)
  have hbit : s.engine.shreg.getLsbD 0 = (slotWord s.store ((26 * s.engine.slotCnt + s.engine.bitCnt) / 26)).getLsbD
      ((26 * s.engine.slotCnt + s.engine.bitCnt) % 26) := by
    rw [hreg, BitVec.getLsbD_ushiftRight, Nat.add_zero, getLsbD_slotWord_at s.store _ hb]
  have hsent : Sent (26 * s.engine.slotCnt + s.engine.bitCnt + 1) (afterWrite w (countBit s) (bitLoaded s)) :=
    (ha.sending hp).succ (by omega) (countBit_store s) rfl hbit
  obtain ⟨hp', -, -, hnext⟩ | ⟨hp', hlast⟩ := countBit_cases hp hb hk
  · exact armStep_of_aBit hp' ⟨afterWrite_seen _ _ _, hoff, hevq⟩ (hnext ▸ hsent)
  · exact armStep_of_aEnable hp' ⟨afterWrite_seen _ _ _, hoff, hevq⟩ (hlast ▸ hsent)

/-- All has been sent, and BP_ENABLE(1) leaves it so (R109, R156). -/
theorem aEnable_armStep (ha : Arming s) (hp : s.engine.phase = .aEnable) (h : engineRow s = .next t) :
    ArmStep s t := by
  obtain ⟨w, hw⟩ := engineRow_aEnable hp
  cases hw.symm.trans h
  obtain ⟨-, -, hevq⟩ := ha.quiet (.inr hp)
  exact ⟨⟨nofun, nofun, nofun⟩, fun _ _ => ⟨rfl, hevq, rfl, (ha.sent hp).congr rfl rfl⟩⟩

theorem engineRow_armStep (hi : Inv s) (ha : Arming s) (h : engineRow s = .next t) : ArmStep s t := by
  obtain hp | hp | hp | hout := engineRow_arm_cases h
  · exact aDisable_armStep hp h
  · exact aBit_armStep hi ha hp h
  · exact aEnable_armStep ha hp h
  · exact armStep_of_isArm hout

theorem step_armStep (hi : Inv s) (ha : Arming s) (h : step s = .next t) : ArmStep s t := by
  obtain hw | hout | hr := step_arm_cases hi h
  · exact hw.armStep ha
  · exact armStep_of_isArm hout
  · have hrow := engineRow_armStep (s := s.setSchedule s.schedule.tail) (hi.of_frame hi.events rfl rfl)
      ⟨ha.quiet, ha.sending, ha.sent⟩ hr
    exact ⟨hrow.arming, hrow.release⟩

/-! ## The length of an arm -/

/-- Where ENGINE stands n rows after A_DISABLE (R155, R223). -/
def armPhase (n : Nat) : Phase :=
  if n = 0 then .aDisable else if n ≤ 208 then .aBit else if n = 209 then .aEnable else .cRelease

theorem armPhase_bit {n : Nat} (h : 1 ≤ n) (h' : n ≤ 208) : armPhase n = .aBit := by
  rw [armPhase, if_neg (by omega), if_pos h']

theorem armPhase_ne_cRelease {n : Nat} (h : n < 210) : armPhase n ≠ .cRelease := by
  obtain rfl | hbit | rfl : n = 0 ∨ (1 ≤ n ∧ n ≤ 208) ∨ n = 209 := by omega
  · decide
  · rw [armPhase_bit hbit.1 hbit.2]
    decide
  · decide

/-- n rows of an arm have been run from A_DISABLE, and no agent but ENGINE has a move. -/
structure InArm (n : Nat) (s : State) : Prop where
  quiet : Quiet s
  phase : s.engine.phase = armPhase n
  counters : s.engine.phase = .aBit → s.engine.bitCnt < 26 ∧ s.engine.slotCnt < 8 ∧
    26 * s.engine.slotCnt + s.engine.bitCnt + 1 = n

/-- A command that leaves SS_EN and CPU_RST alone leaves the bus ready. -/
theorem quiet_afterWrite (h : Quiet s) {u : State} {b : Bank} (w : Cmd5) (hl : u.schedule = s.schedule)
    (ht : u.target = s.target) (hss : b.ssEn = s.bank.ssEn) (hrst : b.cpuRst = s.bank.cpuRst) :
    Quiet (afterWrite w u b) := by
  obtain ⟨⟨-, hhalt⟩, hsched⟩ := h
  refine ⟨⟨afterWrite_seen w u b, ?_⟩, hl.trans hsched⟩
  simpa [haltPending, afterWrite, ht, hss, hrst] using hhalt

/-- ENGINE's row takes an arm one further. -/
theorem InArm.step {n : Nat} (h : InArm n s) (hn : n < 210) : ∃ t, step s = .next t ∧ InArm (n + 1) t := by
  obtain ⟨hquiet, hphase, hcount⟩ := h
  have ⟨⟨hseen, hhalt⟩, hsched⟩ := hquiet
  rw [step_of_quiet s hseen hhalt hsched]
  obtain rfl | hbit | rfl : n = 0 ∨ (1 ≤ n ∧ n ≤ 208) ∨ n = 209 := by omega
  · obtain ⟨w, hw⟩ := engineRow_aDisable hphase
    exact ⟨_, hw, quiet_afterWrite hquiet w rfl rfl rfl rfl, rfl,
      fun _ => ⟨Nat.zero_lt_succ 25, Nat.zero_lt_succ 7, rfl⟩⟩
  · have hp : s.engine.phase = .aBit := hphase.trans (armPhase_bit hbit.1 hbit.2)
    obtain ⟨hb, hk, hn'⟩ := hcount hp
    obtain ⟨w, hw⟩ := engineRow_aBit hp
    have hquiet' : Quiet (afterWrite w (countBit s) (bitLoaded s)) :=
      quiet_afterWrite hquiet w (countBit_schedule s) (countBit_target s) rfl rfl
    obtain ⟨hp', hb', hk', hnext⟩ | ⟨hp', hlast⟩ := countBit_cases hp hb hk
    · have hn'' := congrArg (· + 1) (hnext.trans hn')
      exact ⟨_, hw, hquiet', hp'.trans (armPhase_bit (by omega) (by omega)).symm, fun _ => ⟨hb', hk', hn''⟩⟩
    · obtain rfl : n = 208 := hn'.symm.trans hlast
      exact ⟨_, hw, hquiet', hp', fun hq => nomatch hp'.symm.trans hq⟩
  · obtain ⟨w, hw⟩ := engineRow_aEnable hphase
    exact ⟨_, hw, quiet_afterWrite hquiet w rfl rfl rfl rfl, rfl, nofun⟩

theorem InArm.run (h : InArm 0 s) {n : Nat} (hn : n ≤ 210) : ∃ t, runSteps n s = .next t ∧ InArm n t := by
  induction n with
  | zero => exact ⟨s, rfl, h⟩
  | succ n ih =>
    obtain ⟨u, hu, harm⟩ := ih (by omega)
    obtain ⟨t, ht, harm'⟩ := harm.step hn
    exact ⟨t, (runSteps_add n 1 hu).trans (runSteps_succ 0 ht), harm'⟩

/-- Settles O44: by what a step can do to an arm, and by counting its rows. -/
theorem armMirrorsTheStore : Obligations.ArmMirrorsTheStore := by
  refine ⟨fun s t hi ha h => ?_, fun s hquiet hp _ => ?_⟩
  · have harm := step_armStep hi ha h
    refine ⟨harm.arming, fun hne hp => ?_⟩
    obtain ⟨hon, hevq, hst, hsent⟩ := harm.release hne hp
    exact ⟨hon, hevq, hst, fun k hk => hst ▸ hsent.slot hk⟩
  · have start : InArm 0 s := ⟨hquiet, hp, by simp [hp]⟩
    refine ⟨?_, fun n hn => ?_⟩
    · obtain ⟨t, ht, harm⟩ := start.run le_rfl
      exact ⟨t, ht, harm.phase⟩
    · obtain ⟨u, hu, harm⟩ := start.run hn.le
      exact ⟨u, hu, harm.phase ▸ armPhase_ne_cRelease hn⟩

end Sys2Proof.Machine
end

section
/-! The proofs of the family `43_trigger_hit.md`: the comparators, the capture of a hit, the frame of a bus cycle, and
when TARGET moves. -/

namespace Sys2Proof.Machine

/-! ## The trigger table and the compressed mode -/

/-- Settles O21: the table of R171, entry by entry. -/
theorem triggerTableClosedForm : Obligations.TriggerTableClosedForm := by
  unfold Obligations.TriggerTableClosedForm
  decide

/-- A folded hit with its kind's breakpoint bit is compressed to that bit, whatever watch bit it has (R178). -/
theorem compress_of_breakpoint (k : AccessKind) {m : Mode6} (h : m &&& breakpointBit k ≠ 0) :
    compress (m &&& kindMask k) = 0#1 ++ (breakpointBit k).extractLsb' 0 3 := by
  cases k <;> revert m <;> decide

/-- A folded hit without its kind's breakpoint bit has the watch bit, and is compressed to the kind as a watch
(R178). -/
theorem compress_of_watch (k : AccessKind) {m : Mode6} (h : m &&& breakpointBit k = 0) (hm : m &&& kindMask k ≠ 0) :
    compress (m &&& kindMask k) = 1#1 ++ (breakpointBit k).extractLsb' 0 3 := by
  cases k <;> revert m <;> decide

/-- Settles O23: by whether the hit has the breakpoint bit; each compressed mode expands to its own bit (R92). -/
theorem breakpointWinsOverWatch : Obligations.BreakpointWinsOverWatch := by
  intro k m hm
  by_cases h : m &&& breakpointBit k = 0
  · rw [if_neg (not_not.2 h), compress_of_watch k h hm]
    cases k <;> rfl
  · rw [if_pos h, compress_of_breakpoint k h]
    cases k <;> rfl

/-! ## The comparators -/

section
variable (w : BpWord) (c : BusCycle)

theorem slotAsserts_iff : slotAsserts w c = true ↔
    wordAddr w = c.addr ∧ wordMode w &&& kindMask c.kind ≠ 0 ∧ evaluate (wordTrig w) c.t0 c.t1 = true :=
  bne_iff_ne.trans (slotHit_ne_zero w c)

variable {w}

/-- A slot with no mode bit never asserts (R191). -/
theorem slotAsserts_of_noMode (h : wordMode w = 0) : slotAsserts w c = false := by
  refine Bool.eq_false_iff.2 fun ha => ?_
  obtain ⟨-, hmode, -⟩ := (slotAsserts_iff w c).1 ha
  rw [h] at hmode
  exact hmode BitVec.zero_and

/-- A slot whose trigger is "never" never asserts (R171, R191). -/
theorem slotAsserts_of_noTrigger (h : wordTrig w = 0) : slotAsserts w c = false := by
  refine Bool.eq_false_iff.2 fun ha => ?_
  obtain ⟨-, -, htrig⟩ := (slotAsserts_iff w c).1 ha
  rw [h] at htrig
  exact Bool.noConfusion htrig

/-- The bits a slot contributes are of the cycle's kind (R176). -/
theorem kindMask_of_slotHit {i : Nat} (h : (slotHit w c).getLsbD i = true) : (kindMask c.kind).getLsbD i = true := by
  unfold slotHit at h
  split at h
  · rw [BitVec.getLsbD_and, Bool.and_eq_true] at h
    exact h.2
  · simp at h

end

/-- Settles O24: the fields of a serialized entry are the entry's, and the zero word is a slot with mode 0. -/
theorem slotAssertsExactlyOnAMatch : Obligations.SlotAssertsExactlyOnAMatch := by
  refine ⟨fun e c => ?_, fun w c h => ?_⟩
  · rw [slotAsserts_iff, wordAddr_serialize, wordMode_serialize, wordTrig_serialize]
  · obtain hmode | htrig | rfl := h
    · exact slotAsserts_of_noMode c hmode
    · exact slotAsserts_of_noTrigger c htrig
    · exact slotAsserts_of_noMode c rfl

theorem getLsbD_hit6 (bpsr : BankWord) (c : BusCycle) (i : Nat) :
    (hit6 bpsr c).getLsbD i = true ↔ ∃ k, k < 8 ∧ (slotHit (slot bpsr k) c).getLsbD i = true := by
  have hfold := getLsbD_foldSlots (List.range 8) bpsr c 0 i
  simp only [List.mem_range, BitVec.ofNat_eq_ofNat, BitVec.getLsbD_zero, Bool.false_eq_true, false_or] at hfold
  exact hfold

/-- Settles O25: bit by bit; outside the cycle's kind no slot has a bit. -/
theorem foldIsTheOrOfTheSlots : Obligations.FoldIsTheOrOfTheSlots := by
  refine fun bpsr c => ⟨getLsbD_hit6 bpsr c, BitVec.eq_of_getLsbD_eq fun i hi => ?_⟩
  cases hbit : (hit6 bpsr c).getLsbD i with
  | false => simp [hbit]
  | true =>
    obtain ⟨k, -, hslot⟩ := (getLsbD_hit6 bpsr c i).1 hbit
    simp [kindMask_of_slotHit c hslot]

/-! ## One bus cycle -/

section
variable (depth : Nat) (halt : Bool) (kind : AccessKind) (addr : Addr) (s : State)

/-- What BANK's comparators make of a cycle, at the trigger inputs' present levels (R177, R190). -/
def hitsOf : Mode6 := hit6 s.bank.bpsr { kind := kind, addr := addr, t0 := s.env.t0, t1 := s.env.t1 }

theorem trackIa_eq :
    trackIa kind addr s = s.setBank { s.bank with ia := if kind = .fetch then addr else s.bank.ia } := by
  unfold trackIa
  split <;> rfl

/-- Whatever the bank holds, a cycle moves IA and, if it is captured, is a hit on top of that (R192). -/
theorem bankCycleWith_cases : bankCycleWith depth halt kind addr s = trackIa kind addr s ∨
    ∃ c, bankCycleWith depth halt kind addr s = captureHitWith depth halt addr c (trackIa kind addr s) := by
  unfold bankCycleWith
  dsimp only
  split
  · exact .inr ⟨_, rfl⟩
  · exact .inl rfl

variable {kind addr s}

/-- A cycle that hits no slot only moves IA. -/
theorem bankCycleWith_of_noHit (h : hitsOf kind addr s = 0) :
    bankCycleWith depth halt kind addr s = trackIa kind addr s := by
  unfold hitsOf at h
  simp [bankCycleWith, h]

/-- A cycle that hits some slot while BP_EN = 1 moves IA and is captured (R179). -/
theorem bankCycleWith_of_hit (hen : s.bank.bpEn = true) (h : hitsOf kind addr s ≠ 0) :
    bankCycleWith depth halt kind addr s =
      captureHitWith depth halt addr (compress (hitsOf kind addr s)) (trackIa kind addr s) := by
  have hcaptured : (s.bank.bpEn && hitsOf kind addr s != 0) = true := by rw [hen, Bool.true_and, bne_iff_ne]; exact h
  simp only [bankCycleWith, trackIa_bpEn, trackIa_bpsr, trackIa_env]
  exact if_pos hcaptured

end

/-- Settles O26: with the comparators off a cycle is the IA update. -/
theorem fetchTracksTheInstructionAddress : Obligations.FetchTracksTheInstructionAddress := fun kind addr s =>
  ⟨bankCycleWith_ia _ _ kind addr s, fun hoff =>
    (bankCycleWith_disabled _ _ kind addr s hoff).trans (trackIa_eq kind addr s)⟩

/-- Settles O27: the cycle is the capture of its hit, whose effects are known field by field. -/
theorem hitIsCapturedOnce : Obligations.HitIsCapturedOnce := by
  intro depth halt kind addr s hen hhit
  refine ⟨_, { hitIa := (trackIa kind addr s).bank.ia, hitTa := addr, cmode := compress (hitsOf kind addr s) },
    bankCycleWith_of_hit depth halt hen hhit, (captureHitWith_ia ..).symm, rfl, rfl, fun hroom => ?room,
    fun hfull => ?full, ?ssEn⟩
  case room =>
    have hevq := captureHitWith_evq depth halt (trackIa kind addr s) addr (compress (hitsOf kind addr s))
    rw [trackIa_evq, if_pos hroom] at hevq
    refine ⟨hevq, by simp [Bank.active, hevq], ?_⟩
    rw [captureHitWith_overflow, trackIa_evq, if_pos hroom, trackIa_marks]
  case full =>
    rw [captureHitWith_evq, captureHitWith_overflow, trackIa_evq, if_neg (Nat.not_lt.2 hfull),
      if_neg (Nat.not_lt.2 hfull)]
    exact ⟨rfl, rfl⟩
  case ssEn => rw [captureHitWith_ssEn, trackIa_ssEn, Bool.or_comm, Bool.and_comm]

/-- An event is queued, or lost and marked (R181). -/
theorem queueEvent_writes (depth : Nat) (e : Event) (s : State) : ∃ evq overflow, queueEvent depth e s =
    (s.setBank { s.bank with evq := evq }).setMarks { s.marks with overflow := overflow } := by
  unfold queueEvent
  split
  · exact ⟨s.bank.evq ++ [e], s.marks.overflow, rfl⟩
  · exact ⟨s.bank.evq, true, rfl⟩

/-- What a hit writes: the event queue, SS_EN and OVERFLOW (R181, R182, R276). -/
theorem captureHitWith_writes (depth : Nat) (halt : Bool) (ta : Addr) (c : CMode4) (s : State) :
    ∃ evq ssEn overflow, captureHitWith depth halt ta c s =
      (s.setBank { s.bank with evq := evq, ssEn := ssEn }).setMarks { s.marks with overflow := overflow } := by
  obtain ⟨evq, overflow, hq⟩ := queueEvent_writes depth { hitIa := s.bank.ia, hitTa := ta, cmode := c } s
  unfold captureHitWith
  rw [hq]
  dsimp only
  split
  · exact ⟨evq, true, overflow, rfl⟩
  · exact ⟨evq, s.bank.ssEn, overflow, rfl⟩

/-- Settles O28: by whether the cycle is captured; else it only moves IA. -/
theorem bankCycleFrame : Obligations.BankCycleFrame := by
  refine fun kind addr s => ⟨?_, fun h => ⟨_, (bankCycleWith_of_noHit _ _ h).trans (trackIa_eq kind addr s)⟩⟩
  obtain h | ⟨c, h⟩ := bankCycleWith_cases Config.fifoDepth Config.autoHalt kind addr s
  · rw [bankCycle, h, trackIa_eq]
    exact ⟨if kind = .fetch then addr else s.bank.ia, s.bank.evq, s.bank.ssEn, s.marks.overflow, rfl⟩
  · obtain ⟨evq, ssEn, overflow, hw⟩ :=
      captureHitWith_writes Config.fifoDepth Config.autoHalt addr c (trackIa kind addr s)
    rw [bankCycle, h, hw, trackIa_eq]
    exact ⟨_, evq, ssEn, overflow, rfl⟩

/-! ## The target -/

section
variable {s : State}

/-- Out of reset an instruction in progress presents its next owed cycle, whatever SS_EN is (R186, R188). -/
theorem targetMove_of_owed {d : DataCycle} {rest : List DataCycle} (hrst : s.bank.cpuRst = false)
    (howed : s.target.owed = d :: rest) :
    targetMove s = present (dataCycle d) (s.setTarget { s.target with owed := rest }) := by
  simp [targetMove, hrst, howed]

/-- In single-step mode the target stays at the end of its instruction, in reset or out of it (R186). -/
theorem targetMove_of_halted (hss : s.bank.ssEn = true) (howed : s.target.owed = []) : targetMove s = s := by
  cases hrst : s.bank.cpuRst with
  | true => exact targetMove_of_reset s hrst
  | false => rw [targetMove_of_done s hrst howed, if_pos hss]

/-- In free run the target begins its next instruction at the end of the last (R185, R186). -/
theorem targetMove_of_free (hrst : s.bank.cpuRst = false) (hss : s.bank.ssEn = false) (howed : s.target.owed = []) :
    targetMove s = beginInstr s := by
  rw [targetMove_of_done s hrst howed, hss, if_neg Bool.false_ne_true]

/-- A bus master's move waits while a halted target owes cycles (R188). -/
theorem step_of_haltPending (hseen : strobePending s = false) (hmaster : (nextMove s).isMaster = true)
    (hhalt : haltPending s = true) : step s = .next (targetMove s) := by
  rw [step_of_seen s hseen, scheduledMove, hmaster, hhalt]
  rfl

end

/-- Settles O30: clause by clause, by what TARGET's move reads. -/
theorem targetMovesOnlyWhenPermitted : Obligations.TargetMovesOnlyWhenPermitted := by
  refine fun s => ⟨targetMove_of_reset s, targetMove_of_halted, fun _ _ => targetMove_of_owed,
    fun hrst hss howed => ?_⟩
  rw [targetMove_of_free hrst hss howed]
  exact ⟨rfl, beginInstr_ia s, beginInstr_owed s⟩

/-- Settles O31: the step is TARGET's move, which leaves the schedule and ENGINE alone. -/
theorem haltedTargetFinishesFirst : Obligations.HaltedTargetFinishesFirst := by
  intro s d rest hseen hmaster hss hrst howed
  have hhalt : haltPending s = true := by simp [haltPending, hss, hrst, howed]
  have hframe := targetMove_frame s
  exact ⟨targetMove s, step_of_haltPending hseen hmaster hhalt, targetMove_of_owed hrst howed, hframe.schedule,
    hframe.engine⟩

end Sys2Proof.Machine
end

section
/-! The proofs of the family `44_discriminator_fsm.md`: the protocol that every step keeps, and the operations of
ENGINE's that it is made of. -/

namespace Sys2Proof.Machine

variable {s t u : State}

/-! ## The protocol as a table -/

/-- What `Protocol` says of BANK, the target and the marks is about these six values. -/
structure Block where
  ssEn : Bool
  bpEn : Bool
  cpuRst : Bool
  evq : List Event
  owed : List DataCycle
  overflow : Bool

/-- The block in a state. -/
def State.block (s : State) : Block where
  ssEn := s.bank.ssEn
  bpEn := s.bank.bpEn
  cpuRst := s.bank.cpuRst
  evq := s.bank.evq
  owed := s.target.owed
  overflow := s.marks.overflow

/-- The target is halted between two instructions and nothing is pending (R201, R303). -/
structure Block.Halted (b : Block) (bpEn cpuRst : Bool) : Prop where
  ssEn : b.ssEn = true
  bpEn : b.bpEn = bpEn
  evq : b.evq = []
  owed : b.owed = []
  cpuRst : b.cpuRst = cpuRst

/-- The target runs freely under the comparators, until a breakpoint event under AUTO_HALT (R182, R201). -/
structure Block.Watched (b : Block) : Prop where
  bpEn : b.bpEn = true
  cpuRst : b.cpuRst = false
  halted : b.ssEn = true → Config.autoHalt = true ∧
    ((∃ e ∈ b.evq, e.cmode.getLsbD 3 = false) ∨ b.overflow = true)

/-- What `Protocol` asks of the block at each position of ENGINE's (R201, R223). -/
def Block.Fits (b : Block) (started : Bool) : Phase → Prop
  | .uSs => True
  | .uBp => b.ssEn = true
  | .uFifo | .uRstOn => b.ssEn = true ∧ b.bpEn = false ∧ b.evq = []
  | .uRstOff | .rRstOff => b.Halted false true
  | .idle => started = true → b.Halted false false
  | .sPulse | .sRdLo | .sRdHi | .cPrestep | .aDisable | .aBit | .aEnable | .rRstOn | .xRdLo | .xRdHi =>
    b.Halted false false
  | .cRelease => b.Halted true false
  | .pWait | .pStatus | .xSs => b.Watched
  | .hIaLo | .hIaHi | .hTaLo | .hTaHi | .hMode => b.Watched ∧ b.evq ≠ []
  | .hAck => b.Watched ∧ ∃ e rest, b.evq = e :: rest ∧ e.cmode.getLsbD 3 = true
  | .xBp => b.ssEn = true ∧ b.cpuRst = false

/-- No other requester has the bus or will ask for it, and no command is pending. -/
structure Lone (s : State) : Prop where
  alone : ∀ m ∈ s.schedule, ∀ id op, m ≠ .master id op
  owner : ∀ id, s.engine.busOwner ≠ some (.other id)
  seen : strobePending s = false

/-- ENGINE's position goes with EC_STATE and with whether `startup()` is over. -/
structure Engine.Placed (e : Engine) : Prop where
  ecState : e.ecState = e.phase.ecState
  boot : e.started = !(e.phase.isStartup || (e.phase == .idle && !e.started))

/-- The table holds of a block in the protocol. -/
theorem Protocol.fits (h : Protocol s) : s.block.Fits s.engine.started s.engine.phase := by
  obtain ⟨-, -, -, ecState, boot, afterSs, afterBp, inReset, stepping, handling, acking, armed, stopped⟩ := h
  rw [ecState] at stepping armed stopped
  have halted (hst : s.engine.started = true) (hec : s.engine.phase.ecState = .stepping) :
      s.block.Halted (s.engine.phase == .cRelease) (s.engine.phase == .rRstOff) := by
    obtain ⟨hss, hbp, hevq, howed, hrst⟩ := stepping hst hec
    exact ⟨hss, Bool.eq_iff_iff.2 (hbp.trans beq_iff_eq.symm), hevq, howed,
      Bool.eq_iff_iff.2 (hrst.trans beq_iff_eq.symm)⟩
  have watched (hec : s.engine.phase.ecState = .armed) : s.block.Watched := by
    obtain ⟨hbp, hrst, hhalt⟩ := armed hec
    exact ⟨hbp, hrst, hhalt⟩
  cases hp : s.engine.phase <;>
    rw [hp] at boot afterSs afterBp inReset stopped handling acking halted watched
  case uSs => trivial
  case uBp => exact afterSs (by simp)
  case uFifo | uRstOn => exact ⟨afterSs (by simp), afterBp (by simp)⟩
  case uRstOff =>
    obtain ⟨hbp, hevq⟩ := afterBp (by simp)
    obtain ⟨hrst, howed⟩ := inReset rfl
    exact ⟨afterSs (by simp), hbp, hevq, howed, hrst⟩
  case idle => exact fun hst => halted hst rfl
  case sPulse | sRdLo | sRdHi | cPrestep | aDisable | aBit | aEnable | cRelease | rRstOn | rRstOff =>
    exact halted boot rfl
  case pWait | pStatus | xSs => exact watched rfl
  case hIaLo | hIaHi | hTaLo | hTaHi | hMode => exact ⟨watched rfl, handling (by simp)⟩
  case hAck =>
    obtain ⟨e, rest, hevq⟩ := List.exists_cons_of_ne_nil (handling (by simp))
    exact ⟨watched rfl, e, rest, hevq, acking rfl e (by simp [hevq])⟩
  case xBp =>
    obtain ⟨hss, hrst, -⟩ := stopped rfl
    exact ⟨hss, hrst⟩
  case xRdLo | xRdHi =>
    obtain ⟨hss, hrst, hoff⟩ := stopped rfl
    obtain ⟨hbp, hevq, howed⟩ := hoff nofun
    exact ⟨hss, hbp, hevq, howed, hrst⟩

/-- In `Stepping`, once `startup()` is over, the target is halted. -/
theorem Block.Fits.halted {b : Block} {p : Phase} (h : b.Fits true p) (hec : p.ecState = .stepping)
    (hu : p.isStartup = false) : b.Halted (p == .cRelease) (p == .rRstOff) := by
  cases p
  case idle => exact h rfl
  case sPulse | sRdLo | sRdHi | cPrestep | aDisable | aBit | aEnable | cRelease | rRstOn | rRstOff => exact h
  case uSs | uBp | uFifo | uRstOn | uRstOff => cases hu
  case pWait | pStatus | hIaLo | hIaHi | hTaLo | hTaHi | hMode | hAck | xSs | xBp | xRdLo | xRdHi => cases hec

/-- In `Armed` the target is watched. -/
theorem Block.Fits.watched {b : Block} {p : Phase} {started : Bool} (h : b.Fits started p)
    (hec : p.ecState = .armed) : b.Watched := by
  cases p
  case pWait | pStatus | xSs => exact h
  case hIaLo | hIaHi | hTaLo | hTaHi | hMode | hAck => exact h.1
  case idle | uSs | uBp | uFifo | uRstOn | uRstOff | rRstOn | rRstOff | sPulse | sRdLo | sRdHi | cPrestep | aDisable
      | aBit | aEnable | cRelease | xBp | xRdLo | xRdHi => cases hec

/-- The table is all that the protocol asks of the block. -/
theorem Lone.protocol (h : Lone s) (he : s.engine.Placed) (fits : s.block.Fits s.engine.started s.engine.phase) :
    Protocol s where
  __ := h
  __ := he
  afterSs := by
    rintro (hp | hp | hp | hp) <;> rw [hp] at fits
    exacts [fits, fits.1, fits.1, fits.ssEn]
  afterBp := by
    rintro (hp | hp | hp) <;> rw [hp] at fits
    exacts [fits.2, fits.2, ⟨fits.bpEn, fits.evq⟩]
  inReset hp := by
    rw [hp] at fits
    exact ⟨fits.cpuRst, fits.owed⟩
  stepping hst hec := by
    have hboot := he.boot
    rw [hst] at fits hboot
    obtain ⟨hss, hbp, hevq, howed, hrst⟩ := fits.halted (he.ecState.symm.trans hec) (by simpa using hboot)
    exact ⟨hss, (Bool.eq_iff_iff.1 hbp).trans beq_iff_eq, hevq, howed, (Bool.eq_iff_iff.1 hrst).trans beq_iff_eq⟩
  handling hmem := by
    simp only [List.mem_cons, List.not_mem_nil, or_false] at hmem
    have acked (hfits : s.block.Fits s.engine.started .hAck) : s.bank.evq ≠ [] := by
      obtain ⟨-, e, rest, hevq, -⟩ := hfits
      exact List.ne_nil_of_mem (hevq ▸ List.mem_cons_self)
    obtain hp | hp | hp | hp | hp | hp := hmem <;> rw [hp] at fits
    exacts [fits.2, fits.2, fits.2, fits.2, fits.2, acked fits]
  acking hp := by
    rw [hp] at fits
    obtain ⟨-, e, rest, hevq, he⟩ := fits
    have hq : s.bank.evq = e :: rest := hevq
    simpa [hq] using he
  armed hec := by
    obtain ⟨hbp, hrst, hhalt⟩ := fits.watched (he.ecState.symm.trans hec)
    exact ⟨hbp, hrst, hhalt⟩
  stopped hec := by
    have hst := he.ecState.symm.trans hec
    cases hp : s.engine.phase <;> rw [hp] at fits hst
    case xBp => exact ⟨fits.1, fits.2, fun hne => absurd rfl hne⟩
    case xRdLo | xRdHi => exact ⟨fits.ssEn, fits.cpuRst, fun _ => ⟨fits.bpEn, fits.evq, fits.owed⟩⟩
    all_goals cases hst

/-! ## The table: TARGET's moves -/

/-- The comparators stay on, only a breakpoint event halts the target, and what is queued stays queued (R182). -/
theorem Block.Watched.targetMove (h : s.block.Watched) : (targetMove s).block.Watched := by
  have frame := targetMove_frame s
  refine ⟨frame.bpEn.trans h.bpEn, frame.cpuRst.trans h.cpuRst, fun hss => ?_⟩
  obtain hss | hhit := targetMove_ssEn_cases s hss
  · obtain ⟨hauto, ⟨e, hmem, hbreak⟩ | hlost⟩ := h.halted hss
    · obtain ⟨l, hq⟩ := frame.evq
      exact ⟨hauto, .inl ⟨e, (congrArg (e ∈ ·) hq).mpr (List.mem_append_left l hmem), hbreak⟩⟩
    · exact ⟨hauto, .inr (frame.overflow hlost)⟩
  · exact hhit

theorem targetMove_fits {started : Bool} {p : Phase} (h : s.block.Fits started p) :
    (targetMove s).block.Fits started p := by
  have frame := targetMove_frame s
  have stays {bp rst : Bool} (hb : s.block.Halted bp rst) : (targetMove s).block.Halted bp rst := by
    rwa [targetMove_of_halted hb.ssEn hb.owed]
  obtain ⟨l, hq⟩ := frame.evq
  cases p
  case uSs => trivial
  case uBp => exact frame.ssEn h
  case uFifo | uRstOn =>
    obtain ⟨hss, hbp, hevq⟩ := h
    exact ⟨frame.ssEn hss, frame.bpEn.trans hbp, (targetMove_evq_of_disabled hbp).trans hevq⟩
  case idle => exact fun hst => stays (h hst)
  case uRstOff | sPulse | sRdLo | sRdHi | cPrestep | aDisable | aBit | aEnable | cRelease | rRstOn | rRstOff | xRdLo
      | xRdHi => exact stays h
  case pWait | pStatus | xSs => exact h.targetMove
  case hIaLo | hIaHi | hTaLo | hTaHi | hMode =>
    obtain ⟨hw, hne⟩ := h
    exact ⟨hw.targetMove, hq.trans_ne (List.append_ne_nil_of_left_ne_nil hne l)⟩
  case hAck =>
    obtain ⟨hw, e, rest, hevq, hwatch⟩ := h
    exact ⟨hw.targetMove, e, rest ++ l, hq.trans (congrArg (· ++ l) hevq), hwatch⟩
  case xBp => exact ⟨frame.ssEn h.1, frame.cpuRst.trans h.2⟩

/-! ## A STEP of ENGINE's -/

/-- ENGINE has written a STEP in u, and the target has run one instruction (R112, R185). -/
structure StepRun (u t : State) : Prop where
  seen : strobePending t = false
  schedule : t.schedule = u.schedule
  engine : t.engine = u.engine
  store : t.store = u.store
  out : t.out = u.out
  ssEn : t.bank.ssEn = true
  cpuRst : t.bank.cpuRst = false
  bpEn : t.bank.bpEn = u.bank.bpEn
  bpsr : t.bank.bpsr = u.bank.bpsr
  ia : t.bank.ia = (nextInstr u).addr
  script : t.target.script = u.target.script.tail
  owed : t.target.owed = []
  evq : u.bank.bpEn = false → t.bank.evq = u.bank.evq

theorem takeInstr_script (s : State) : (takeInstr s).target.script = s.target.script.tail := by
  unfold takeInstr
  split
  next h => rw [h]; rfl
  next h => rw [drawn_target, h]; rfl

theorem runInstr_script (s : State) : (runInstr s).target.script = s.target.script.tail := by
  rw [runInstr_eq, presentData_target, present_target, takeInstr_script, finishInstr_script]

theorem writeNamed_step (p : Bool) (hss : u.bank.ssEn = true) (hrst : u.bank.cpuRst = false) :
    ∃ t, writeNamed .step p u = .next t ∧ StepRun u t := by
  have frame := runInstr_frame (onPort (commandWord (codeOf u.binding.cmd .step) p) u)
  have hw := (writeNamed_eq u .step p).trans (exec_step_halted (onPort _ u) p hss hrst)
  exact ⟨_, hw,
    { frame with
      seen := writeWord_seen hw
      ssEn := frame.ssEn hss
      cpuRst := frame.cpuRst.trans hrst
      ia := runInstr_ia _
      script := runInstr_script _
      owed := runInstr_owed _
      evq := runInstr_evq_of_disabled (onPort _ u) }⟩

/-! ## The table: commands -/

section
variable {p : Bool}

theorem block_ssEnable (h : writeNamed .ssEnable p u = .next t) : t.block = { u.block with ssEn := p } := by
  rw [writeNamed_eq] at h
  cases h
  rfl

/-- BP_ENABLE(0) flushes the event store (R109, D22). -/
theorem block_bpEnable (h : writeNamed .bpEnable p u = .next t) :
    t.block = { u.block with bpEn := p, evq := if p then u.block.evq else [] } := by
  rw [writeNamed_eq] at h
  cases h
  cases p <;> rfl

theorem block_loadBp (h : writeNamed .loadBp p u = .next t) : t.block = u.block := by
  rw [writeNamed_eq] at h
  cases h
  rfl

/-- A reset that begins or ends drops the instruction in progress (R189; log entry 18). -/
theorem block_cpuReset (h : writeNamed .cpuReset p u = .next t) :
    t.block = { u.block with cpuRst := p, owed := if p || u.block.cpuRst then [] else u.block.owed } := by
  have hrst : (onPort (commandWord (codeOf u.binding.cmd .cpuReset) p) u).bank.cpuRst = u.block.cpuRst := rfl
  rw [writeNamed_eq] at h
  simp only [instrOf, exec, execCpuReset, hrst] at h
  cases h
  split <;> rfl

theorem halted_cpuReset {bpEn cpuRst : Bool} (h : writeNamed .cpuReset p u = .next t)
    (hb : u.block.Halted bpEn cpuRst) : t.block.Halted bpEn p := by
  rw [block_cpuReset h]
  exact ⟨hb.ssEn, hb.bpEn, hb.evq, by simp [hb.owed], rfl⟩

theorem block_watchAck (h : writeNamed .watchAck p u = .next t) :
    t.block = { u.block with evq := u.block.evq.tail } := by
  rw [writeNamed_eq] at h
  cases h
  rfl

theorem block_fifoReset (h : writeNamed .fifoReset p u = .next t) : t.block = { u.block with evq := [] } := by
  rw [writeNamed_eq] at h
  cases h
  rfl

/-- With the comparators off a STEP leaves the target halted, between two instructions, and no event behind (R112,
R184). -/
theorem halted_step (h : writeNamed .step p u = .next t) (hb : u.block.Halted false false) :
    t.block.Halted false false := by
  obtain ⟨t', hw, hrun⟩ := writeNamed_step p hb.ssEn hb.cpuRst
  cases hw.symm.trans h
  exact ⟨hrun.ssEn, hrun.bpEn.trans hb.bpEn, (hrun.evq hb.bpEn).trans hb.evq, hrun.owed, hrun.cpuRst⟩

end

/-! ## The table: ENGINE's rows -/

theorem writeNamed_engine {n : CmdName} {p : Bool} (h : writeNamed n p u = .next t) : t.engine = u.engine :=
  (writeNamed_frame h).engine

theorem Lone.write {n : CmdName} {p : Bool} (h : Lone u) (hw : writeNamed n p u = .next t) : Lone t where
  alone := by rw [(writeNamed_frame hw).schedule]; exact h.alone
  owner := by rw [writeNamed_engine hw]; exact h.owner
  seen := writeWord_seen hw

theorem Lone.goto (h : Lone s) (q : Phase) : Lone (s.goto q) where
  alone := h.alone
  owner := by
    rw [goto_engine]
    dsimp only
    split
    · nofun
    · exact h.owner
  seen := h.seen

/-! `Lone` speaks neither of EC_STATE and the phase nor of ENGINE's registers and the store. -/

theorem Lone.readLow (h : Lone s) (sel : Sel4) : Lone (readLow sel s) := { h with }

theorem Lone.traceIa (h : Lone s) : Lone (traceIa s) := { h with }

theorem Lone.latchIa (h : Lone s) : Lone (latchIa s) := { h with }

theorem Lone.latchTa (h : Lone s) : Lone (latchTa s) := { h with }

theorem Lone.latchMode (h : Lone s) (sel : Sel4) (m : Byte) (r : Report) :
    Lone (((selected sel s).setEngine { s.engine with rMode := m }).emit r) := { h with }

theorem Lone.countPulse (h : Lone s) (i : Nat) : Lone (s.setEngine { s.engine with stepIdx := i }) := { h with }

theorem Lone.loadWord (h : Lone s) (k : Nat) : Lone (loadWord k s) := { h with }

theorem Lone.start (h : Lone s) :
    Lone ((s.setStore []).setEngine { s.engine with started := true, ecState := .stepping }) := { h with }

theorem Lone.readStatus (h : Lone s) : Lone (readStatus s) := { h with }

theorem Lone.enter (h : Lone s) (e : EcState) : Lone (s.enter e) := { h with }

theorem Lone.discardInput (h : Lone s) : Lone (discardInput s) := { h with }

theorem Engine.placed {e : Engine} (hec : e.ecState = e.phase.ecState) (hst : e.started = !e.phase.isStartup) :
    e.Placed where
  ecState := hec
  boot := by cases hs : e.started <;> simp_all

/-- ENGINE goes on to the position q, or ends its operation there. -/
theorem Lone.goto_protocol (h : Lone s) (q : Phase) (hec : s.engine.ecState = q.ecState)
    (hst : s.engine.started = !q.isStartup) (fits : s.block.Fits s.engine.started q) : Protocol (s.goto q) :=
  (h.goto q).protocol (Engine.placed hec hst) fits

/-- ENGINE's bookkeeping in u, and then its command. -/
theorem Lone.write_protocol {n : CmdName} {p : Bool} (h : Lone u) (hw : writeNamed n p u = .next t)
    (hec : u.engine.ecState = u.engine.phase.ecState) (hst : u.engine.started = !u.engine.phase.isStartup)
    (fits : t.block.Fits u.engine.started u.engine.phase) : Protocol t := by
  have he := writeNamed_engine hw
  exact (h.write hw).protocol (he ▸ Engine.placed hec hst) (he ▸ fits)

/-- A bit of an arm: ENGINE stays at A_BIT or goes on to A_ENABLE, with the bus. -/
theorem countBit_engine_cases (s : State) :
    (countBit s).engine.ecState = s.engine.ecState ∧ (countBit s).engine.started = s.engine.started ∧
    (countBit s).engine.busOwner = s.engine.busOwner ∧
    ((countBit s).engine.phase = s.engine.phase ∨ (countBit s).engine.phase = .aEnable) := by
  by_cases hb : s.engine.bitCnt + 1 < 26
  · rw [countBit_within s hb]
    exact ⟨rfl, rfl, rfl, .inl rfl⟩
  by_cases hk : s.engine.slotCnt + 1 < 8
  · rw [countBit_word s hb hk]
    exact ⟨rfl, rfl, rfl, .inl rfl⟩
  · rw [countBit_last s hb hk]
    exact ⟨rfl, rfl, rfl, .inr rfl⟩

theorem Lone.countBit (h : Lone s) : Lone (countBit s) where
  alone := by rw [countBit_schedule]; exact h.alone
  owner := by
    obtain ⟨-, -, ho, -⟩ := countBit_engine_cases s
    rw [ho]
    exact h.owner
  seen := by
    rw [strobePending, countBit_port, countBit_bank]
    exact h.seen

theorem countBit_block (s : State) : (countBit s).block = s.block := by
  rw [State.block, countBit_bank, countBit_target, countBit_marks]
  rfl

theorem rowBit_keeps_protocol (h : Lone s) (hp : s.engine.phase = .aBit) (hec : s.engine.ecState = .stepping)
    (up : s.engine.started = true) (fits : s.block.Halted false false) (hr : rowBit s = .next t) : Protocol t := by
  obtain ⟨hec', hst', -, hp'⟩ := countBit_engine_cases s
  have hb : t.block.Halted false false := by rwa [block_loadBp hr, countBit_block]
  have hnext : (countBit s).engine.phase.ecState = .stepping ∧ (countBit s).engine.phase.isStartup = false ∧
      t.block.Fits (countBit s).engine.started (countBit s).engine.phase := by
    rw [hp] at hp'
    obtain hq | hq := hp' <;> rw [hq] <;> exact ⟨rfl, rfl, hb⟩
  obtain ⟨hq, hu, hfits⟩ := hnext
  exact h.countBit.write_protocol hr (by rw [hec', hec, hq]) (by rw [hst', up, hu]; rfl) hfits

theorem Protocol.lone (h : Protocol s) : Lone s := ⟨h.alone, h.owner, h.seen⟩

/-- ENGINE takes the bus, in a state of the protocol, for an operation whose first row is q. -/
theorem Lone.begin_protocol (h : Lone s) (q : Phase) (hec : s.engine.ecState = q.ecState)
    (hst : s.engine.started = !q.isStartup) (fits : s.block.Fits s.engine.started q) : Protocol (s.begin q) :=
  Lone.protocol ⟨h.alone, nofun, h.seen⟩ (Engine.placed hec hst) fits

theorem rowIdle_keeps_protocol (h : Protocol s) (hp : s.engine.phase = .idle) : Protocol (rowIdle s) := by
  unfold rowIdle
  split
  · exact h
  next hf =>
  have ⟨hst, _⟩ : s.engine.started = false ∧ s.engine.busOwner = none := by simpa using hf
  have hec := h.ecState
  rw [hp] at hec
  exact h.lone.begin_protocol .uSs hec hst trivial

/-- The positions to which S_PULSE leads (R206, R223). -/
theorem afterPulse_cases (count i : Nat) : afterPulse count i = .sPulse ∨ afterPulse count i = .idle := by
  unfold afterPulse
  split
  · exact .inl rfl
  · exact .inr rfl

theorem rowPulse_keeps_protocol (h : Lone s) (hec : s.engine.ecState = .stepping) (up : s.engine.started = true)
    (fits : s.block.Halted false false) (hr : rowPulse s = .next t) : Protocol t := by
  have counted := h.countPulse (s.engine.stepIdx + 1)
  unfold rowPulse at hr
  dsimp only at hr
  split at hr
  · exact (counted.goto .sRdLo).write_protocol hr hec up (halted_step hr fits)
  · obtain hq | hq := afterPulse_cases s.engine.stepCount (s.engine.stepIdx + 1) <;> rw [hq] at hr
    · exact (counted.goto .sPulse).write_protocol hr hec up (halted_step hr fits)
    · exact (counted.goto .idle).write_protocol hr hec up fun _ => halted_step hr fits

/-- The positions to which the poll loop goes on (R212). -/
theorem pollOn_cases (s : State) : pollOn s = .xSs ∨ pollOn s = .pWait := by
  unfold pollOn
  split
  · exact .inl rfl
  · exact .inr rfl

/-- The hit is handled where the sample saw an event, which is still pending (R212). -/
theorem rowStatus_keeps_protocol (h : Lone s) (hec : s.engine.ecState = .armed) (up : s.engine.started = true)
    (fits : s.block.Watched) : Protocol (rowStatus s) := by
  have act : (readStatus s).engine.stAct = !s.bank.evq.isEmpty := by rw [readStatus_eq]; rfl
  unfold rowStatus
  dsimp only
  split
  next hact =>
    have pending : s.bank.evq ≠ [] := by simpa [act] using hact
    exact h.readStatus.goto_protocol .hIaLo hec up ⟨fits, pending⟩
  · obtain hq | hq := pollOn_cases (readStatus s) <;> rw [hq]
    · exact h.readStatus.goto_protocol .xSs hec up fits
    · exact h.readStatus.goto_protocol .pWait hec up fits

/-- HIT_MODE decodes to the head event's compressed mode (R93, R204). -/
theorem hitDecode_readValue {e : Event} {rest : List Event} (h : s.bank.evq = e :: rest) :
    hitDecode (readValue (offset .hitMode s) s) =
      { watch := e.cmode.getLsbD 3, kind := e.cmode.extractLsb' 0 3, mode6 := expandCmode e.cmode } := by
  rw [hitDecode, readValue_hitMode_low h]

/-- H_MODE goes on to the acknowledge only if the head event is a watch (R204, R215). -/
theorem rowMode_keeps_protocol (h : Lone s) (hec : s.engine.ecState = .armed) (up : s.engine.started = true)
    (fits : s.block.Watched ∧ s.block.evq ≠ []) : Protocol (rowMode s) := by
  obtain ⟨hw, hne⟩ := fits
  obtain ⟨e, rest, hevq⟩ := List.exists_cons_of_ne_nil hne
  unfold rowMode
  dsimp only
  rw [hitDecode_readValue hevq]
  split
  next hwatch => exact (h.latchMode _ _ _).goto_protocol .hAck hec up ⟨hw, e, rest, hevq, hwatch⟩
  · exact (h.latchMode _ _ _).goto_protocol .xSs hec up hw

/-- WATCH_ACK removes a watch, so a breakpoint that has halted the target stays in the queue (R113, R215). -/
theorem Block.Watched.popWatch {b : Block} {e : Event} {rest : List Event} (h : b.Watched)
    (hevq : b.evq = e :: rest) (hwatch : e.cmode.getLsbD 3 = true) : { b with evq := b.evq.tail }.Watched where
  bpEn := h.bpEn
  cpuRst := h.cpuRst
  halted hss := by
    obtain ⟨hauto, ⟨x, hmem, hbreak⟩ | hlost⟩ := h.halted hss
    · rw [hevq, List.mem_cons] at hmem
      obtain rfl | hmem := hmem
      · exact nomatch hwatch.symm.trans hbreak
      · exact ⟨hauto, .inl ⟨x, hevq ▸ hmem, hbreak⟩⟩
    · exact ⟨hauto, .inr hlost⟩

theorem rowStarted_keeps_protocol (h : Lone s) (fits : s.block.Halted false true) (hr : rowStarted s = .next t) :
    Protocol t :=
  (h.start.goto .idle).write_protocol hr rfl rfl fun _ => halted_cpuReset hr fits

/-- A bus master moves only when a target in single-step mode has come to the end of its instruction (R188). -/
theorem owed_of_halted (hss : s.bank.ssEn = true) (hrst : s.bank.cpuRst = false) (h : haltPending s = false) :
    s.target.owed = [] := by simpa [haltPending, hss, hrst] using h

/-- ENGINE's rows, each from its line of the table to the next one's. -/
theorem engineRow_keeps_protocol (h : Protocol s) (hhalt : haltPending s = false) (hr : engineRow s = .next t) :
    Protocol t := by
  have lone := h.lone
  have fits := h.fits
  have ec := h.ecState
  have boot := h.boot
  revert hr
  unfold engineRow
  cases hp : s.engine.phase <;> intro hr <;> rw [hp] at ec boot fits
  case idle => cases hr; exact rowIdle_keeps_protocol h hp
  case uSs => exact (lone.goto .uBp).write_protocol hr ec boot (by rw [block_ssEnable hr]; rfl)
  case uBp => exact (lone.goto .uFifo).write_protocol hr ec boot (by rw [block_bpEnable hr]; exact ⟨fits, rfl, rfl⟩)
  case uFifo =>
    obtain ⟨hss, hbp, -⟩ := fits
    exact (lone.goto .uRstOn).write_protocol hr ec boot (by rw [block_fifoReset hr]; exact ⟨hss, hbp, rfl⟩)
  case uRstOn =>
    obtain ⟨hss, hbp, hevq⟩ := fits
    have resetting : t.block.Halted false true := by
      rw [block_cpuReset hr]
      exact ⟨hss, hbp, hevq, rfl, rfl⟩
    exact (lone.goto .uRstOff).write_protocol hr ec boot resetting
  case uRstOff => exact rowStarted_keeps_protocol lone fits hr
  case rRstOn => exact (lone.goto .rRstOff).write_protocol hr ec boot (halted_cpuReset hr fits)
  case rRstOff => exact (lone.goto .idle).write_protocol hr ec boot fun _ => halted_cpuReset hr fits
  case sPulse => exact rowPulse_keeps_protocol lone ec boot fits hr
  case sRdLo => cases hr; exact (lone.readLow _).goto_protocol .sRdHi ec boot fits
  case sRdHi =>
    cases hr
    obtain hq | hq := afterPulse_cases s.engine.stepCount s.engine.stepIdx <;> rw [hq]
    · exact lone.traceIa.goto_protocol .sPulse ec boot fits
    · exact lone.traceIa.goto_protocol .idle ec boot fun _ => fits
  case cPrestep => exact (lone.goto .aDisable).write_protocol hr ec boot (halted_step hr fits)
  case aDisable =>
    have flushed : t.block.Halted false false := by
      rw [block_bpEnable hr]
      exact ⟨fits.ssEn, rfl, rfl, fits.owed, fits.cpuRst⟩
    exact ((lone.loadWord 0).goto .aBit).write_protocol hr ec boot flushed
  case aBit => exact rowBit_keeps_protocol lone hp ec boot fits hr
  case aEnable =>
    have enabled : t.block.Halted true false := by
      rw [block_bpEnable hr]
      exact ⟨fits.ssEn, rfl, fits.evq, fits.owed, fits.cpuRst⟩
    exact (lone.goto .cRelease).write_protocol hr ec boot enabled
  case cRelease =>
    have released : t.block.Watched := by
      rw [block_ssEnable hr]
      exact ⟨fits.bpEn, fits.cpuRst, nofun⟩
    exact ((lone.enter .armed).goto .pWait).write_protocol hr rfl boot released
  case pWait => cases hr; exact lone.goto_protocol .pStatus ec boot fits
  case pStatus => cases hr; exact rowStatus_keeps_protocol lone ec boot fits
  case hIaLo => cases hr; exact (lone.readLow _).goto_protocol .hIaHi ec boot fits
  case hIaHi => cases hr; exact lone.latchIa.goto_protocol .hTaLo ec boot fits
  case hTaLo => cases hr; exact (lone.readLow _).goto_protocol .hTaHi ec boot fits
  case hTaHi => cases hr; exact lone.latchTa.goto_protocol .hMode ec boot fits
  case hMode => cases hr; exact rowMode_keeps_protocol lone ec boot fits
  case hAck =>
    obtain ⟨hw, e, rest, hevq, hwatch⟩ := fits
    have popped : t.block.Watched := by
      rw [block_watchAck hr]
      exact hw.popWatch hevq hwatch
    obtain hq | hq := pollOn_cases s <;> rw [hq] at hr
    · exact (lone.goto .xSs).write_protocol hr ec boot popped
    · exact (lone.goto .pWait).write_protocol hr ec boot popped
  case xSs =>
    have halting : t.block.ssEn = true ∧ t.block.cpuRst = false := by
      rw [block_ssEnable hr]
      exact ⟨rfl, fits.cpuRst⟩
    exact ((lone.enter .stopped).discardInput.goto .xBp).write_protocol hr rfl boot halting
  case xBp =>
    obtain ⟨hss, hrst⟩ := fits
    have safe : t.block.Halted false false := by
      rw [block_bpEnable hr]
      exact ⟨hss, rfl, rfl, owed_of_halted hss hrst hhalt, hrst⟩
    exact (lone.goto .xRdLo).write_protocol hr ec boot safe
  case xRdLo => cases hr; exact (lone.readLow _).goto_protocol .xRdHi ec boot fits
  case xRdHi => cases hr; exact (lone.traceIa.enter .stepping).goto_protocol .idle rfl boot fun _ => fits

/-! ## The protocol: the other agents -/

/-- Where ENGINE accepts a call the target is halted (R240). -/
theorem Protocol.halted_of_acceptsCall (h : Protocol s) (hacc : acceptsCall s = true) : s.block.Halted false false := by
  obtain ⟨hst, -, hp⟩ := acceptsCall_iff.1 hacc
  have fits := h.fits
  rw [hp] at fits
  exact fits hst

/-- The protocol holds after a move that leaves EC_STATE alone. -/
structure Kept (s t : State) : Prop where
  protocol : Protocol t
  ecState : t.engine.ecState = s.engine.ecState

theorem callStep_kept (h : Protocol s) (count traceEvery : Nat) : Kept s (callStep count traceEvery s) := by
  unfold callStep
  split
  · exact ⟨{ h with }, rfl⟩
  split
  · exact ⟨{ h with }, rfl⟩
  split
  next hacc =>
    obtain ⟨hst, hec, -⟩ := acceptsCall_and_free hacc
    have halted := h.halted_of_acceptsCall (Bool.and_eq_true_iff.1 hacc).1
    have counting : Lone (s.setEngine { s.engine with stepIdx := 0, stepCount := count, traceEvery := traceEvery }) :=
      { h with }
    exact ⟨counting.begin_protocol .sPulse hec hst halted, rfl⟩
  · exact ⟨{ h with }, rfl⟩

theorem beginCall_kept (h : Protocol s) (p : Phase) (hp : p = .cPrestep ∨ p = .rRstOn) : Kept s (beginCall p s) := by
  unfold beginCall
  split
  next hacc =>
    obtain ⟨hst, hec, -⟩ := acceptsCall_and_free hacc
    have halted := h.halted_of_acceptsCall (Bool.and_eq_true_iff.1 hacc).1
    obtain rfl | rfl := hp
    · exact ⟨h.lone.begin_protocol .cPrestep hec hst halted, rfl⟩
    · exact ⟨h.lone.begin_protocol .rRstOn hec hst halted, rfl⟩
  · exact ⟨{ h with }, rfl⟩

theorem callContinue_kept (h : Protocol s) : Kept s (callContinue s) := by
  unfold callContinue
  split
  · exact ⟨{ h with }, rfl⟩
  split
  · exact ⟨{ h with }, rfl⟩
  · exact beginCall_kept h _ (.inl rfl)

theorem callReset_kept (h : Protocol s) : Kept s (callReset s) := by
  unfold callReset
  split
  · exact ⟨{ h with }, rfl⟩
  · exact beginCall_kept h _ (.inr rfl)

/-- The protocol does not speak of the store. -/
theorem callStore_kept (h : Protocol s) (r : Option Reply) : Kept s (callStore r s) := by
  unfold callStore
  split
  · cases r with
    | none => exact ⟨{ h with }, rfl⟩
    | some x =>
      dsimp only
      rw [applyReply_eq]
      exact ⟨{ h with }, rfl⟩
  · exact ⟨{ h with }, rfl⟩

theorem driverMove_kept (h : Protocol s) (op : DriverOp) : Kept s (driverMove op s) := by
  have drawn : Protocol s.drawn := { h with }
  have of_drawn {t : State} (k : Kept s.drawn t) : Kept s t := ⟨k.protocol, k.ecState⟩
  cases op with
  | step count traceEvery => exact callStep_kept h count traceEvery
  | continueExecution => exact callContinue_kept h
  | reset => exact callReset_kept h
  | setBreakpoint a m x => exact callStore_kept h _
  | clearMode a m => exact callStore_kept h (some _)
  | setTrigger i code => exact of_drawn (callStore_kept drawn (some _))
  | triggerAt a code => exact of_drawn (callStore_kept drawn (some _))
  | findByAddress a => exact callStore_kept h (some _)
  | indexValid i => exact callStore_kept h (some _)
  | list => exact callStore_kept h (some _)

theorem envMove_kept (h : Protocol s) (a : EnvAct) : Kept s (envMove a s) := by
  cases a <;> exact ⟨{ h with }, rfl⟩

theorem targetMove_kept (h : Protocol s) : Kept s (targetMove s) := by
  have frame := targetMove_frame s
  have lone : Lone (targetMove s) := by
    refine ⟨frame.schedule ▸ h.alone, frame.engine ▸ h.owner, ?_⟩
    rw [strobePending, frame.port, frame.strobeSeen]
    exact h.seen
  exact ⟨lone.protocol (frame.engine ▸ ⟨h.ecState, h.boot⟩) (frame.engine ▸ targetMove_fits h.fits),
    congrArg Engine.ecState frame.engine⟩

/-! ## The protocol: a step -/

/-- With the next move off the schedule. -/
theorem Protocol.take (h : Protocol s) : Protocol (s.setSchedule s.schedule.tail) :=
  { h with alone := fun m hm => h.alone m (List.mem_of_mem_tail hm) }

/-- A move that is not ENGINE's stands in the schedule. -/
theorem nextMove_mem (h : nextMove s ≠ .engine) : nextMove s ∈ s.schedule := by
  unfold nextMove at h ⊢
  cases hl : s.schedule with
  | nil => exact absurd (by rw [hl]; rfl) h
  | cons m rest => exact List.mem_cons_self

theorem Kept.of_take (h : Kept (s.setSchedule s.schedule.tail) t) : Kept s t := ⟨h.protocol, h.ecState⟩

/-- In the protocol a step is ENGINE's row, or leaves EC_STATE alone: no command is pending and no other requester
moves. -/
theorem Protocol.step_cases (h : Protocol s) (hs : step s = .next t) :
    Kept s t ∨ haltPending s = false ∧ engineRow (s.setSchedule s.schedule.tail) = .next t := by
  rw [step_of_seen s h.seen, scheduledMove] at hs
  split at hs
  · cases hs; exact .inl (targetMove_kept h)
  next hready =>
  cases hm : nextMove s <;> rw [hm] at hs hready
  case engine => exact .inr ⟨by simpa [Move.isMaster] using hready, hs⟩
  case target => cases hs; exact .inl (targetMove_kept h.take).of_take
  case env a => cases hs; exact .inl (envMove_kept h.take a).of_take
  case driver op => cases hs; exact .inl (driverMove_kept h.take op).of_take
  case external c => cases hs; exact .inl (driverMove_kept h.take (expand c)).of_take
  case master id op => exact absurd hm (h.alone _ (nextMove_mem (hm ▸ nofun)) id op)

/-- The three transitions are those of C_RELEASE, X_SS and the last row of the shutdown path (R201, R223). -/
theorem engineRow_ecState_cases (hec : s.engine.ecState = s.engine.phase.ecState) (h : engineRow s = .next t) :
    t.engine.ecState = s.engine.ecState ∨ (s.engine.ecState, t.engine.ecState) ∈
      [(EcState.stepping, EcState.armed), (.armed, .stopped), (.stopped, .stepping)] := by
  revert h
  unfold engineRow
  cases hp : s.engine.phase <;> intro h <;> rw [hp] at hec
  case cRelease => rw [writeNamed_engine h, hec]; exact .inr (.head _)
  case xSs => rw [writeNamed_engine h, hec]; exact .inr (.tail _ (.head _))
  case xRdHi => cases h; rw [hec]; exact .inr (.tail _ (.tail _ (.head _)))
  all_goals left
  case idle => cases h; unfold rowIdle; split <;> rfl
  case uRstOff => rw [writeNamed_engine h, hec]; rfl
  case aBit =>
    obtain ⟨hkept, -⟩ := countBit_engine_cases s
    rw [writeNamed_engine h, hkept]
  case sRdLo | sRdHi | pWait | pStatus | hIaLo | hIaHi | hTaLo | hTaHi | hMode | xRdLo => cases h; rfl
  case sPulse | cPrestep | aDisable | aEnable | hAck | xBp | uSs | uBp | uFifo | uRstOn | rRstOn | rRstOff =>
    rw [writeNamed_engine h]; rfl

/-- Settles O60: each position of ENGINE's has its line in the table of `Block.Fits`, and each row leads from its own
line to the next position's. -/
theorem everyStepKeepsTheProtocol : Obligations.EveryStepKeepsTheProtocol := by
  intro s t h hs
  obtain hkept | ⟨hhalt, hr⟩ := h.step_cases hs
  · exact ⟨hkept.protocol, .inl hkept.ecState⟩
  · exact ⟨engineRow_keeps_protocol h.take hhalt hr,
      engineRow_ecState_cases (s := s.setSchedule s.schedule.tail) h.ecState hr⟩

/-! ## The discriminator -/

/-- Settles O22: the low nibble is the compressed mode, whose expansion is known mode by mode. -/
theorem hitDecodeReadsTheLowNibble : Obligations.HitDecodeReadsTheLowNibble := by
  intro high watch kind
  have hexpand : ∀ (w : Bool) (k : BitVec 3), (BitVec.ofBool w ++ k : CMode4).getLsbD 3 = w ∧
      (BitVec.ofBool w ++ k : CMode4).extractLsb' 0 3 = k ∧
      expandCmode (BitVec.ofBool w ++ k) = if w then k ++ 0#3 else 0#3 ++ k := by decide
  obtain ⟨hwatch, hkind, hmode⟩ := hexpand watch kind
  rw [hitDecode_append, hwatch, hkind, hmode]

/-! ## Calls outside `Stepping` -/

/-- A failure is reported and returned by name, and nothing else changes (R265). -/
theorem raise_eq (f : Failure) (s : State) : s.raise f = s.setOut
    { reports := s.out.reports ++ [.message f], results := s.out.results ++ [.named f] } := rfl

/-- Settles O39: each of the three calls looks at EC_STATE first. -/
theorem callsOutsideSteppingFail : Obligations.CallsOutsideSteppingFail := by
  intro s count traceEvery op hec hop
  rw [← raise_eq]
  simp only [List.mem_cons, List.not_mem_nil, or_false] at hop
  obtain rfl | rfl | rfl := hop
  · exact if_pos hec
  · exact if_pos hec
  · exact if_pos hec

/-! ## The rows that write a command -/

theorem engineRow_cRelease (hp : s.engine.phase = .cRelease) :
    engineRow s = .next (afterWrite (commandWord (codeOf s.binding.cmd .ssEnable) false)
      ((s.enter .armed).goto .pWait) { s.bank with ssEn := false }) := by
  simp only [engineRow, hp, writeNamed_eq]
  rfl

theorem engineRow_hAck (hp : s.engine.phase = .hAck) :
    engineRow s = .next (afterWrite (commandWord (codeOf s.binding.cmd .watchAck) false)
      (s.goto (pollOn s)) { s.bank with evq := s.bank.evq.tail }) := by
  simp only [engineRow, hp, writeNamed_eq]
  rfl

/-- Settles O45: by C_RELEASE's row. -/
theorem releaseEntersArmed : Obligations.ReleaseEntersArmed := by
  intro s h hp
  have hrow := engineRow_cRelease (s := s.setSchedule s.schedule.tail) hp
  exact ⟨_, (step_of_engineTurn h).trans hrow, rfl, rfl, rfl, rfl, rfl⟩

/-- Settles O48: by H_ACK's row. -/
theorem watchIsAcknowledgedAndPollingGoesOn : Obligations.WatchIsAcknowledgedAndPollingGoesOn := by
  intro s h hp hec
  have hrow := engineRow_hAck (s := s.setSchedule s.schedule.tail) hp
  exact ⟨_, (step_of_engineTurn h).trans hrow, rfl, hec, rfl, rfl⟩

/-! ## The sample -/

/-- P_STATUS goes on to the hit if the sample saw an event, else by the sample's INTR and by RX_PENDING (R212). -/
theorem rowStatus_phase (s : State) : (rowStatus s).engine.phase =
    if s.bank.evq ≠ [] then .hIaLo else if s.env.intr || s.env.rxPending then .xSs else .pWait := by
  unfold rowStatus pollOn wantsExit
  rw [readStatus_eq]
  cases s.bank.evq with
  | nil => simp
  | cons e rest => simp

/-- Settles O46: the sample is both flags of the present state (R136). -/
theorem pollSamplesAndDecides : Obligations.PollSamplesAndDecides := by
  intro s h hp
  have hrow : engineRow (s.setSchedule s.schedule.tail) = .next (rowStatus (s.setSchedule s.schedule.tail)) := by
    simp only [engineRow, setSchedule_engine, hp]
  refine ⟨_, (step_of_engineTurn h).trans hrow, ?_, ?_, rowStatus_phase _, rfl, rfl, rfl⟩
  · simp [rowStatus, readStatus_eq]
  · simp [rowStatus, readStatus_eq]

/-! ## How often `step` reports -/

theorem reportAfter_iff (count traceEvery i : Nat) :
    reportAfter count traceEvery i = true ↔ i = count ∨ (0 < traceEvery ∧ i % traceEvery = 0) := by
  simp [reportAfter]

/-- Before the last step the reports are those of the multiples of `traceEvery`, none if it is 0. -/
theorem length_filter_reportAfter (n traceEvery : Nat) :
    ((List.range n).filter fun i => reportAfter (n + 1) traceEvery (i + 1)).length = n / traceEvery := by
  rw [← Nat.card_multiples n traceEvery]
  refine congrArg List.length (List.filter_congr fun i hi => ?_)
  have hlast : i + 1 ≠ n + 1 := by simpa using (List.mem_range.1 hi).ne
  have hpos (hmod : (i + 1) % traceEvery = 0) : 0 < traceEvery :=
    Nat.pos_of_ne_zero fun h0 => by simp [h0] at hmod
  rw [Bool.eq_iff_iff, reportAfter_iff, decide_eq_true_iff, or_iff_right hlast, and_iff_right_of_imp hpos]
  exact Nat.dvd_iff_mod_eq_zero.symm

/-- Settles O40: the last step reports, and before it every multiple of `traceEvery`. -/
theorem stepReportCount : Obligations.StepReportCount := by
  intro count traceEvery hcount
  refine ⟨reportAfter_iff count traceEvery, ?_⟩
  obtain ⟨n, rfl⟩ := Nat.exists_eq_add_of_le' hcount
  have hlast : reportAfter (n + 1) traceEvery (n + 1) = true := (reportAfter_iff _ _ _).2 (.inl rfl)
  rw [List.range_succ, List.filter_append, List.length_append, length_filter_reportAfter, List.filter_singleton, hlast,
    Nat.succ_div]
  obtain rfl | hpos := traceEvery.eq_zero_or_pos
  · simp
  · rw [if_neg hpos.ne']
    simp only [Nat.dvd_iff_mod_eq_zero]
    split <;> rfl

/-! ## Rows on a quiet bus -/

/-- With the bus ready and nothing scheduled, a run begins with ENGINE's row. -/
theorem Quiet.runSteps_succ (h : Quiet s) (hr : engineRow s = .next t) (n : Nat) :
    runSteps (n + 1) s = runSteps n t :=
  Machine.runSteps_succ n ((step_of_quiet s h.1.1 h.1.2 h.2).trans hr)

/-- A low sub-read leaves the bus ready. -/
theorem Quiet.readLow (h : Quiet s) (sel : Sel4) (q : Phase) : Quiet ((readLow sel s).goto q) := h

/-! ## The hit read-back -/

section
variable {e : Event} {rest : List Event}

/-- The two sub-reads of the hit's instruction address (R213). -/
theorem runSteps_hitIa (hq : Quiet s) (hp : s.engine.phase = .hIaLo) (h : s.bank.evq = e :: rest) :
    ∃ t, runSteps 2 s = .next t ∧ Quiet t ∧ t.engine.phase = .hTaLo ∧ t.engine.rIa = e.hitIa ∧ t.bank = s.bank ∧
      t.binding = s.binding ∧ t.out = s.out ∧ t.port.strobe = s.port.strobe := by
  have hlo : engineRow s = .next ((readLow (offset .hitIaLo s) s).goto .hIaHi) := by simp only [engineRow, hp]
  have hword := congrArg₂ (· ++ ·) (readValue_hitIaHi (u := (readLow (offset .hitIaLo s) s).goto .hIaHi) rfl h)
    (readValue_hitIaLo h)
  exact ⟨(latchIa ((readLow (offset .hitIaLo s) s).goto .hIaHi)).goto .hTaLo,
    (hq.runSteps_succ hlo 1).trans ((hq.readLow _ _).runSteps_succ rfl 0), hq, rfl,
    hword.trans (high_append_low _), rfl, rfl, rfl, rfl⟩

/-- The two sub-reads of the hit's target address (R213). -/
theorem runSteps_hitTa (hq : Quiet s) (hp : s.engine.phase = .hTaLo) (h : s.bank.evq = e :: rest) :
    ∃ t, runSteps 2 s = .next t ∧ Quiet t ∧ t.engine.phase = .hMode ∧ t.engine.rTa = e.hitTa ∧
      t.engine.rIa = s.engine.rIa ∧ t.bank = s.bank ∧ t.binding = s.binding ∧ t.out = s.out ∧
      t.port.strobe = s.port.strobe := by
  have hlo : engineRow s = .next ((readLow (offset .hitTaLo s) s).goto .hTaHi) := by simp only [engineRow, hp]
  have hword := congrArg₂ (· ++ ·) (readValue_hitTaHi (u := (readLow (offset .hitTaLo s) s).goto .hTaHi) rfl h)
    (readValue_hitTaLo h)
  exact ⟨(latchTa ((readLow (offset .hitTaLo s) s).goto .hTaHi)).goto .hMode,
    (hq.runSteps_succ hlo 1).trans ((hq.readLow _ _).runSteps_succ rfl 0), hq, rfl,
    hword.trans (high_append_low _), rfl, rfl, rfl, rfl, rfl⟩

theorem rowMode_reports (h : s.bank.evq = e :: rest) : (rowMode s).out.reports = s.out.reports ++
    [.hitReport (expandCmode e.cmode) s.engine.rIa
      (if expandCmode e.cmode &&& 0b110110#6 = 0 then none else some s.engine.rTa)] := by
  simp [rowMode, hitDecode_readValue h, hitReport, reportsData]

theorem rowMode_phase (h : s.bank.evq = e :: rest) :
    (rowMode s).engine.phase = if e.cmode.getLsbD 3 then .hAck else .xSs := by
  simp [rowMode, hitDecode_readValue h]

end

/-- Settles O47: the two addresses in two rows each, and the mode; no row touches the bank. -/
theorem hitReadBackReportsTheHead : Obligations.HitReadBackReportsTheHead := by
  intro s e rest h hp hevq
  obtain ⟨u, hu, hqu, hpu, hia, hbu, hbindu, hou, hsu⟩ := runSteps_hitIa h hp hevq
  obtain ⟨v, hv, hqv, hpv, hta, hiav, hbv, hbindv, hov, hsv⟩ := runSteps_hitTa hqu hpu (hbu ▸ hevq)
  have hrow : engineRow v = .next (rowMode v) := by simp only [engineRow, hpv]
  have hq : v.bank.evq = e :: rest := by rw [hbv, hbu, hevq]
  have hrun : runSteps 5 s = .next (rowMode v) :=
    (runSteps_add 2 3 hu).trans ((runSteps_add 2 1 hv).trans (hqv.runSteps_succ hrow 0))
  refine ⟨_, hrun, hiav.trans hia, hta, readValue_hitMode_low hq, ?_, rowMode_phase hq, hbv.trans hbu,
    offset_congr .hitMode (hbindv.trans hbindu), hsv.trans hsu⟩
  rw [rowMode_reports hq, hov, hou, hiav, hia, hta]

/-! ## The target's owed cycles -/

/-- A halted target presents the cycles it owes, one a step, and the bus is then ready (R188). -/
theorem runSteps_owed (hseen : strobePending s = false) (hsched : s.schedule = []) (hss : s.bank.ssEn = true)
    (hrst : s.bank.cpuRst = false) : runSteps s.target.owed.length s = .next (finishInstr s) := by
  induction howed : s.target.owed generalizing s with
  | nil => rw [finishInstr_of_done s howed]; rfl
  | cons d rest ih =>
    have hhalt : haltPending s = true := by simp [haltPending, hss, hrst, howed]
    have hmaster : (nextMove s).isMaster = true := by rw [nextMove, hsched]; rfl
    have hstep := step_of_haltPending hseen hmaster hhalt
    have frame := targetMove_frame s
    rw [targetMove_of_owed hrst howed] at hstep frame
    rw [List.length_cons, Machine.runSteps_succ _ hstep, ih]
    · simp only [finishInstr, howed, present_setTarget, setTarget_setTarget, setTarget_target, presentData_setTarget,
        presentData_cons]
    · rw [strobePending, frame.port, frame.strobeSeen]; exact hseen
    · rw [frame.schedule, hsched]
    · exact frame.ssEn hss
    · rw [frame.cpuRst, hrst]
    · rw [present_target]; rfl

/-! ## The shutdown path -/

/-- The current instruction address, from its two sub-reads, is reported (R206, R219). -/
theorem traceIa_readLow (q : Phase) (s : State) : (traceIa ((readLow (offset .iaLo s) s).goto q)).out.reports =
    s.out.reports ++ [.traceAddr s.bank.ia] := by
  have hword := congrArg₂ (· ++ ·) (readValue_iaHi (u := (readLow (offset .iaLo s) s).goto q) rfl)
    (readValue_iaLo (s := s))
  exact congrArg (fun w => s.out.reports ++ [.traceAddr w]) (hword.trans (high_append_low _))

/-- Out of `Armed` the target is asked to halt and the input byte is consumed (R218). -/
theorem engineRow_xSs_eq (hp : s.engine.phase = .xSs) :
    engineRow s = .next (afterWrite (commandWord (codeOf s.binding.cmd .ssEnable) true)
      ((discardInput (s.enter .stopped)).goto .xBp) { s.bank with ssEn := true }) := by
  rw [engineRow_xSs hp, writeNamed_eq]
  rfl

theorem engineRow_xBp (hp : s.engine.phase = .xBp) :
    engineRow s = .next (afterWrite (commandWord (codeOf s.binding.cmd .bpEnable) false)
      (s.goto .xRdLo) { s.bank with bpEn := false, evq := [] }) := by
  simp only [engineRow, hp, writeNamed_eq]
  rfl

/-- The last three rows of the shutdown path (R219, R220). -/
theorem runSteps_xBp (h : Quiet s) (hp : s.engine.phase = .xBp) : ∃ t, runSteps 3 s = .next t ∧
    t.bank = { s.bank with bpEn := false, evq := [], strobeSeen := !s.port.strobe } ∧ t.env = s.env ∧
    t.out.reports = s.out.reports ++ [.traceAddr s.bank.ia] ∧
    t.engine.ecState = .stepping ∧ t.engine.phase = .idle ∧ t.engine.busOwner = none := by
  have hq : Quiet (afterWrite (commandWord (codeOf s.binding.cmd .bpEnable) false)
      (s.goto .xRdLo) { s.bank with bpEn := false, evq := [] }) := quiet_afterWrite h _ rfl rfl rfl rfl
  exact ⟨_, (h.runSteps_succ (engineRow_xBp hp) 2).trans
    ((hq.runSteps_succ rfl 1).trans ((hq.readLow _ .xRdHi).runSteps_succ rfl 0)), rfl, rfl, traceIa_readLow .xRdHi _,
    rfl, rfl, rfl⟩

/-- After X_SS the target finishes its instruction, unless it is in reset, and the bus is ready (R188). -/
theorem runSteps_halting (hseen : strobePending s = false) (hsched : s.schedule = []) (hss : s.bank.ssEn = true) :
    ∃ t, runSteps (if s.bank.cpuRst then 0 else s.target.owed.length) s = .next t ∧ Quiet t ∧ CycleFrame s t ∧
      t.bank.ia = s.bank.ia := by
  cases hrst : s.bank.cpuRst with
  | true =>
    have hhalt : haltPending s = false := by simp [haltPending, hrst]
    exact ⟨s, rfl, ⟨⟨hseen, hhalt⟩, hsched⟩, .refl s, rfl⟩
  | false =>
    have frame := finishInstr_frame s
    refine ⟨_, runSteps_owed hseen hsched hss hrst, ⟨⟨?_, ?_⟩, frame.schedule.trans hsched⟩, frame, finishInstr_ia s⟩
    · rw [strobePending, frame.port, frame.strobeSeen]; exact hseen
    · simp [haltPending]

/-- Settles O49: X_SS, the owed cycles of the halted target, and the last three rows. -/
theorem shutdownMakesTheHardwareSafe : Obligations.ShutdownMakesTheHardwareSafe := by
  intro s h hp
  have hrow := engineRow_xSs_eq hp
  refine ⟨⟨_, (step_of_quiet s h.1.1 h.1.2 h.2).trans hrow, rfl, rfl, rfl⟩, ?_⟩
  obtain ⟨v, hv, hquiet, frame, hia⟩ := runSteps_halting (afterWrite_seen
    (commandWord (codeOf s.binding.cmd .ssEnable) true) ((discardInput (s.enter .stopped)).goto .xBp)
    { s.bank with ssEn := true }) h.2 rfl
  obtain ⟨t, ht, hbank, henv, hreports, hec, hidle, howner⟩ := runSteps_xBp hquiet (by rw [frame.engine]; rfl)
  refine ⟨t, ?_, ?_⟩
  · rw [show 4 + (if s.bank.cpuRst then 0 else s.target.owed.length) =
      (if s.bank.cpuRst then 0 else s.target.owed.length) + 3 + 1 by omega, h.runSteps_succ hrow]
    exact (runSteps_add _ 3 hv).trans ht
  · rw [hbank, henv, hreports, hia, frame.out]
    exact ⟨frame.ssEn rfl, rfl, rfl, rfl, frame.bpsr, frame.rxPending, rfl, hec, hidle, howner⟩

/-! ## The calls that run the target -/

/-- With no command pending the DRIVER's call is carried out at once: it is no bus master's move. -/
theorem step_of_driver {op : DriverOp} (hseen : strobePending s = false) (hsched : s.schedule = [.driver op]) :
    step s = .next (driverMove op (s.setSchedule [])) := by
  have hnext : nextMove s = .driver op := by rw [nextMove, hsched]; rfl
  rw [step_of_seen s hseen, scheduledMove, hnext, hsched]
  rfl

section
variable (hacc : acceptsCall s = true) (hfree : s.engine.busOwner = none)
include hacc hfree

theorem callContinue_accepted (hlen : s.store.length ≤ storeCapacity) : callContinue s = s.begin .cPrestep := by
  rw [callContinue, if_neg (not_not.2 (ecState_of_acceptsCall hacc)), if_neg (Nat.not_lt.2 hlen), beginCall, hacc,
    hfree]
  rfl

theorem callStep_accepted {count : Nat} (traceEvery : Nat) (hcount : 1 ≤ count) : callStep count traceEvery s =
    (s.setEngine { s.engine with stepIdx := 0, stepCount := count, traceEvery := traceEvery }).begin .sPulse := by
  rw [callStep, if_neg (not_not.2 (ecState_of_acceptsCall hacc)), if_neg (by omega), hacc, hfree]
  rfl

end

theorem StepRun.quiet (h : StepRun u t) (hsched : u.schedule = []) : Quiet t :=
  ⟨⟨h.seen, by simp [haltPending, h.owed]⟩, h.schedule.trans hsched⟩

/-- Settles O42: the call begins C_PRESTEP, whose STEP runs with the comparators off. -/
theorem continueBeginsWithOneStep : Obligations.ContinueBeginsWithOneStep := by
  intro s ⟨hseen, hhalt⟩ hsched hacc hfree hss hrst hoff hlen
  have hcall : step s = .next ((s.setSchedule []).begin .cPrestep) := by
    rw [step_of_driver hseen hsched, driverMove, callContinue_accepted (s := s.setSchedule []) hacc hfree hlen]
  have hquiet : Quiet ((s.setSchedule []).begin .cPrestep) := ⟨⟨hseen, hhalt⟩, rfl⟩
  obtain ⟨t, hrow, hrun⟩ := writeNamed_step (u := ((s.setSchedule []).begin .cPrestep).goto .aDisable) false hss hrst
  refine ⟨t, (Machine.runSteps_succ 1 hcall).trans (hquiet.runSteps_succ hrow 0), hrun.ia, hrun.evq hoff, hrun.out,
    ?_⟩
  rw [hrun.engine]
  exact ⟨rfl, rfl, ecState_of_acceptsCall (s := s) hacc⟩

/-! ## `step` -/

/-- The `step` called in s₀ has run n instructions: what it keeps between its pulses and its reads. -/
structure Ran (s₀ : State) (count traceEvery n : Nat) (s : State) : Prop where
  quiet : Quiet s
  ssEn : s.bank.ssEn = true
  cpuRst : s.bank.cpuRst = false
  script : s.target.script = s₀.target.script.drop n
  stepIdx : s.engine.stepIdx = n
  stepCount : s.engine.stepCount = count
  traceEvery : s.engine.traceEvery = traceEvery
  ecState : s.engine.ecState = .stepping
  free : s.engine.phase = .idle → s.engine.busOwner = none
  bpsr : s.bank.bpsr = s₀.bank.bpsr
  store : s.store = s₀.store

theorem nextInstr_addr_of_drop {l : List TargetInstr} {n : Nat} (h : s.target.script = l.drop n) (hn : n < l.length) :
    (nextInstr s).addr = (l.getD n default).addr := by
  rw [List.drop_eq_getElem_cons hn] at h
  rw [nextInstr, h]
  simp [hn]

section
variable {s₀ : State} {count traceEvery n : Nat}

/-- S_PULSE runs the next instruction the environment has chosen (R206, R223). -/
theorem Ran.pulse (h : Ran s₀ count traceEvery n s) (hp : s.engine.phase = .sPulse)
    (hn : n < s₀.target.script.length) : ∃ t, runSteps 1 s = .next t ∧ Ran s₀ count traceEvery (n + 1) t ∧
      t.bank.ia = (s₀.target.script.getD n default).addr ∧ t.out = s.out ∧
      t.engine.phase = if reportAfter count traceEvery (n + 1) then .sRdLo else afterPulse count (n + 1) := by
  obtain ⟨hquiet, hss, hrst, hscript, rfl, rfl, rfl, hec, -, hbpsr, hstore⟩ := h
  obtain ⟨t, hwrite, hrun⟩ := writeNamed_step (u := (s.setEngine { s.engine with
    stepIdx := s.engine.stepIdx + 1 }).goto _) false hss hrst
  have hrow : engineRow s = .next t := by
    simp only [engineRow, hp]
    exact hwrite
  have hengine := hrun.engine
  refine ⟨t, hquiet.runSteps_succ hrow 0, ?_, hrun.ia.trans (nextInstr_addr_of_drop hscript hn), hrun.out,
    by rw [hengine]; rfl⟩
  exact
    { quiet := hrun.quiet hquiet.2
      ssEn := hrun.ssEn
      cpuRst := hrun.cpuRst
      script := by rw [hrun.script, ← List.tail_drop, ← hscript]; rfl
      stepIdx := by rw [hengine]; rfl
      stepCount := by rw [hengine]; rfl
      traceEvery := by rw [hengine]; rfl
      ecState := by rw [hengine]; exact hec
      free := by rw [hengine]; exact fun hidle => if_pos hidle
      bpsr := hrun.bpsr.trans hbpsr
      store := hrun.store.trans hstore }

/-- The address of the instruction just run is reported (R206, R207). -/
theorem Ran.trace (h : Ran s₀ count traceEvery n s) (hp : s.engine.phase = .sRdLo) :
    ∃ t, runSteps 2 s = .next t ∧ Ran s₀ count traceEvery n t ∧
      t.out.reports = s.out.reports ++ [.traceAddr s.bank.ia] ∧ t.engine.phase = afterPulse count n := by
  have hlo : engineRow s = .next ((readLow (offset .iaLo s) s).goto .sRdHi) := by simp only [engineRow, hp]
  refine ⟨_, (h.quiet.runSteps_succ hlo 1).trans ((h.quiet.readLow _ .sRdHi).runSteps_succ rfl 0), ?_,
    traceIa_readLow .sRdHi s, congrArg₂ afterPulse h.stepCount h.stepIdx⟩
  exact { h with free := fun hidle => if_pos hidle }

/-- After which of the first n steps there is a report, numbered from 0 (R207). -/
def reported (count traceEvery n : Nat) : List Nat :=
  (List.range n).filter fun i => reportAfter count traceEvery (i + 1)

theorem reported_succ (count traceEvery n : Nat) : reported count traceEvery (n + 1) =
    reported count traceEvery n ++ if reportAfter count traceEvery (n + 1) then [n] else [] := by
  rw [reported, List.range_succ, List.filter_append, List.filter_singleton, Bool.cond_eq_ite]
  rfl

/-- n steps: n pulses, and two reads for each report (R206, R223). -/
theorem Ran.run (h : Ran s₀ count traceEvery 0 s) (hp : s.engine.phase = afterPulse count 0) (hn : n ≤ count)
    (hscript : count ≤ s₀.target.script.length) :
    ∃ t, runSteps (n + 2 * (reported count traceEvery n).length) s = .next t ∧ Ran s₀ count traceEvery n t ∧
      t.engine.phase = afterPulse count n ∧ t.out.reports = s.out.reports ++
        (reported count traceEvery n).map fun i => .traceAddr (s₀.target.script.getD i default).addr := by
  induction n with
  | zero => exact ⟨s, rfl, h, hp, (List.append_nil _).symm⟩
  | succ n ih =>
    obtain ⟨u, hu, hran, hpu, hout⟩ := ih (by omega)
    obtain ⟨v, hv, hranv, hia, houtv, hpv⟩ := hran.pulse (hpu.trans (if_pos hn)) (by omega)
    have hrun := (runSteps_add _ 1 hu).trans hv
    cases hdue : reportAfter count traceEvery (n + 1) with
    | false =>
      rw [hdue] at hpv
      refine ⟨v, ?_, hranv, hpv, ?_⟩
      · rw [reported_succ, hdue, ← hrun]
        congr 1
        simp
        omega
      · rw [reported_succ, hdue, houtv, hout]
        simp
    | true =>
      rw [hdue] at hpv
      obtain ⟨t, ht, hrant, houtt, hpt⟩ := hranv.trace hpv
      refine ⟨t, ?_, hrant, hpt, ?_⟩
      · rw [reported_succ, hdue, ← (runSteps_add _ 2 hrun).trans ht]
        congr 1
        simp
        omega
      · rw [reported_succ, hdue, houtt, houtv, hout, hia]
        simp

end

/-- Settles O41: the call begins S_PULSE, and the pulses and reads follow. -/
theorem stepRunsAndReports : Obligations.StepRunsAndReports := by
  intro s count traceEvery ⟨hseen, hhalt⟩ hsched hacc hfree hss hrst hcount hscript
  have hcall : step s = .next (((s.setSchedule []).setEngine
      { s.engine with stepIdx := 0, stepCount := count, traceEvery := traceEvery }).begin .sPulse) := by
    rw [step_of_driver hseen hsched, driverMove, callStep_accepted (s := s.setSchedule []) hacc hfree traceEvery hcount]
    rfl
  have start : Ran s count traceEvery 0 (((s.setSchedule []).setEngine
      { s.engine with stepIdx := 0, stepCount := count, traceEvery := traceEvery }).begin .sPulse) :=
    ⟨⟨⟨hseen, hhalt⟩, rfl⟩, hss, hrst, rfl, rfl, rfl, rfl, ecState_of_acceptsCall (s := s) hacc, nofun, rfl, rfl⟩
  obtain ⟨t, ht, hran, hp, hout⟩ := start.run (if_pos hcount).symm le_rfl hscript
  have hidle : t.engine.phase = .idle := hp.trans (if_neg (lt_irrefl count))
  refine ⟨t, ?_, hout, hran.script, hran.stepIdx, hidle, hran.free hidle, hran.ecState, hran.bpsr, hran.store⟩
  rw [Nat.add_assoc, Nat.add_comm, Machine.runSteps_succ _ hcall]
  exact ht

end Sys2Proof.Machine
end

section
/-! The proofs of the family `45_breakpoint_store.md`: what each operation of the BreakpointStore answers, that an accepted
call carries the answer out, and that a bank which mirrors the store has one contributor. -/

namespace Sys2Proof.Machine

variable {s t : State} {st : List Entry} {a : Addr} {m : Mode6} {e : Entry}

/-! ## What setBreakpoint answers -/

theorem triggerBad_eq_false {trigger : Option Nat} (h : ∀ n, trigger = some n → n ≤ 15) : triggerBad trigger = false := by
  cases trigger with
  | none => rfl
  | some n => exact decide_eq_false (Nat.not_lt.2 (h n rfl))

/-- The entry with bits set, and with a given trigger in place of its own (R244). -/
def Entry.merge (m : Mode6) (trigger : Option Nat) (e : Entry) : Entry :=
  { e with mode := e.mode ||| m, trigger := triggerOr trigger e.trigger }

section
variable {trigger : Option Nat} (hm : m ≠ 0) (ht : triggerBad trigger = false)
include hm ht

theorem setBreakpoint_alreadySet (hf : findEntry st a = some e) (hset : e.mode &&& m = m) :
    setBreakpoint st a m trigger = some (replyNamed st .alreadySet) := by
  simp only [setBreakpoint, if_neg hm, ht, hf, if_pos hset, Bool.false_eq_true, if_false]

theorem setBreakpoint_merge (hf : findEntry st a = some e) (hset : e.mode &&& m ≠ m) :
    setBreakpoint st a m trigger =
      some { store := updateAt a (Entry.merge m trigger) st, reports := [.modesSet m a], result := .done } := by
  simp only [setBreakpoint, if_neg hm, ht, hf, if_neg hset, Bool.false_eq_true, if_false]
  rfl

theorem setBreakpoint_insert (hf : findEntry st a = none) (hl : st.length < storeCapacity) :
    setBreakpoint st a m trigger = some
      { store := insertEntry { address := a, mode := m, trigger := triggerOr trigger alwaysTrue } st
        reports := [.modesSet m a], result := .done } := by
  simp only [setBreakpoint, if_neg hm, ht, hf, if_pos hl, Bool.false_eq_true, if_false]

theorem setBreakpoint_storeFull (hf : findEntry st a = none) (hl : storeCapacity ≤ st.length) :
    setBreakpoint st a m trigger = some (replyNamed st .storeFull) := by
  simp only [setBreakpoint, if_neg hm, ht, hf, if_neg (Nat.not_lt.2 hl), Bool.false_eq_true, if_false]

end

/-- Settles O53: an update in place leaves the count and every other address alone. -/
theorem setOnAnExistingAddressMerges : Obligations.SetOnAnExistingAddressMerges := by
  intro st a m trigger e _ hf hm hle
  have ht := triggerBad_eq_false hle
  by_cases hset : e.mode &&& m = m
  · exact ⟨_, setBreakpoint_alreadySet hm ht hf hset, rfl, fun _ => ⟨rfl, rfl⟩, fun hnew => absurd hset hnew⟩
  · have hfind b := findEntry_updateAt a (Entry.merge m trigger) st b fun _ => rfl
    refine ⟨_, setBreakpoint_merge hm ht hf hset, length_updateAt a _ st, fun hall => absurd hall hset,
      fun _ => ⟨rfl, ?_, fun b hb => (hfind b).trans (if_neg hb)⟩⟩
    rw [hfind, if_pos rfl, hf]
    rfl

/-- Settles O54: by whether the store has room. -/
theorem setOnANewAddressInsertsOrIsFull : Obligations.SetOnANewAddressInsertsOrIsFull := by
  intro st a m trigger hwf hf hm hle
  have ht := triggerBad_eq_false hle
  by_cases hl : st.length < storeCapacity
  · have hins := setBreakpoint_insert hm ht hf hl
    have hfind b := findEntry_insertEntry { address := a, mode := m, trigger := triggerOr trigger alwaysTrue } st b hf
    refine ⟨_, hins, fun _ => ⟨rfl, length_insertEntry _ st, setBreakpoint_wf hwf hins, (hfind a).trans (if_pos rfl),
      fun b hb => (hfind b).trans (if_neg hb.symm)⟩, fun hfull => absurd hl hfull.not_lt⟩
  · exact ⟨_, setBreakpoint_storeFull hm ht hf (Nat.le_of_not_lt hl), fun hroom => absurd hroom hl, fun _ => ⟨rfl, rfl⟩⟩

/-! ## What clearMode answers -/

theorem clearMode_notFound (m : Mode6) (hf : findEntry st a = none) : clearMode st a m = replyNamed st .notFound := by
  simp [clearMode, hf]

section
variable (hf : findEntry st a = some e)
include hf

theorem clearMode_notSet (hset : e.mode &&& m ≠ m) : clearMode st a m = replyNamed st .notSet := by
  simp [clearMode, hf, hset]

theorem clearMode_remove (hset : e.mode &&& m = m) (hnone : e.mode &&& ~~~m = 0) :
    clearMode st a m = { store := st.filter fun x => x.address != a, reports := [], result := .done } := by
  simp [clearMode, hf, hset, hnone]

theorem clearMode_clear (hset : e.mode &&& m = m) (hsome : e.mode &&& ~~~m ≠ 0) :
    clearMode st a m =
      { store := updateAt a (fun x => { x with mode := x.mode &&& ~~~m }) st, reports := [], result := .done } := by
  simp only [clearMode, hf, if_neg (not_not.2 hset), if_neg hsome]

end

/-- Settles O55: by whether the entry has all the bits, and whether it has any other. -/
theorem clearModeClearsOrRemoves : Obligations.ClearModeClearsOrRemoves := by
  refine fun st a m hwf => ⟨fun hf => ?notFound, fun e hf => ⟨fun hset => ?notSet, fun hset => ?done⟩⟩
  case notFound =>
    rw [clearMode_notFound m hf]
    exact ⟨rfl, rfl⟩
  case notSet =>
    rw [clearMode_notSet hf hset]
    exact ⟨rfl, rfl⟩
  have hkept := clearMode_wf hwf a m
  by_cases hnone : e.mode &&& ~~~m = 0
  · rw [clearMode_remove hf hset hnone] at hkept ⊢
    have hfind b := findEntry_remove st a b
    exact ⟨rfl, hkept, by rw [hfind, if_pos rfl, if_pos hnone], fun b hb => (hfind b).trans (if_neg hb)⟩
  · rw [clearMode_clear hf hset hnone] at hkept ⊢
    have hfind b := findEntry_updateAt a (fun x => { x with mode := x.mode &&& ~~~m }) st b fun _ => rfl
    refine ⟨rfl, hkept, ?_, fun b hb => (hfind b).trans (if_neg hb)⟩
    rw [hfind, if_pos rfl, hf, if_neg hnone]
    rfl

/-! ## What setTrigger and the lookups answer -/

section
variable (choice : Bool) {i code : Nat}

theorem setTrigger_done (he : st[i]? = some e) (hc : code ≤ 15) : setTrigger choice st i code =
    { store := st.set i { e with trigger := BitVec.ofNat 4 code }, reports := [], result := .done } := by
  simp only [setTrigger, he, if_neg (Nat.not_lt.2 hc)]

/-- A failure that applies is answered by name, either one where both apply (R251, R269). -/
theorem setTrigger_named (h : st.length ≤ i ∨ 15 < code) :
    (15 < code ∧ setTrigger choice st i code = replyNamed st .invalidTrigger) ∨
    (st.length ≤ i ∧ setTrigger choice st i code = replyNamed st .notFound) := by
  unfold setTrigger
  split
  next e he =>
    obtain ⟨hi, -⟩ := List.getElem?_eq_some_iff.1 he
    have hc := h.resolve_left (Nat.not_le.2 hi)
    exact .inl ⟨hc, if_pos hc⟩
  next he =>
    by_cases hboth : (decide (15 < code) && choice) = true
    · have ⟨hc, _⟩ := Bool.and_eq_true_iff.1 hboth
      exact .inl ⟨of_decide_eq_true hc, by rw [if_pos hboth]⟩
    · exact .inr ⟨List.getElem?_eq_none_iff.1 he, by rw [if_neg hboth]⟩

theorem triggerAt_of_index (h : findByAddress st a = some i) : triggerAt choice st a code = setTrigger choice st i code := by
  rw [triggerAt, h, Option.getD_some]

/-- An address with no entry is as an invalid index (R102). -/
theorem triggerAt_of_none (h : findByAddress st a = none) :
    triggerAt choice st a code = setTrigger choice st st.length code := by
  rw [triggerAt, h, Option.getD_none]

end

theorem indexValid_iff (st : List Entry) (i : Nat) : indexValid st i = true ↔ i < st.length := decide_eq_true_iff

theorem getElem?_listing (st : List Entry) (i : Nat) : (listing st)[i]? = st[i]?.map fun e => (i, e) := by
  by_cases hi : i < st.length <;> simp [listing, hi]

/-- In a well-formed store an address has one index. -/
theorem StoreWf.index_unique (h : StoreWf st) {x y : Entry} {j k : Nat} (hx : st[j]? = some x) (hy : st[k]? = some y)
    (hxy : x.address = y.address) : j = k := by
  obtain ⟨hsorted, -, -⟩ := h
  have hnodup : (st.map Entry.address).Nodup :=
    List.pairwise_map.2 (hsorted.imp fun hlt heq => hlt.ne (congrArg BitVec.toNat heq))
  obtain ⟨hj, -⟩ := List.getElem?_eq_some_iff.1 hx
  refine (List.getElem?_inj (List.length_map Entry.address ▸ hj) hnodup).1 ?_
  rw [List.getElem?_map, List.getElem?_map, hx, hy, Option.map_some, Option.map_some, hxy]

theorem StoreWf.findByAddress_eq_some (h : StoreWf st) (i : Nat) :
    findByAddress st a = some i ↔ ∃ e, st[i]? = some e ∧ e.address = a := by
  constructor
  · intro hf
    obtain ⟨hi, hadr, -⟩ := List.findIdx?_eq_some_iff_getElem.1 hf
    exact ⟨st[i], List.getElem?_eq_getElem hi, eq_of_beq hadr⟩
  · intro ⟨e, he, hadr⟩
    obtain ⟨hi, rfl⟩ := List.getElem?_eq_some_iff.1 he
    refine List.findIdx?_eq_some_iff_getElem.2 ⟨hi, beq_iff_eq.2 hadr, fun j hj heq => hj.ne ?_⟩
    exact h.index_unique (List.getElem?_eq_getElem (hj.trans hi)) he ((eq_of_beq heq).trans hadr.symm)

/-- Settles O56: the failures of `setTrigger` by which of the two applies, the lookups by the index an address has, the
external commands as they expand. -/
theorem triggersLookupsAndExternalCommands : Obligations.TriggersLookupsAndExternalCommands := by
  refine ⟨fun choice st i code => ⟨fun e he hc => ?done, fun hi hc => ?badCode, fun hi hc => ?badIndex, fun hi hc => ?both,
    fun h => ?kept, indexValid_iff st i, getElem?_listing st i⟩, fun choice st a code hwf => ⟨hwf.findByAddress_eq_some,
    fun i => triggerAt_of_index choice, fun hf => ?noEntry⟩, fun c s => rfl,
    fun a trigger count traceEvery code k bp w hk => ?expand⟩
  case done =>
    rw [setTrigger_done choice he hc]
    exact ⟨rfl, rfl⟩
  case badCode =>
    obtain ⟨-, h⟩ | ⟨hi', -⟩ := setTrigger_named choice (.inr hc)
    · exact congrArg Reply.result h
    · exact absurd hi' (Nat.not_le.2 hi)
  case badIndex =>
    obtain ⟨hc', -⟩ | ⟨-, h⟩ := setTrigger_named choice (.inl hi)
    · exact absurd hc' (Nat.not_lt.2 hc)
    · exact congrArg Reply.result h
  case both =>
    obtain ⟨-, h⟩ | ⟨-, h⟩ := setTrigger_named choice (.inr hc)
    · exact .inr (congrArg Reply.result h)
    · exact .inl (congrArg Reply.result h)
  case kept =>
    obtain ⟨-, h⟩ | ⟨-, h⟩ := setTrigger_named choice h <;> exact congrArg Reply.store h
  case noEntry =>
    rw [triggerAt_of_none choice hf]
    obtain ⟨hc, h⟩ | ⟨-, h⟩ := setTrigger_named choice (.inl le_rfl) <;> rw [h]
    · exact ⟨rfl, .inr ⟨hc, rfl⟩⟩
    · exact ⟨rfl, .inl rfl⟩
  case expand =>
    simp only [List.mem_cons, List.not_mem_nil, or_false, Prod.mk.injEq] at hk
    obtain ⟨rfl, rfl, rfl⟩ | ⟨rfl, rfl, rfl⟩ | ⟨rfl, rfl, rfl⟩ := hk <;>
      exact ⟨rfl, rfl, rfl, rfl, rfl, rfl, rfl, rfl, rfl⟩

/-! ## Calls of the DRIVER -/

/-- A set that is done reports the modes and the address; any other answer is by name, the store as it was (R247, R265). -/
theorem setBreakpoint_cases {trigger : Option Nat} {r : Reply} (h : setBreakpoint st a m trigger = some r) :
    (r.result = .done ∧ r.reports = [.modesSet m a]) ∨ ∃ f, r = replyNamed st f := by
  unfold setBreakpoint at h
  split at h
  · cases h
  split at h
  · cases h; exact .inr ⟨_, rfl⟩
  split at h <;> split at h <;> cases h
  · exact .inr ⟨_, rfl⟩
  · exact .inl ⟨rfl, rfl⟩
  · exact .inl ⟨rfl, rfl⟩
  · exact .inr ⟨_, rfl⟩

theorem clearMode_cases (st : List Entry) (a : Addr) (m : Mode6) :
    (clearMode st a m).result = .done ∨ ∃ f, clearMode st a m = replyNamed st f := by
  cases hf : findEntry st a with
  | none => exact .inr ⟨_, clearMode_notFound m hf⟩
  | some e =>
    by_cases hset : e.mode &&& m = m
    · by_cases hnone : e.mode &&& ~~~m = 0
      · exact .inl (congrArg Reply.result (clearMode_remove hf hset hnone))
      · exact .inl (congrArg Reply.result (clearMode_clear hf hset hnone))
    · exact .inr ⟨_, clearMode_notSet hf hset⟩

theorem setTrigger_cases (choice : Bool) (st : List Entry) (i code : Nat) :
    (setTrigger choice st i code).result = .done ∨ ∃ f, setTrigger choice st i code = replyNamed st f := by
  by_cases h : st.length ≤ i ∨ 15 < code
  · obtain ⟨-, hr⟩ | ⟨-, hr⟩ := setTrigger_named choice h <;> exact .inr ⟨_, hr⟩
  · rw [not_or, not_le, not_lt] at h
    obtain ⟨hi, hc⟩ := h
    exact .inl (congrArg Reply.result (setTrigger_done choice (List.getElem?_eq_getElem hi) hc))

/-- Carrying a reply out changes the store and the outputs, and nothing else. -/
theorem applyReply_carriedOut (r : Reply) (s : State) : CarriedOut r s (applyReply r s) := by
  rw [applyReply_eq]
  constructor <;> rfl

/-- A free value drawn for the call is no part of what it does. -/
theorem CarriedOut.of_drawn {r : Reply} (h : CarriedOut r s.drawn t) : CarriedOut r s t :=
  ⟨h.store, h.reports, h.results, h.port, h.bank, h.engine, h.env, h.target, h.marks⟩

theorem callStore_carriedOut (h : acceptsCall s = true) (r : Reply) : CarriedOut r s (callStore (some r) s) := by
  rw [callStore, if_pos h]
  exact applyReply_carriedOut r s

/-- A call that is not accepted answers so, and does nothing else (R240; log entry 14). -/
theorem callStore_notGranted (h : acceptsCall s = false) (r : Option Reply) :
    CarriedOut { store := s.store, reports := [], result := .notGranted } s (callStore r s) := by
  have hcall : callStore r s = s.answer .notGranted := if_neg (Bool.eq_false_iff.1 h)
  rw [hcall]
  exact applyReply_carriedOut { store := s.store, reports := [], result := .notGranted } s

/-- Settles O52: the invariant and the answers operation by operation, the calls through `callStore`. -/
theorem storeCallsCarryOutTheOperation : Obligations.StoreCallsCarryOutTheOperation := by
  refine ⟨fun st a m trigger choice i code hwf => ⟨fun r => setBreakpoint_wf hwf, clearMode_wf hwf a m,
    setTrigger_wf hwf choice i code, triggerAt_wf hwf choice a code⟩,
    fun st a m trigger choice i code r => ⟨fun hr hdone => ?reported, fun hr => ?answered⟩,
    fun s h => ⟨fun a m trigger r hr => ?set, fun a m => callStore_carriedOut h _,
      fun i code => ⟨_, (callStore_carriedOut (s := s.drawn) h _).of_drawn⟩,
      fun a code => ⟨_, (callStore_carriedOut (s := s.drawn) h _).of_drawn⟩, fun a => callStore_carriedOut h _,
      fun i => callStore_carriedOut h _, callStore_carriedOut h _⟩,
    fun s op h hstep hcont hreset => ?notAccepted⟩
  case reported =>
    obtain ⟨-, hrep⟩ | ⟨f, rfl⟩ := setBreakpoint_cases hr
    · exact hrep
    · cases hdone
  case answered =>
    obtain hr | rfl | rfl := hr
    · exact (setBreakpoint_cases hr).imp_left And.left
    · exact clearMode_cases st a m
    · exact setTrigger_cases choice st i code
  case set =>
    rw [driverMove, hr]
    exact callStore_carriedOut h r
  case notAccepted =>
    cases op with
    | step count traceEvery => exact absurd rfl (hstep count traceEvery)
    | continueExecution => exact absurd rfl hcont
    | reset => exact absurd rfl hreset
    | setTrigger i code | triggerAt a code =>
      rw [driverMove]
      exact (callStore_notGranted (s := s.drawn) h _).of_drawn
    | setBreakpoint a m trigger | clearMode a m | findByAddress a | indexValid i | list =>
      rw [driverMove]
      exact callStore_notGranted h _

/-! ## The mirrored bank -/

/-- A slot that holds the word of an arm and asserts on a cycle is that of an entry at the cycle's address (R157, R176). -/
theorem entry_of_slotAsserts {c : BusCycle} {k : Nat} (h : slotAsserts (slotWord st k) c = true) :
    ∃ e, st[k]? = some e ∧ e.address = c.addr := by
  cases he : st[k]? with
  | none =>
    rw [slotWord, he, slotAsserts_of_noMode c rfl] at h
    cases h
  | some e =>
    rw [slotWord, he, slotAsserts_iff, wordAddr_serialize] at h
    obtain ⟨hadr, -, -⟩ := h
    exact ⟨e, rfl, hadr⟩

/-- Settles O57: two slots that assert would hold two entries at the cycle's address. -/
theorem mirroredBankHasOneContributor : Obligations.MirroredBankHasOneContributor := by
  intro st bpsr c j k hwf hmirror hj hk hja hka
  rw [hmirror j hj] at hja
  rw [hmirror k hk] at hka
  obtain ⟨x, hx, hxa⟩ := entry_of_slotAsserts hja
  obtain ⟨y, hy, hya⟩ := entry_of_slotAsserts hka
  exact hwf.index_unique hx hy (hxa.trans hya.symm)

end Sys2Proof.Machine
end

section
/-! The proofs of the family `70_reset_and_hazards.md`: `startup()` from power-on, and `reset()`. -/

namespace Sys2Proof.Machine

variable {s t u : State}

/-! ## CPU_RESET -/

/-- A reset that begins or ends drops the instruction in progress and moves CPU_RST alone (R111, R189; log entry 18). -/
theorem writeNamed_cpuReset {p : Bool} (h : (p || u.bank.cpuRst) = true) : writeNamed .cpuReset p u =
    .next (afterWrite (commandWord (codeOf u.binding.cmd .cpuReset) p) (abortInstr u) { u.bank with cpuRst := p }) := by
  have hrst : (p || (onPort (commandWord (codeOf u.binding.cmd .cpuReset) p) u).bank.cpuRst) = true := h
  rw [writeNamed_eq, instrOf, exec, execCpuReset, hrst]
  rfl

/-- A target in reset keeps no bus master waiting (R188). -/
theorem quiet_of_reset (hseen : strobePending s = false) (hrst : s.bank.cpuRst = true) (hsched : s.schedule = []) :
    Quiet s := ⟨⟨hseen, by simp [haltPending, hrst]⟩, hsched⟩

/-! ## `startup()` -/

/-- `startup()` is over in t, and what it keeps of s has been kept (R302, R303). -/
structure StartedUp (s t : State) : Prop where
  known : AfterStartup t
  started : t.engine.started = true
  phase : t.engine.phase = .idle
  bpsr : t.bank.bpsr = s.bank.bpsr
  ia : t.bank.ia = s.bank.ia
  muxsel : t.port.muxsel = s.port.muxsel

/-- The target's owed cycles come before `startup()` or inside it, and move nothing that it keeps. -/
theorem StartedUp.of_cycles (h : StartedUp u t) (frame : CycleFrame s u) (hia : u.bank.ia = s.bank.ia) :
    StartedUp s t :=
  { h with
    bpsr := h.bpsr.trans frame.bpsr
    ia := h.ia.trans hia
    muxsel := h.muxsel.trans (congrArg Port.muxsel frame.port) }

theorem rowIdle_of_not_started (hstarted : s.engine.started = false) (hfree : s.engine.busOwner = none) :
    rowIdle s = s.begin .uSs := by
  rw [rowIdle, hstarted, hfree]
  rfl

theorem engineRow_uSs (hp : s.engine.phase = .uSs) :
    engineRow s = .next (afterWrite (commandWord (codeOf s.binding.cmd .ssEnable) true)
      (s.goto .uBp) { s.bank with ssEn := true }) := by
  simp only [engineRow, hp, writeNamed_eq]
  rfl

theorem engineRow_uBp (hp : s.engine.phase = .uBp) :
    engineRow s = .next (afterWrite (commandWord (codeOf s.binding.cmd .bpEnable) false)
      (s.goto .uFifo) { s.bank with bpEn := false, evq := [] }) := by
  simp only [engineRow, hp, writeNamed_eq]
  rfl

theorem engineRow_uFifo (hp : s.engine.phase = .uFifo) :
    engineRow s = .next (afterWrite (commandWord (codeOf s.binding.cmd .fifoReset) false)
      (s.goto .uRstOn) { s.bank with evq := [] }) := by
  simp only [engineRow, hp, writeNamed_eq]
  rfl

/-- The two rows that pulse the target's reset, the last of which ends `startup()`. -/
theorem runSteps_uRstOn (h : Quiet s) (hp : s.engine.phase = .uRstOn) (hss : s.bank.ssEn = true)
    (hbp : s.bank.bpEn = false) (hevq : s.bank.evq = []) : ∃ t, runSteps 2 s = .next t ∧ StartedUp s t := by
  have hon : engineRow s = writeNamed .cpuReset true (s.goto .uRstOff) := by simp only [engineRow, hp]
  rw [writeNamed_cpuReset rfl] at hon
  have hq := quiet_of_reset (afterWrite_seen (commandWord (codeOf s.binding.cmd .cpuReset) true)
    (abortInstr (s.goto .uRstOff)) { s.bank with cpuRst := true }) rfl h.2
  have hidle : s.bank.active = false := by rw [Bank.active, hevq]; rfl
  exact ⟨_, (h.runSteps_succ hon 1).trans (hq.runSteps_succ (writeNamed_cpuReset rfl) 0),
    ⟨hss, hbp, hevq, hidle, rfl, rfl, rfl, rfl⟩, rfl, rfl, rfl, rfl, rfl⟩

/-- The last three rows: no event is pending when the reset is pulsed. -/
theorem runSteps_uFifo (h : Quiet s) (hp : s.engine.phase = .uFifo) (hss : s.bank.ssEn = true)
    (hbp : s.bank.bpEn = false) : ∃ t, runSteps 3 s = .next t ∧ StartedUp s t := by
  have hq := quiet_afterWrite h (u := s.goto .uRstOn) (b := { s.bank with evq := [] })
    (commandWord (codeOf s.binding.cmd .fifoReset) false) rfl rfl rfl rfl
  obtain ⟨t, ht, hup⟩ := runSteps_uRstOn hq rfl hss hbp rfl
  exact ⟨t, (h.runSteps_succ (engineRow_uFifo hp) 2).trans ht, { hup with }⟩

/-- The last four rows, once the target is halted. -/
theorem runSteps_uBp (h : Quiet s) (hp : s.engine.phase = .uBp) (hss : s.bank.ssEn = true) :
    ∃ t, runSteps 4 s = .next t ∧ StartedUp s t := by
  have hq := quiet_afterWrite h (u := s.goto .uFifo) (b := { s.bank with bpEn := false, evq := [] })
    (commandWord (codeOf s.binding.cmd .bpEnable) false) rfl rfl rfl rfl
  obtain ⟨t, ht, hup⟩ := runSteps_uFifo hq rfl hss rfl
  exact ⟨t, (h.runSteps_succ (engineRow_uBp hp) 3).trans ht, { hup with }⟩

/-- From a ready bus: the idle row, U_SS, the cycles that the target now owes, and the last four rows. -/
theorem runSteps_startup (h : Quiet s) (hidle : s.engine.phase = .idle) (hstarted : s.engine.started = false)
    (hfree : s.engine.busOwner = none) :
    ∃ n t, n ≤ 6 + s.target.owed.length ∧ runSteps n s = .next t ∧ StartedUp s t := by
  have hbegin : engineRow s = .next (s.begin .uSs) := by
    simp only [engineRow, hidle, rowIdle_of_not_started hstarted hfree]
  have hq : Quiet (s.begin .uSs) := h
  obtain ⟨v, hv, hqv, frame, hia⟩ := runSteps_halting (afterWrite_seen
    (commandWord (codeOf s.binding.cmd .ssEnable) true) ((s.begin .uSs).goto .uBp) { s.bank with ssEn := true }) h.2 rfl
  obtain ⟨t, ht, hup⟩ := runSteps_uBp hqv (by rw [frame.engine]; rfl) (frame.ssEn rfl)
  have hrun := (h.runSteps_succ hbegin _).trans
    ((hq.runSteps_succ (engineRow_uSs rfl) _).trans ((runSteps_add _ 4 hv).trans ht))
  refine ⟨_, t, ?_, hrun, { hup.of_cycles frame hia with }⟩
  change (if s.bank.cpuRst then 0 else s.target.owed.length) + 4 + 1 + 1 ≤ 6 + s.target.owed.length
  split <;> omega

/-- Settles O50: a target halted at power-on presents the cycles it owes first; then the bus is ready. -/
theorem startupEstablishesTheKnownState : Obligations.StartupEstablishesTheKnownState := by
  intro s h hsched
  suffices ∃ n t, n ≤ 6 + s.target.owed.length ∧ runSteps n s = .next t ∧ StartedUp s t by
    obtain ⟨n, t, hn, hrun, hup⟩ := this
    exact ⟨n, t, hn, hrun, hup.known, hup.started, hup.phase, hup.bpsr, hup.ia, hup.muxsel⟩
  cases hhalt : haltPending s with
  | false => exact runSteps_startup ⟨⟨h.noCommand, hhalt⟩, hsched⟩ h.phase h.started h.owner
  | true =>
    obtain ⟨⟨hrst, hss⟩, -⟩ : (s.bank.cpuRst = false ∧ s.bank.ssEn = true) ∧ s.target.owed ≠ [] := by
      simpa [haltPending] using hhalt
    obtain ⟨u, hu, hquiet, frame, hia⟩ := runSteps_halting h.noCommand hsched hss
    rw [hrst] at hu
    have howed := owed_of_halted (frame.ssEn hss) (frame.cpuRst.trans hrst) hquiet.1.2
    obtain ⟨n, t, hn, hrun, hup⟩ := runSteps_startup hquiet (by rw [frame.engine, h.phase])
      (by rw [frame.engine, h.started]) (by rw [frame.engine, h.owner])
    rw [howed, List.length_nil] at hn
    exact ⟨s.target.owed.length + n, t, by omega, (runSteps_add _ n hu).trans hrun, hup.of_cycles frame hia⟩

/-! ## `reset()` -/

theorem callReset_accepted (hacc : acceptsCall s = true) (hfree : s.engine.busOwner = none) :
    callReset s = s.begin .rRstOn := by
  rw [callReset, if_neg (not_not.2 (ecState_of_acceptsCall hacc)), beginCall, hacc, hfree]
  rfl

/-- Settles O51: the call begins the first of two CPU_RESET rows, and the strobe toggles twice. -/
theorem resetPulsesTheTargetReset : Obligations.ResetPulsesTheTargetReset := by
  intro s hready hsched hacc hfree
  have hcall : step s = .next ((s.setSchedule []).begin .rRstOn) := by
    rw [step_of_driver hready.1 hsched, driverMove, callReset_accepted (s := s.setSchedule []) hacc hfree]
  have hquiet : Quiet ((s.setSchedule []).begin .rRstOn) := ⟨hready, rfl⟩
  have hon : engineRow ((s.setSchedule []).begin .rRstOn) = _ := writeNamed_cpuReset rfl
  have hquietOn := quiet_of_reset (afterWrite_seen (commandWord (codeOf s.binding.cmd .cpuReset) true)
    (abortInstr (((s.setSchedule []).begin .rRstOn).goto .rRstOff)) { s.bank with cpuRst := true }) rfl rfl
  have hoff := hquietOn.runSteps_succ (writeNamed_cpuReset rfl) 0
  have hseen : (!!s.port.strobe) = s.bank.strobeSeen := by simpa [strobePending] using hready.1
  refine ⟨⟨_, (Machine.runSteps_succ 1 hcall).trans (hquiet.runSteps_succ hon 0), rfl, rfl⟩,
    _, (Machine.runSteps_succ 2 hcall).trans ((hquiet.runSteps_succ hon 1).trans hoff), ?_, rfl, rfl, rfl,
    ecState_of_acceptsCall (s := s) hacc, rfl, rfl⟩
  exact congrArg (fun b => { s.bank with cpuRst := false, strobeSeen := b }) hseen

end Sys2Proof.Machine
end
